-- ==== Sys2Proof/Word.lean ====
section
/-! DEFINITION. The one data width of PMX and the numbers the spec fixes for every implementation. -/

namespace Sys2Proof

/-- Every data value of PMX is an unsigned integer of `W = 32` bits (00_scope R12). -/
abbrev Word := BitVec 32

/-- The command word `CMD[71:0]` (30_encoding R80). It is presented whole and has no byte order (20_memory R65). -/
abbrev CommandWord := BitVec 72

/-- `PIN_FREE = 0xFFFF_FFFF`, the sentinel of a free slot (00_scope R13). -/
def pinFree : Word := 0xFFFFFFFF#32

end Sys2Proof
end

