-- ==== Sys2Proof/Config.lean ====
section
/-! DEFINITION. What an implementation of PMX fixes: the OPEN parameters of 00_scope R8 to R15 as one plain record
(a State carries one and no step changes it, log entry 1), the test platform of the spec, and the free values. -/

namespace Sys2Proof

/-- The two general-purpose timers, numbered 0 and 1 (00_scope R8: `N_TIMERS = 2`). -/
inductive TimerId where
  | t0
  | t1
  deriving DecidableEq, Repr, Inhabited

/-- One thing per timer: the two-element tables indexed by `t`. -/
structure PerTimer (α : Type) where
  t0 : α
  t1 : α
  deriving DecidableEq, Repr

/-- A level of a pin (10_state R40). -/
inductive Level where
  | low
  | high
  deriving DecidableEq, Repr, Inhabited

/-- The hardware counter widths 8 and 16 (10_state R32, R42). -/
inductive CounterWidth where
  | w8
  | w16
  deriving DecidableEq, Repr

/-- Which value the fallback path compares with the half-scale threshold (00_scope R15, `FALLBACK_CMP`). -/
inductive FallbackCmp where
  | raw
  | rescaled
  deriving DecidableEq, Repr

/-- The order of the duty store and the pin store on allocation (00_scope R15, `BIND_ORDER`). -/
inductive BindOrder where
  | dutyFirst
  | bindFirst
  deriving DecidableEq, Repr

/-- The timer model (92_eei_decisions D21): the reference timer of 60_exceptions R198, or the OPEN alternative in which
a running timer may raise any of its events at any time. -/
inductive EventModel where
  | reference
  | anyTime
  deriving DecidableEq, Repr

/-- One row of the pin lookup (00_scope R10): the physical pad, or `none` for `INVALID`; and the analog input,
or `none` for `NONE`. -/
structure PinEntry where
  pad    : Option Word
  analog : Option Word
  deriving DecidableEq, Repr

/-- One supported conversion resolution and its `RESCODE` (00_scope R11, R14). -/
structure ResEntry where
  bits : Word
  code : Word
  deriving DecidableEq, Repr

/-- One row of `ADC_CFG_PACK` (00_scope R14): the single configuration word that packs an input selector, a resolution code
and reference bits. -/
structure PackEntry where
  input   : Word
  resCode : Word
  refBits : Word
  word    : Word
  deriving DecidableEq, Repr

/-- The parameters a model takes as arguments (00_scope section 3). -/
structure Params where
  /-- `N_CU`, comparators per timer that a slot can own (R9). -/
  nCu            : Nat
  /-- The lookup table, one row per logical pin; its length is `PIN_COUNT` (R10). -/
  pins           : List PinEntry
  /-- `SUPPORTED_ADC_RES` with `RESCODE` (R11, R14). -/
  adcRes         : List ResEntry
  /-- `REFBITS(0..4)` (R14). -/
  refBits        : List Word
  /-- `ADC_CFG_PACK`, one row per triple a `READ` can configure (R14). -/
  adcPack        : List PackEntry
  /-- `TIMER_MODE`, the one mode value PMX writes (10_state R42). -/
  timerMode      : Word
  /-- `PWM_PRESCALER` (R14). -/
  pwmPrescaler   : Word
  /-- `PWM_IRQ_PRIORITY` (R14). -/
  pwmIrqPriority : Word
  /-- `IRQ_LINE[t]` (R14, 10_state R28). -/
  irqLine        : PerTimer Word
  /-- `FALLBACK_CMP` (R15). -/
  fallbackCmp    : FallbackCmp
  /-- `BIND_ORDER` (R15). -/
  bindOrder      : BindOrder
  /-- The timer model (92_eei_decisions D21). -/
  eventModel     : EventModel
  deriving DecidableEq, Repr

/-- `N_SLOTS = N_TIMERS * N_CU` (00_scope R9). -/
def Params.nSlots (p : Params) : Nat := 2 * p.nCu

/-- `PIN_COUNT` (00_scope R10). -/
def Params.pinCount (p : Params) : Nat := p.pins.length

/-- The analog inputs of the platform: those of the pins that have a pad (00_scope R10). -/
def Params.analogInputs (p : Params) : List Word :=
  p.pins.filterMap (fun e => if e.pad.isSome then e.analog else none)

/-- The row of `ADC_CFG_PACK` for a triple. -/
def Params.packRow (p : Params) (input res ref : Word) : Option PackEntry :=
  p.adcPack.find? (fun e => e.input == input && e.resCode == res && e.refBits == ref)

/-- `ADC_CFG_PACK` has a row for every analog input, supported resolution and reference (00_scope R14: it is defined on
all of them). -/
def Params.packTotal (p : Params) : Bool :=
  p.analogInputs.all (fun a => p.adcRes.all (fun e => p.refBits.all (fun f => (p.packRow a e.code f).isSome)))

/-- The constraints of 00_scope R9, R10, R11 and R14 (the premise `PLATFORM` of 70_reset_and_hazards R242).
That `PinMap` is `INVALID` from `PIN_COUNT` on and that a pin without a pad has no analog input hold by the lookup
functions themselves (Machine/Operands.lean). -/
abbrev Params.Wf (p : Params) : Prop :=
  (1 ≤ p.nCu ∧ p.nSlots ≤ 9) ∧
  (0 < p.pinCount ∧ p.pinCount < 2 ^ 32 - 1) ∧
  (10#32 ∈ p.adcRes.map (·.bits) ∧ (∀ e ∈ p.adcRes, e.bits.toNat ≤ 10) ∧
    (p.adcRes.map (·.bits)).Nodup ∧ (p.adcRes.map (·.code)).Nodup) ∧
  (p.refBits.length = 5 ∧ p.refBits.Nodup) ∧
  p.irqLine.t0 ≠ p.irqLine.t1 ∧
  ((p.adcPack.map (·.word)).Nodup ∧ p.packTotal = true)

namespace Config

/-- The rows of the pin lookup of the test platform `TP` (92_eei_decisions D31): 32 pins, each with its pad, of which
24 to 31 have the analog inputs 0 to 7. -/
def testPins : List PinEntry :=
  (List.range 24).map (fun p => PinEntry.mk (some (BitVec.ofNat 32 p)) none) ++
  (List.range 8).map (fun a => PinEntry.mk (some (BitVec.ofNat 32 (24 + a))) (some (BitVec.ofNat 32 a)))

/-- Placeholder packed words of the test platform, all different (log entry 2): one row per analog input, resolution code
and reference. -/
def testPack : List PackEntry :=
  (List.range 8).flatMap (fun a => [0x80, 0x90, 0xA0].flatMap (fun r => (List.range 5).map (fun f =>
    PackEntry.mk (BitVec.ofNat 32 a) (BitVec.ofNat 32 r) (BitVec.ofNat 32 (0x100 + f))
      (BitVec.ofNat 32 (0x10000 * r + 0x100 * f + a)))))

/-- The test platform `TP` of the spec (92_eei_decisions D31, 95_test_vectors section 0): `N_CU = 3`,
`SUPPORTED_ADC_RES` the resolutions 8, 9 and 10, and the default reading parameters. DESIGN CHOICE (log entry 2): the
constants that the spec leaves symbolic there have placeholder numbers, all different. No statement is about them. -/
def testPlatform : Params where
  nCu            := 3
  pins           := testPins
  adcRes         := [⟨8#32, 0x80#32⟩, ⟨9#32, 0x90#32⟩, ⟨10#32, 0xA0#32⟩]
  refBits        := [0x100#32, 0x101#32, 0x102#32, 0x103#32, 0x104#32]
  adcPack        := testPack
  timerMode      := 0x201#32
  pwmPrescaler   := 0x202#32
  pwmIrqPriority := 0x203#32
  irqLine        := ⟨0x300#32, 0x301#32⟩
  fallbackCmp    := .raw
  bindOrder      := .dutyFirst
  eventModel     := .reference

/-- FREE VALUE. The level a slot's pin takes at a handler step once the pin's behaviour is undefined
(70_reset_and_hazards R235): applied to the number of the step and the slot index. No body (log entry 5). -/
opaque freeLevel : Nat → Nat → Level

/-- FREE VALUE. The raw value of a conversion that completes by the default schedule (93_implementation_defined U9):
applied to the number of the step. No body (log entry 6). -/
opaque freeRaw : Nat → Word

/-- FREE VALUE. What happens next by the default schedule while a `READ` waits for its conversion, which may never complete
(60_exceptions R201): applied to the number of the step. No body (log entry 6). -/
opaque freeWait : Nat → Nat

end Config
end Sys2Proof
end

