-- ==== Sys2Proof/Syntax.lean ====
section
/-! DEFINITION. The commands of PMX (30_encoding R83), one constructor per row of spec/opcode_table.json, and the
source's call syntax (30_encoding R90). -/

namespace Sys2Proof

/-- The five commands. Each carries both operand fields `A` and `B` of the command word (30_encoding R81): a field the
table calls ignored is still latched into `FG_B` (R85), so the command keeps it. -/
inductive Instr where
  /-- `SETRRES`, `setReadResolution(bits)`. -/
  | setrres (bits ignored : Word)
  /-- `SETREF`, `setReference(mode)`. -/
  | setref (mode ignored : Word)
  /-- `READ`, `read(logicalPin)`. -/
  | read (pin ignored : Word)
  /-- `SETWRES`, `setWriteResolution(bits)`. -/
  | setwres (bits ignored : Word)
  /-- `WRITE`, `write(logicalPin, value)`. -/
  | write (pin value : Word)
  deriving DecidableEq, Repr

/-- The source's names of the reference modes (30_encoding R90, 40_sampler R104). -/
inductive RefName where
  | internalBandgap
  | supplyHalf
  | external0
  | external1
  | supplyThird
  deriving DecidableEq, Repr

/-- The operand of `setReference`: a number or one of the source's names (30_encoding R90). -/
inductive RefOperand where
  | number (n : Nat)
  | named (r : RefName)
  deriving DecidableEq, Repr

/-- A line of source text: one of the five calls, with its operands as written (30_encoding R90). -/
inductive SourceCall where
  | setReadResolution (bits : Nat)
  | setReference (mode : RefOperand)
  | read (logicalPin : Nat)
  | setWriteResolution (bits : Nat)
  | write (logicalPin value : Nat)
  deriving DecidableEq, Repr

end Sys2Proof
end

