-- ==== Sys2Proof/WellFormed.lean ====
section
/-! DEFINITION. What makes a term of the syntax a legal command. -/

namespace Sys2Proof

/-- Every command with `W`-bit operands is legal: an operand is its whole field taken as an unsigned number
(30_encoding R82), an ignored field may hold any value (R85), and no operand value is rejected
(60_exceptions R181, `never rejected`). The width of an operand is carried by its type. -/
def Instr.wellFormed : Instr → Bool
  | .setrres _ _ => true
  | .setref _ _  => true
  | .read _ _    => true
  | .setwres _ _ => true
  | .write _ _   => true

/-- A number written as an operand must be expressible in `W` bits, unsigned (30_encoding R82). -/
def operandFits (n : Nat) : Bool := decide (n < 2 ^ 32)

/-- The check of a written reference operand: a name always stands for a code (30_encoding R90). -/
def RefOperand.wellFormed : RefOperand → Bool
  | .number n => operandFits n
  | .named _  => true

/-- The check of a source call: every operand written as a number fits in its field. -/
def SourceCall.wellFormed : SourceCall → Bool
  | .setReadResolution b  => operandFits b
  | .setReference m       => m.wellFormed
  | .read p               => operandFits p
  | .setWriteResolution b => operandFits b
  | .write p v            => operandFits p && operandFits v

/-- The check of a raw number offered as a command word: it has at most 72 bits (30_encoding R80) and its operation
code is one of the five that are not reserved (R83, R84). -/
def commandNumberOk (w : Nat) : Bool :=
  decide (w < 2 ^ 72) && decide (1 ≤ w / 2 ^ 64) && decide (w / 2 ^ 64 ≤ 5)

end Sys2Proof
end

