-- ==== Sys2Proof/Decode.lean ====
section
/-! DEFINITION. The command word: decoder, encoder (30_encoding R80 to R85), and the source's call syntax as an
assembler (30_encoding R90). -/

namespace Sys2Proof

/-- Why the decoder gives no command. -/
inductive DecodeError where
  /-- `OP = 0x00` or `OP = 0x06 .. 0xFF` (30_encoding R84). The machine executes such a word as a no-op with `DONE`
  (Machine/Foreground.lean); it is no row of the opcode table. -/
  | reservedOpcode (op : BitVec 8)
  deriving DecidableEq, Repr

/-- The field `OP`, `CMD[71:64]` (30_encoding R81). -/
def opField (w : CommandWord) : BitVec 8 := w.extractLsb' 64 8

/-- The field `A`, `CMD[63:32]` (30_encoding R81). -/
def aField (w : CommandWord) : Word := w.extractLsb' 32 32

/-- The field `B`, `CMD[31:0]` (30_encoding R81). -/
def bField (w : CommandWord) : Word := w.extractLsb' 0 32

/-- The word `OP ‖ A ‖ B` (30_encoding R81). -/
def packCommand (op : BitVec 8) (a b : Word) : CommandWord := (op ++ a) ++ b

/-- The operation codes of 30_encoding R83, applied to the two operand fields; every other code is reserved (R84). -/
def decodeFields (op : BitVec 8) (a b : Word) : Except DecodeError Instr :=
  if op = 0x01#8 then .ok (.setrres a b)
  else if op = 0x02#8 then .ok (.setref a b)
  else if op = 0x03#8 then .ok (.read a b)
  else if op = 0x04#8 then .ok (.setwres a b)
  else if op = 0x05#8 then .ok (.write a b)
  else .error (.reservedOpcode op)

/-- The decoder: total on every 72-bit word (30_encoding R80 to R84). -/
def decode (w : CommandWord) : Except DecodeError Instr := decodeFields (opField w) (aField w) (bField w)

/-- The operation code of a command (30_encoding R83). -/
def Instr.opcode : Instr → BitVec 8
  | .setrres _ _ => 0x01#8
  | .setref _ _  => 0x02#8
  | .read _ _    => 0x03#8
  | .setwres _ _ => 0x04#8
  | .write _ _   => 0x05#8

/-- The first operand field `A` of a command (30_encoding R83). -/
def Instr.operandA : Instr → Word
  | .setrres bits _ => bits
  | .setref mode _  => mode
  | .read pin _     => pin
  | .setwres bits _ => bits
  | .write pin _    => pin

/-- The second operand field `B` of a command (30_encoding R83). -/
def Instr.operandB : Instr → Word
  | .setrres _ b   => b
  | .setref _ b    => b
  | .read _ b      => b
  | .setwres _ b   => b
  | .write _ value => value

/-- The encoder: the command word of a command (30_encoding R81, R83). -/
def encode (i : Instr) : CommandWord := packCommand i.opcode i.operandA i.operandB

/-- The decoder on a word numbered as spec/opcode_table.json numbers it: the command word is one 72-bit number, bit 71
the most significant (30_encoding R80, 20_memory R65), and a row has all 72 bits. -/
def decodeTableWord (nbits w : Nat) : Option Instr :=
  if nbits ≤ 72 then
    match decode (BitVec.ofNat 72 (w % 2 ^ nbits)) with
    | .ok i    => some i
    | .error _ => none
  else none

/-! ### Assembler (30_encoding R90) -/

/-- The code a name of a reference mode stands for (30_encoding R90, 40_sampler R104). -/
def RefName.code : RefName → Word
  | .internalBandgap => 0#32
  | .supplyHalf      => 1#32
  | .external0       => 2#32
  | .external1       => 3#32
  | .supplyThird     => 4#32

/-- The operand field of a written reference operand. -/
def RefOperand.field : RefOperand → Word
  | .number n => BitVec.ofNat 32 n
  | .named r  => r.code

/-- The command a source call assembles to; an ignored field is 0 (30_encoding R90, its example). A call whose operand
does not fit is not assembled. -/
def assemble (c : SourceCall) : Option Instr :=
  if c.wellFormed then
    match c with
    | .setReadResolution b  => some (.setrres (BitVec.ofNat 32 b) 0#32)
    | .setReference m       => some (.setref m.field 0#32)
    | .read p               => some (.read (BitVec.ofNat 32 p) 0#32)
    | .setWriteResolution b => some (.setwres (BitVec.ofNat 32 b) 0#32)
    | .write p v            => some (.write (BitVec.ofNat 32 p) (BitVec.ofNat 32 v))
  else none

/-- The value of a digit in a base of at most 16. -/
def digitValue (base : Nat) (c : Char) : Option Nat :=
  let n := c.toNat
  let v := if 48 ≤ n ∧ n ≤ 57 then some (n - 48)
    else if 97 ≤ n ∧ n ≤ 102 then some (n - 87)
    else if 65 ≤ n ∧ n ≤ 70 then some (n - 55)
    else none
  match v with
  | some d => if d < base then some d else none
  | none   => none

/-- The number a run of digits stands for, onto what was read before. -/
def parseDigits (base : Nat) (acc : Nat) : List Char → Option Nat
  | []      => some acc
  | c :: cs =>
    match digitValue base c with
    | some d => parseDigits base (acc * base + d) cs
    | none   => none

/-- An operand in decimal or `0x` hexadecimal (30_encoding R90); at least one digit. -/
def parseNumber : List Char → Option Nat
  | []                    => none
  | ['0', 'x']            => none
  | '0' :: 'x' :: c :: cs => parseDigits 16 0 (c :: cs)
  | c :: cs               => parseDigits 10 0 (c :: cs)

/-- The text up to a separator, and what follows the separator where it occurs. -/
def splitAtChar (sep : Char) : List Char → List Char × Option (List Char)
  | []      => ([], none)
  | c :: cs =>
    if c = sep then ([], some cs)
    else ((c :: (splitAtChar sep cs).1), (splitAtChar sep cs).2)

/-- The text without its blanks. -/
def withoutBlanks (cs : List Char) : List Char := cs.filter (fun c => c != ' ')

/-- The operand of `setReference`: a name of the source or a number (30_encoding R90). -/
def parseReference (cs : List Char) : Option RefOperand :=
  if cs = "internal-bandgap".toList then some (.named .internalBandgap)
  else if cs = "supply-half".toList then some (.named .supplyHalf)
  else if cs = "external-0".toList then some (.named .external0)
  else if cs = "external-1".toList then some (.named .external1)
  else if cs = "supply-third".toList then some (.named .supplyThird)
  else (parseNumber cs).map .number

/-- The operand list of the two-operand call. -/
def parsePair (cs : List Char) : Option (Nat × Nat) :=
  match splitAtChar ',' cs with
  | (_, none)   => none
  | (a, some b) =>
    match parseNumber a, parseNumber b with
    | some p, some v => some (p, v)
    | _, _           => none

/-- One line of source text: `name(operands)`, blanks ignored (30_encoding R90). -/
def parseCall (line : List Char) : Option SourceCall :=
  match splitAtChar '(' (withoutBlanks line) with
  | (_, none)         => none
  | (name, some rest) =>
    match splitAtChar ')' rest with
    | (args, some []) =>
      if name = "setReadResolution".toList then (parseNumber args).map .setReadResolution
      else if name = "setReference".toList then (parseReference args).map .setReference
      else if name = "read".toList then (parseNumber args).map .read
      else if name = "setWriteResolution".toList then (parseNumber args).map .setWriteResolution
      else if name = "write".toList then (parsePair args).map (fun q => .write q.1 q.2)
      else none
    | _ => none

/-- The command a line of source text assembles to. -/
def assembleLine (line : List Char) : Option Instr := (parseCall line).bind assemble

end Sys2Proof
end

