-- ==== Sys2Proof/Machine/State.lean ====
section
/-! DEFINITION. The state of PMX and of its environment as plain data: the five groups of 10_state R20, the port
registers, and the model's own fields (the schedule, the step number, the trace, the marks). State.reset. -/

namespace Sys2Proof.Machine

/-! ### Positions of the sequencers -/

/-- The micro-steps of `READ` (40_sampler R106). -/
inductive ReadStep where
  | rd0 | rd1 | rd2 | rd3 | rd4 | rd5 | rd6 | rd7 | rd8
  deriving DecidableEq, Repr

/-- The micro-steps of `WRITE` (41_pwm_alloc R131 to R136) with those of `TSTART` and `TSTOP`
(42_timer_arbiter R161, R162). -/
inductive WriteStep where
  | w0 | w1 | w9
  | f0 | f1 | f2 | f3 | f4 | f5 | f6
  | s0 | s1
  | a0 | a1 | a2 | a3 | a4 | a5 | a6 | a7
  | ts0 | ts1 | ts2 | ts3 | ts4 | ts5 | ts6 | ts7
  | tp0 | tp1 | tp2 | tp3
  deriving DecidableEq, Repr

/-- `FG_STEP`, the label of the next micro-step (10_state R36, R37), by command. `rr0`, `rf0`, `sw0` are the one step of
`SETRRES`, `SETREF`, `SETWRES`; `reserved` is the one micro-step in which a reserved command completes (30_encoding R84;
the spec gives that step no label). -/
inductive FgStep where
  | idle
  | rr0
  | rf0
  | read (l : ReadStep)
  | sw0
  | write (l : WriteStep)
  | reserved
  deriving DecidableEq, Repr

/-! ### Groups 1 to 3: the slot table, the timer resource table, the configuration -/

/-- One PWM channel slot (10_state R21, R22). `undef` is the model's own: set while the pin behaviour of the slot is
undefined (70_reset_and_hazards R235, log entry 5). -/
structure Slot where
  pin   : Word
  duty  : Word
  undef : Bool
  deriving DecidableEq, Repr

/-- One row of the timer resource table: `COUNT[t]`, 4 bits (10_state R26), and `RUN[t]` (R27). -/
structure Arbiter where
  count : BitVec 4
  run   : Bool
  deriving DecidableEq, Repr

/-- `READ_RES`, `WRITE_RES`, `BITWIDTH`, `HALF_SCALE`, `ADC_REF` (10_state R30 to R33, R35). -/
structure ResConfig where
  readRes   : Word
  writeRes  : Word
  bitWidth  : CounterWidth
  halfScale : Word
  adcRef    : BitVec 3
  deriving DecidableEq, Repr

/-! ### Group 4: the sequencers and the response port -/

/-- The foreground sequencer's registers (10_state R36). -/
structure Sequencer where
  fgOp    : BitVec 8
  fgA     : Word
  fgB     : Word
  step    : FgStep
  scan    : Nat
  sel     : Option Nat
  newBind : Bool
  dtmp    : Word
  raw     : Word
  native  : Word
  deriving DecidableEq, Repr

/-- The dispatcher's registers `IRQ_ACTIVE` and `IRQ_K` (10_state R39). -/
structure Dispatcher where
  active : Option TimerId
  k      : Nat
  deriving DecidableEq, Repr

/-- The response port: `RESP` and the strobes `DONE`, `RESP_VALID` (10_state R38, 30_encoding R88). -/
structure Response where
  resp      : Word
  done      : Bool
  respValid : Bool
  deriving DecidableEq, Repr

/-! ### Group 5: the consumed devices -/

/-- One comparator of a timer: `CC[t][k]`, `INTEN[t][k]`, `EV[t][k]` (10_state R42). -/
structure Comparator where
  cc    : Word
  inten : Bool
  ev    : Bool
  deriving DecidableEq, Repr

/-- The register set of one timer (10_state R42); comparator 0 is the cycle-start comparator, comparator `k` that of the
timer's `k`-th slot. -/
structure TimerRegs where
  mode    : Word
  presc   : Word
  bitMode : CounterWidth
  run     : Bool
  cnt     : BitVec 16
  comps   : List Comparator
  deriving DecidableEq, Repr

/-- One interrupt line of the NVIC (10_state R41). -/
structure NvicLine where
  en   : Bool
  prio : Word
  deriving DecidableEq, Repr

/-- The GPIO (10_state R40) in canonical form: the logical pins whose `LEVEL` is `HIGH`, and those whose `DIR` is
`OUTPUT`, each strictly rising. A pin in neither list is `LOW` and `OTHER`. -/
structure Gpio where
  high    : List Nat
  outputs : List Nat
  deriving DecidableEq, Repr

/-- What the single configuration word of the ADC codes: a triple of input selector, resolution code and reference bits
(10_state R43). -/
structure AdcConfig where
  input   : Word
  resCode : Word
  refBits : Word
  deriving DecidableEq, Repr

/-- The ADC register set (10_state R43); `A_CFG` holds the packed word (00_scope R14). -/
structure Adc where
  en     : Bool
  cfg    : Word
  busy   : Bool
  ended  : Bool
  result : Word
  deriving DecidableEq, Repr

/-! ### The model's own: the trace, the schedule, the marks -/

/-- An access PMX makes to a consumed device (00_scope R18), as the trace records it (60_exceptions R200). -/
inductive Call where
  | gpioModeOutput (p : Word)
  | gpioWrite (p : Word) (l : Level)
  | nvicEnable (line : Word)
  | nvicDisable (line : Word)
  | nvicClearPending (line : Word)
  | nvicSetPriority (line prio : Word)
  | timerMode (t : TimerId) (v : Word)
  | timerPrescaler (t : TimerId) (v : Word)
  | timerBitMode (t : TimerId) (b : CounterWidth)
  | timerCc (t : TimerId) (k : Nat) (v : Word)
  | timerIntenSet (t : TimerId) (k : Nat)
  | timerStart (t : TimerId)
  | timerStop (t : TimerId)
  | timerClear (t : TimerId)
  | timerEventClear (t : TimerId) (k : Nat)
  | adcEnable (v : Bool)
  | adcConfig (w : Word)
  | adcStart
  | adcPollEnd
  | adcReadResult
  deriving DecidableEq, Repr

/-- Whose step comes next (20_memory R71): one atomic step of one agent. A turn whose step is not enabled changes
nothing. -/
inductive Turn where
  /-- The foreground sequencer: accepts the command on the port, or takes its next micro-step. -/
  | foreground
  /-- The dispatcher of timer `t`: enters its handler, or takes the handler's next step. -/
  | dispatcher (t : TimerId)
  /-- Timer `t` ticks (60_exceptions R198). -/
  | tick (t : TimerId)
  /-- The conversion in flight completes, drawing `raw` (60_exceptions R201). -/
  | adcComplete (raw : Word)
  /-- Only in the OPEN timer model of D21: the running timer `t` raises event `k`. -/
  | timerEvent (t : TimerId) (k : Nat)
  /-- Only for a slot whose pin behaviour is undefined (70_reset_and_hazards R235): its pin takes the level. -/
  | undefinedPin (slot : Nat) (l : Level)
  deriving DecidableEq, Repr

/-- Marks that stay set for the rest of a run (70_reset_and_hazards R242): a `SETWRES` that changes `WRITE_RES` was
accepted while a slot was bound (U1); a reserved command was accepted (U4). Nothing reads them. -/
structure Marks where
  resolutionChanged : Bool
  reservedCommand   : Bool
  deriving DecidableEq, Repr

/-- The whole machine. -/
structure State where
  /-- The parameters (00_scope section 3); no step changes them. -/
  params : Params
  /-- The slot table, `N_SLOTS` rows (10_state group 1). -/
  slots  : List Slot
  /-- The timer resource table (group 2). -/
  arb    : PerTimer Arbiter
  /-- The resolution and reference configuration (group 3). -/
  cfg    : ResConfig
  /-- The foreground sequencer (group 4). -/
  seq    : Sequencer
  /-- The interrupt dispatcher (group 4). -/
  irq    : Dispatcher
  /-- The response port (group 4). -/
  resp   : Response
  /-- The two timers (group 5). -/
  timers : PerTimer TimerRegs
  /-- The interrupt controller (group 5). -/
  nvic   : PerTimer NvicLine
  /-- The pins (group 5). -/
  gpio   : Gpio
  /-- The ADC (group 5). -/
  adc    : Adc
  /-- The host: the command words it has still to issue, the next one first. The first is on `CMD` with `CMD_VALID = 1`;
  with none left, `CMD_VALID = 0` (30_encoding R87). -/
  host   : List CommandWord
  /-- The model's own: the turns that come next, in order (the open schedule of 20_memory R71). -/
  sched  : List Turn
  /-- The model's own: how many steps have been taken; the argument of the free values. -/
  steps  : Nat
  /-- The model's own: every device access made so far, the latest first (60_exceptions R200). -/
  trace  : List Call
  /-- The model's own: the marks of a run. -/
  marks  : Marks
  deriving DecidableEq, Repr

/-- Why the machine stops with a fault. PMX raises no exception, trap or fault (60_exceptions R180), so there is no
reason: the type has no constructor. -/
inductive Fault where
  deriving DecidableEq, Repr

/-- Why a meaning gives no next state. -/
inductive Refusal where
  /-- An instruction without a meaning. Raised by no arm: every command has its meaning. Safe. -/
  | notModelled (mnemonic : String)
  /-- `FG_STEP` names a micro-step of another command than the one that runs, or an allocation step with no slot
  selected. Raised by the meanings and by the reserved step; no state that a command sequence reaches is such a state
  (Safety.lean, `SequencerInv`). Safe. -/
  | sequencerState
  deriving DecidableEq, Repr

/-- A free slot as reset leaves it (10_state R46, R47). -/
def Slot.free : Slot := ⟨pinFree, 0#32, false⟩

/-- A comparator under the launch premise (10_state R48); `CC` is DESIGN CHOICE (log entry 3). -/
def Comparator.launch : Comparator := ⟨0#32, false, false⟩

/-- A timer under the launch premise (10_state R48): stopped, counter 0, no event and no interrupt enable. `T_MODE`,
`T_PRESC`, `T_BITMODE` and `CC` are unspecified there: DESIGN CHOICE (log entry 3). -/
def TimerRegs.launch (p : Params) : TimerRegs where
  mode    := 0#32
  presc   := 0#32
  bitMode := .w8
  run     := false
  cnt     := 0#16
  comps   := List.replicate (p.nCu + 1) Comparator.launch

/-- The resolution and reference configuration at reset (10_state R46). -/
def ResConfig.reset : ResConfig where
  readRes   := 10#32
  writeRes  := 8#32
  bitWidth  := .w8
  halfScale := 128#32
  adcRef    := 4#3

/-- The sequencer at reset (10_state R47); the latched fields and the temporaries are unspecified there: DESIGN CHOICE
(log entry 4). -/
def Sequencer.reset : Sequencer where
  fgOp    := 0#8
  fgA     := 0#32
  fgB     := 0#32
  step    := .idle
  scan    := 0
  sel     := none
  newBind := false
  dtmp    := 0#32
  raw     := 0#32
  native  := 0#32

/-- The machine right after reset on a platform `p`: the register values of 10_state R46 and R47 and the launch premise
of R48. The spec gives the strobes `DONE` and `RESP_VALID` no reset value: DESIGN CHOICE, not asserted (log entry 30). -/
def State.resetOn (p : Params) : State where
  params := p
  slots  := List.replicate p.nSlots Slot.free
  arb    := ⟨⟨0#4, false⟩, ⟨0#4, false⟩⟩
  cfg    := ResConfig.reset
  seq    := Sequencer.reset
  irq    := ⟨none, 0⟩
  resp   := ⟨0#32, false, false⟩
  timers := ⟨TimerRegs.launch p, TimerRegs.launch p⟩
  nvic   := ⟨⟨false, 0#32⟩, ⟨false, 0#32⟩⟩
  gpio   := ⟨[], []⟩
  adc    := ⟨false, 0#32, false, false, 0#32⟩
  host   := []
  sched  := []
  steps  := 0
  trace  := []
  marks  := ⟨false, false⟩

/-- The machine right after reset, on the test platform of the spec (log entry 2). -/
def State.reset : State := State.resetOn Config.testPlatform

end Sys2Proof.Machine
end

