-- ==== Sys2Proof/Machine/Operands.lean ====
section
/-! DEFINITION. The values the rules compute from operands, parameters and indices: shifts and rescaling, the native ADC
resolution, the pin lookup, the per-slot constants, the write-resolution rule. All pure. -/

namespace Sys2Proof.Machine

/-! ### Shifts and rescaling -/

/-- `a << n` on `W`-bit values: truncates, and is 0 for `n >= W` (00_scope R17). -/
def shiftLeft (a n : Word) : Word := if n.toNat < 32 then a <<< n.toNat else 0#32

/-- `a >> n` on `W`-bit values: 0 for `n >= W` (00_scope R17). -/
def shiftRight (a n : Word) : Word := if n.toNat < 32 then a >>> n.toNat else 0#32

/-- `mapResolution(value, from, to)` (40_sampler R100): neither its input nor its output is masked. -/
def mapResolution (value fromRes toRes : Word) : Word :=
  if fromRes = toRes then value
  else if fromRes.toNat < toRes.toNat then shiftLeft value (toRes - fromRes)
  else shiftRight value (fromRes - toRes)

/-! ### Native ADC resolution -/

/-- The greater of the best resolution found so far and a candidate at or below the request. -/
def betterResolution (request : Word) (best : Option Word) (e : ResEntry) : Option Word :=
  if e.bits.toNat ≤ request.toNat then
    match best with
    | none   => some e.bits
    | some b => if b.toNat < e.bits.toNat then some e.bits else some b
  else best

/-- `NATIVE(bits)` (40_sampler R102): the largest supported resolution at or below the request, else 10. -/
def nativeResolution (p : Params) (bits : Word) : Word :=
  match p.adcRes.foldl (betterResolution bits) none with
  | some r => r
  | none   => 10#32

/-- `RESCODE(r)` (00_scope R14). -/
def resCode (p : Params) (r : Word) : Word :=
  match p.adcRes.find? (fun e => e.bits == r) with
  | some e => e.code
  | none   => 0#32

/-- The resolution a code stands for; `RESCODE` is injective (00_scope R14). -/
def resOfCode (p : Params) (c : Word) : Option Word := (p.adcRes.find? (fun e => e.code == c)).map (·.bits)

/-- `REFBITS(mode)` (00_scope R14). -/
def refBitsOf (p : Params) (mode : BitVec 3) : Word := (p.refBits[mode.toNat]?).getD 0#32

/-- `ADC_CFG_PACK(input, res, ref)`, the platform's packing of the single configuration word (00_scope R14). -/
def adcCfgPack (p : Params) (input res ref : Word) : Word :=
  match p.packRow input res ref with
  | some e => e.word
  | none   => 0#32

/-- The triple a configuration word codes (10_state R43); `ADC_CFG_PACK` is injective (00_scope R14). -/
def unpackConfig (p : Params) (w : Word) : Option AdcConfig :=
  (p.adcPack.find? (fun e => e.word == w)).map (fun e => ⟨e.input, e.resCode, e.refBits⟩)

/-- The resolution coded in a configuration word (60_exceptions R201). -/
def configuredResolution (p : Params) (w : Word) : Option Word :=
  (unpackConfig p w).bind (fun c => resOfCode p c.resCode)

/-! ### Pin lookup -/

/-- `PinMap(p)`: the pad, or `none` for `INVALID` (00_scope R10, 60_exceptions R202). -/
def pinMap (p : Params) (pin : Word) : Option Word :=
  match p.pins[pin.toNat]? with
  | some e => e.pad
  | none   => none

/-- `AnalogSel(p)`: the analog input, or `none` for `NONE`; always `NONE` for an invalid pin (00_scope R10). -/
def analogSel (p : Params) (pin : Word) : Option Word :=
  match p.pins[pin.toNat]? with
  | some e => if e.pad.isSome then e.analog else none
  | none   => none

/-! ### Per-slot constants (10_state R23) -/

/-- The number of a timer. -/
def timerNumber : TimerId → Nat
  | .t0 => 0
  | .t1 => 1

/-- `TMR(s) = s div N_CU`, the timer that owns slot `s`. -/
def slotTimer (p : Params) (s : Nat) : TimerId := if s / p.nCu = 0 then .t0 else .t1

/-- `CU(s) = s mod N_CU`. -/
def slotUnit (p : Params) (s : Nat) : Nat := s % p.nCu

/-- `EVT(s) = CU(s) + 1`, the comparator and event index of slot `s`. -/
def slotEvent (p : Params) (s : Nat) : Nat := slotUnit p s + 1

/-- `HALF(s)`; no rule reads it (10_state R23). -/
def slotHalf (p : Params) (s : Nat) : Nat := if s < p.nSlots / 2 then 0 else 1

/-- The slot that event `k >= 1` of timer `t` belongs to: `t*N_CU + (k-1)` (20_memory R61). -/
def eventSlot (p : Params) (t : TimerId) (k : Nat) : Nat := timerNumber t * p.nCu + (k - 1)

/-- `SLOTS(t)`, ascending (10_state R23). -/
def slotsOf (p : Params) (t : TimerId) : List Nat := List.range' (timerNumber t * p.nCu) p.nCu

/-- `IRQ_LINE[t]` (10_state R28). -/
def irqLineOf (p : Params) : TimerId → Word
  | .t0 => p.irqLine.t0
  | .t1 => p.irqLine.t1

/-! ### Widths and thresholds -/

/-- A counter width in bits. -/
def widthBits : CounterWidth → Nat
  | .w8  => 8
  | .w16 => 16

/-- `BITWIDTH` as the `W`-bit operand of `mapResolution`. -/
def widthWord : CounterWidth → Word
  | .w8  => 8#32
  | .w16 => 16#32

/-- How many values a counter of the width has, `2^T_BITMODE[t]` (60_exceptions R198). -/
def widthModulus (w : CounterWidth) : Nat := 2 ^ widthBits w

/-- full-scale-minus-one, `2 * HALF_SCALE - 1` (10_state R34). -/
def fullScaleMinusOne (c : ResConfig) : Word := 2#32 * c.halfScale - 1#32

/-- The values `SETWRES` stores for an operand (41_pwm_alloc R130, SW0): `WRITE_RES`, `BITWIDTH`, `HALF_SCALE`. -/
def writeResolution (bits : Word) : Word × CounterWidth × Word :=
  if 2 ≤ bits.toNat ∧ bits.toNat ≤ 8 then (bits, .w8, 128#32)
  else if 9 ≤ bits.toNat ∧ bits.toNat ≤ 16 then (bits, .w16, 32768#32)
  else (8#32, .w8, 128#32)

/-- The value `SETREF` stores for an operand (40_sampler R104, RF0). -/
def referenceMode (mode : Word) : BitVec 3 := if mode.toNat ≤ 4 then mode.extractLsb' 0 3 else 4#3

/-- A draw of `raw ∈ [0, 2^n)` from any word (60_exceptions R201). -/
def drawBelow (n raw : Word) : Word := BitVec.ofNat 32 (raw.toNat % 2 ^ n.toNat)

end Sys2Proof.Machine
end

