-- ==== Sys2Proof/Machine/Ops.lean ====
section
/-! DEFINITION. The named operations over the state: the two-element tables, the slot table, the device interfaces with
the trace (60_exceptions R198 to R201), the flow of the foreground sequencer, entering and leaving an interrupt handler
(60_exceptions R187, R193), reset. -/

namespace Sys2Proof.Machine

/-! ### The two-element tables -/

/-- `X[t]`. -/
def lookup {α : Type} (x : PerTimer α) : TimerId → α
  | .t0 => x.t0
  | .t1 => x.t1

/-- `X[t] <- v`. -/
def update {α : Type} (x : PerTimer α) (t : TimerId) (v : α) : PerTimer α :=
  match t with
  | .t0 => { x with t0 := v }
  | .t1 => { x with t1 := v }

/-! ### The slot table (20_memory R61) -/

/-- Row `i` of the slot table; an index outside the table is never formed (20_memory R61) and reads as a free slot. -/
def slotAt (s : State) (i : Nat) : Slot := (s.slots[i]?).getD Slot.free

/-- Replaces row `i` of the slot table. -/
def setSlot (i : Nat) (f : Slot → Slot) (s : State) : State := { s with slots := s.slots.modify i f }

/-- `PIN[i] <- pin` for a pin number (41_pwm_alloc R135, A3). -/
def bindSlot (i : Nat) (pin : Word) (s : State) : State := setSlot i (fun x => { x with pin := pin }) s

/-- `DUTY[i] <- v` (41_pwm_alloc R135, A2). -/
def setDuty (i : Nat) (v : Word) (s : State) : State := setSlot i (fun x => { x with duty := v }) s

/-- The atomic unbind `PIN[i] <- PIN_FREE` (41_pwm_alloc R132, F2; 20_memory R74). The duty stays. With the slot free, its
pin behaviour is no longer undefined (70_reset_and_hazards R235). -/
def freeSlot (i : Nat) (s : State) : State := setSlot i (fun x => { x with pin := pinFree, undef := false }) s

/-- A bound slot (00_scope section 5). -/
def Slot.bound (x : Slot) : Bool := x.pin != pinFree

/-- The number of bound slots of timer `t`: what `COUNT[t]` counts (10_state R26). -/
def boundCount (s : State) (t : TimerId) : Nat := (slotsOf s.params t).countP (fun i => (slotAt s i).bound)

/-! ### The timer resource table -/

/-- `COUNT[t] <- COUNT[t] + 1` (41_pwm_alloc R136). -/
def countUp (t : TimerId) (s : State) : State :=
  { s with arb := update s.arb t { lookup s.arb t with count := (lookup s.arb t).count + 1#4 } }

/-- `COUNT[t] <- COUNT[t] - 1` (41_pwm_alloc R132, F3). -/
def countDown (t : TimerId) (s : State) : State :=
  { s with arb := update s.arb t { lookup s.arb t with count := (lookup s.arb t).count - 1#4 } }

/-- `RUN[t] <- v` (42_timer_arbiter R161, R162). -/
def setRun (t : TimerId) (v : Bool) (s : State) : State :=
  { s with arb := update s.arb t { lookup s.arb t with run := v } }

/-! ### The trace -/

/-- Records an access to a consumed device (60_exceptions R200). -/
def record (c : Call) (s : State) : State := { s with trace := c :: s.trace }

/-! ### Sorted sets of pins -/

/-- Adds a number to a strictly rising list. -/
def insertNat (n : Nat) : List Nat → List Nat
  | []      => [n]
  | m :: ms => if n < m then n :: m :: ms else if n = m then m :: ms else m :: insertNat n ms

/-- Takes a number out of a list. -/
def eraseNat (n : Nat) (ms : List Nat) : List Nat := ms.filter (fun m => m != n)

/-! ### GPIO (60_exceptions R199) -/

/-- `LEVEL[p]`, what any read-back of the pin yields. -/
def levelOf (s : State) (p : Word) : Level := if s.gpio.high.contains p.toNat then .high else .low

/-- `DIR[p] = OUTPUT`. -/
def isOutput (s : State) (p : Word) : Bool := s.gpio.outputs.contains p.toNat

/-- `LEVEL[p] <- l`. -/
def setLevel (g : Gpio) (p : Word) : Level → Gpio
  | .high => { g with high := insertNat p.toNat g.high }
  | .low  => { g with high := eraseNat p.toNat g.high }

/-- `GPIO.mode_output(p)`: the level is unchanged. -/
def gpioModeOutput (p : Word) (s : State) : State :=
  record (.gpioModeOutput p) { s with gpio := { s.gpio with outputs := insertNat p.toNat s.gpio.outputs } }

/-- `GPIO.write(p, lvl)`: takes effect whatever the direction. -/
def gpioWrite (p : Word) (l : Level) (s : State) : State :=
  record (.gpioWrite p l) { s with gpio := setLevel s.gpio p l }

/-- An edge on a pin (60_exceptions R199): a write that changes the level. -/
inductive Edge where
  | rising
  | falling
  deriving DecidableEq, Repr

/-- The edge that `GPIO.write(p, lvl)` makes, if any (60_exceptions R199). -/
def edgeOf (before written : Level) : Option Edge :=
  match before, written with
  | .low, .high  => some .rising
  | .high, .low  => some .falling
  | .low, .low   => none
  | .high, .high => none

/-! ### Interrupt controller (60_exceptions R200) -/

/-- `NVIC.enable(IRQ_LINE[t])`. -/
def nvicEnable (t : TimerId) (s : State) : State :=
  record (.nvicEnable (irqLineOf s.params t))
    { s with nvic := update s.nvic t { lookup s.nvic t with en := true } }

/-- `NVIC.disable(IRQ_LINE[t])`. -/
def nvicDisable (t : TimerId) (s : State) : State :=
  record (.nvicDisable (irqLineOf s.params t))
    { s with nvic := update s.nvic t { lookup s.nvic t with en := false } }

/-- `NVIC.set_priority(IRQ_LINE[t], q)`. -/
def nvicSetPriority (t : TimerId) (q : Word) (s : State) : State :=
  record (.nvicSetPriority (irqLineOf s.params t) q)
    { s with nvic := update s.nvic t { lookup s.nvic t with prio := q } }

/-- `NVIC.clear_pending(IRQ_LINE[t])`: no modelled effect, the line is level-sensitive; the call is recorded. -/
def nvicClearPending (t : TimerId) (s : State) : State := record (.nvicClearPending (irqLineOf s.params t)) s

/-! ### Timers (60_exceptions R198) -/

/-- Replaces the register set of timer `t`. -/
def setTimer (t : TimerId) (f : TimerRegs → TimerRegs) (s : State) : State :=
  { s with timers := update s.timers t (f (lookup s.timers t)) }

/-- Comparator `k` of a register set; `k` is always in `0 .. N_CU` (20_memory R63). -/
def compAt (r : TimerRegs) (k : Nat) : Comparator := (r.comps[k]?).getD Comparator.launch

/-- Replaces comparator `k` of a register set. -/
def setComp (k : Nat) (f : Comparator → Comparator) (r : TimerRegs) : TimerRegs :=
  { r with comps := r.comps.modify k f }

/-- `TIMER[t].MODE <- v`. -/
def timerMode (t : TimerId) (v : Word) (s : State) : State :=
  record (.timerMode t v) (setTimer t (fun r => { r with mode := v }) s)

/-- `TIMER[t].PRESCALER <- v`. -/
def timerPrescaler (t : TimerId) (v : Word) (s : State) : State :=
  record (.timerPrescaler t v) (setTimer t (fun r => { r with presc := v }) s)

/-- `TIMER[t].BITMODE <- b`. -/
def timerBitMode (t : TimerId) (b : CounterWidth) (s : State) : State :=
  record (.timerBitMode t b) (setTimer t (fun r => { r with bitMode := b }) s)

/-- `TIMER[t].CC[k] <- v`. -/
def timerCc (t : TimerId) (k : Nat) (v : Word) (s : State) : State :=
  record (.timerCc t k v) (setTimer t (setComp k (fun c => { c with cc := v })) s)

/-- `TIMER[t].INTENSET(k)`. -/
def timerIntenSet (t : TimerId) (k : Nat) (s : State) : State :=
  record (.timerIntenSet t k) (setTimer t (setComp k (fun c => { c with inten := true })) s)

/-- `TIMER[t].TASKS_START <- 1`. -/
def timerStart (t : TimerId) (s : State) : State :=
  record (.timerStart t) (setTimer t (fun r => { r with run := true }) s)

/-- `TIMER[t].TASKS_STOP <- 1`. -/
def timerStop (t : TimerId) (s : State) : State :=
  record (.timerStop t) (setTimer t (fun r => { r with run := false }) s)

/-- `TIMER[t].TASKS_CLEAR <- 1`. -/
def timerClear (t : TimerId) (s : State) : State :=
  record (.timerClear t) (setTimer t (fun r => { r with cnt := 0#16 }) s)

/-- `EV[t][k] <- 0`. -/
def timerEventClear (t : TimerId) (k : Nat) (s : State) : State :=
  record (.timerEventClear t k) (setTimer t (setComp k (fun c => { c with ev := false })) s)

/-! ### ADC (60_exceptions R201) -/

/-- `ADC.ENABLE <- v`. -/
def adcEnable (v : Bool) (s : State) : State := record (.adcEnable v) { s with adc := { s.adc with en := v } }

/-- `ADC.CONFIG <- w`: one store. -/
def adcConfigure (w : Word) (s : State) : State :=
  record (.adcConfig w) { s with adc := { s.adc with cfg := w } }

/-- `ADC.TASKS_START <- 1`: begins a transaction and withdraws an earlier completion event. -/
def adcStart (s : State) : State :=
  record .adcStart { s with adc := { s.adc with busy := true, ended := false } }

/-! ### The foreground sequencer (10_state R37) -/

/-- `goto label`. -/
def goto (l : FgStep) (s : State) : State := { s with seq := { s.seq with step := l } }

/-- The end of a command: `DONE`, and `FG_STEP <- IDLE` (10_state R37, 30_encoding R88). -/
def finish (s : State) : State :=
  { s with seq := { s.seq with step := .idle }, resp := { s.resp with done := true } }

/-- The end of a `READ`: `DONE` and `RESP_VALID` together (30_encoding R88). -/
def finishRead (s : State) : State :=
  { s with seq := { s.seq with step := .idle }, resp := { s.resp with done := true, respValid := true } }

/-- Accepting a command: latches the fields and sets `FG_STEP` to the first label (30_encoding R81, R87). -/
def accept (w : CommandWord) (first : FgStep) (s : State) : State :=
  { s with seq := { s.seq with fgOp := opField w, fgA := aField w, fgB := bField w, step := first } }

/-! ### Taking an interrupt and returning from it -/

/-- Entry of the handler of timer `t`, step HE: `IRQ_ACTIVE <- t ; IRQ_K <- 0` (60_exceptions R187). It saves nothing and
changes nothing else: the foreground sequencer keeps its registers and is frozen. -/
def enterHandler (t : TimerId) (s : State) : State := { s with irq := ⟨some t, 0⟩ }

/-- Return from the handler, step HR: `IRQ_ACTIVE <- NONE` (60_exceptions R193). Nothing is restored. -/
def leaveHandler (s : State) : State := { s with irq := { s.irq with active := none } }

/-! ### Reset -/

/-- The reset of PMX, the source's startup (70_reset_and_hazards R230): every register of PMX takes its reset value and
no interface is driven, so the consumed devices, and whatever the host and the schedule hold, stay as they are. No step
takes it: it comes from outside, and `State.reset` is its result under the launch premise. That the strobes are not
asserted after it is DESIGN CHOICE (log entry 30). -/
def pmxReset (s : State) : State :=
  { s with
    slots := List.replicate s.params.nSlots Slot.free
    arb   := ⟨⟨0#4, false⟩, ⟨0#4, false⟩⟩
    cfg   := ResConfig.reset
    seq   := Sequencer.reset
    irq   := ⟨none, 0⟩
    resp  := ⟨0#32, false, false⟩ }

end Sys2Proof.Machine
end

