-- ==== Sys2Proof/Machine/Flags.lean ====
section
/-! DEFINITION. The flag-like state (10_state R44): event flags, the interrupt line, pending, the ADC completion flag, the
port handshake and its strobes. PMX has no condition codes. -/

namespace Sys2Proof.Machine

/-- `EV[t][k]`. -/
def eventFlag (s : State) (t : TimerId) (k : Nat) : Bool := (compAt (lookup s.timers t) k).ev

/-- `INTEN[t][k]`. -/
def eventEnabled (s : State) (t : TimerId) (k : Nat) : Bool := (compAt (lookup s.timers t) k).inten

/-- `LINE(t)`: some comparator `k` in `0 .. N_CU` has its event flag and its interrupt enable set (60_exceptions R185). -/
def lineAsserted (s : State) (t : TimerId) : Bool :=
  (List.range (s.params.nCu + 1)).any (fun k => eventFlag s t k && eventEnabled s t k)

/-- The interrupt of timer `t` is pending (60_exceptions R185). -/
def pending (s : State) (t : TimerId) : Bool := lineAsserted s t && (lookup s.nvic t).en

/-- The entry step of `IRQ(t)` is enabled (60_exceptions R186). -/
def entryEnabled (s : State) (t : TimerId) : Bool := s.irq.active == none && pending s t

/-- `EV[t][k] <- 1` on comparator `k` of a register set; only a timer raises an event (60_exceptions R184). -/
def raiseEvent (k : Nat) (r : TimerRegs) : TimerRegs := setComp k (fun c => { c with ev := true }) r

/-- A comparator matches a counter value: `CNT = CC mod 2^T_BITMODE` (60_exceptions R198). -/
def compareMatches (w : CounterWidth) (cnt : BitVec 16) (c : Comparator) : Bool :=
  cnt.toNat == c.cc.toNat % widthModulus w

/-- `CMD_READY` (30_encoding R87). -/
def cmdReady (s : State) : Bool := s.seq.step == .idle && s.irq.active == none

/-- `CMD_VALID`: the host has a command to issue (30_encoding R87). -/
def cmdValid (s : State) : Bool := !s.host.isEmpty

/-- The strobes last for the one step that asserts them (10_state R38). -/
def clearStrobes (s : State) : State := { s with resp := { s.resp with done := false, respValid := false } }

/-- Some slot is bound. -/
def anySlotBound (s : State) : Bool := s.slots.any Slot.bound

/-- The condition of U1: this `SETWRES` operand changes `WRITE_RES` while a slot is bound (70_reset_and_hazards R235). -/
def changesResolutionWhileBound (bits : Word) (s : State) : Bool :=
  (writeResolution bits).1 != s.cfg.writeRes && anySlotBound s

/-- The pin behaviour of every slot bound now is undefined from here on, until the slot is freed
(70_reset_and_hazards R235). -/
def markBoundUndefined (s : State) : State :=
  { s with slots := s.slots.map (fun x => if x.bound then { x with undef := true } else x) }

/-- Sets the run's mark of U1 (70_reset_and_hazards R242). -/
def markResolutionChanged (s : State) : State := { s with marks := { s.marks with resolutionChanged := true } }

/-- Sets the run's mark of U4 (70_reset_and_hazards R242). -/
def markReservedCommand (s : State) : State := { s with marks := { s.marks with reservedCommand := true } }

/-- The latched command word `FG_OP ‖ FG_A ‖ FG_B` (10_state R36). -/
def latchedWord (s : State) : CommandWord := packCommand s.seq.fgOp s.seq.fgA s.seq.fgB

/-- Hidden state is outstanding: a pending interrupt, a command in flight, or a conversion in flight (10_state R45). -/
def outstanding (s : State) : Bool :=
  pending s .t0 || pending s .t1 || s.seq.step != .idle || s.adc.busy

/-- A run is quiescent (70_reset_and_hazards R240). -/
def quiescent (s : State) : Bool :=
  s.seq.step == .idle && s.irq.active == none && s.host.isEmpty && !s.adc.busy

/-- A run is finished: quiescent (70_reset_and_hazards R240), and with nothing outstanding (10_state R45: a run with a
pending interrupt is not finished). -/
def finished (s : State) : Bool := quiescent s && !outstanding s

end Sys2Proof.Machine
end

