-- ==== Sys2Proof/Machine/InterruptDispatcher.lean ====
section
/-! DEFINITION. The interrupt dispatcher (60_exceptions sections 2 to 4): one state machine `IRQ(t)`, parameterized by the
timer. -/

namespace Sys2Proof.Machine

/-- What the handler does to the pin of slot `i`: nothing for a free slot; for a bound slot what the rule says, given as
the level to drive, if any; and for a slot whose pin behaviour is undefined, a free level (70_reset_and_hazards R235,
log entry 5). -/
def driveSlot (i : Nat) (rule : Slot → Option Level) (s : State) : State :=
  let x := slotAt s i
  if x.bound then
    if x.undef then gpioWrite x.pin (Config.freeLevel s.steps i) s
    else
      match rule x with
      | some l => gpioWrite x.pin l s
      | none   => s
  else s

/-- The cycle-start rule (60_exceptions R188): a bound slot whose duty is not 0 drives its pin HIGH. -/
def cycleStartRule (x : Slot) : Option Level := if x.duty = 0#32 then none else some .high

/-- The compare rule (60_exceptions R189): a bound slot whose duty differs from full-scale-minus-one drives its pin LOW. -/
def compareRule (full : Word) (x : Slot) : Option Level := if x.duty = full then none else some .low

/-- The pin writes of the cycle-start event, in ascending slot order (60_exceptions R188). -/
def driveCycleStart (t : TimerId) (s : State) : State :=
  (slotsOf s.params t).foldl (fun s i => driveSlot i cycleStartRule s) s

/-- Services event `k` of timer `t` where its flag is set: the pins, then the clear, unconditional
(60_exceptions R188 to R190). -/
def serviceEvent (t : TimerId) (k : Nat) (s : State) : State :=
  if eventFlag s t k then
    if k = 0 then timerEventClear t 0 (driveCycleStart t s)
    else timerEventClear t k (driveSlot (eventSlot s.params t k) (compareRule (fullScaleMinusOne s.cfg)) s)
  else s

/-- `IRQ_K <- k`. -/
def setIrqK (k : Nat) (s : State) : State := { s with irq := { s.irq with k := k } }

/-- The next step of the handler of timer `t`: H0, Hk, or past `N_CU` the return HR (60_exceptions R188, R189, R193). -/
def handlerStep (t : TimerId) (s : State) : State :=
  if s.irq.k ≤ s.params.nCu then setIrqK (s.irq.k + 1) (serviceEvent t s.irq.k s) else leaveHandler s

/-- A turn of the dispatcher of timer `t`: entry where it is enabled (60_exceptions R186, R187), the handler's next step
where that handler executes; otherwise nothing, since handlers do not nest (R194). -/
def dispatcherTurn (t : TimerId) (s : State) : State :=
  match s.irq.active with
  | none    => if entryEnabled s t then enterHandler t s else s
  | some t' => if t' = t then handlerStep t s else s

end Sys2Proof.Machine
end

