-- ==== Sys2Proof/Machine/Devices.lean ====
section
/-! DEFINITION. What the consumed devices do by themselves (60_exceptions R198, R201): a timer's tick, the completion of a
conversion; and the environment's moves that only an OPEN alternative or an undefined behaviour allows. None is an access
of PMX, so none is recorded in the trace. -/

namespace Sys2Proof.Machine

/-- The counter after a tick: `(CNT + 1) mod 2^T_BITMODE` (60_exceptions R198). -/
def nextCount (r : TimerRegs) : BitVec 16 := BitVec.ofNat 16 ((r.cnt.toNat + 1) % widthModulus r.bitMode)

/-- The event flags after the counter arrived at `cnt` (60_exceptions R198). -/
def raiseMatches (w : CounterWidth) (cnt : BitVec 16) (c : Comparator) : Comparator :=
  if compareMatches w cnt c then { c with ev := true } else c

/-- The register set after a tick (60_exceptions R198). -/
def tickRegs (r : TimerRegs) : TimerRegs :=
  { r with cnt := nextCount r, comps := r.comps.map (raiseMatches r.bitMode (nextCount r)) }

/-- `tick(t)`, enabled while the timer runs (60_exceptions R198). -/
def tickTurn (t : TimerId) (s : State) : State :=
  if (lookup s.timers t).run then setTimer t tickRegs s else s

/-- The value a conversion delivers: below `2^n` for the resolution `n` coded in the configuration word
(60_exceptions R201). A word that codes no resolution is never configured by PMX; then nothing bounds the value. -/
def conversionResult (s : State) (raw : Word) : Word :=
  match configuredResolution s.params s.adc.cfg with
  | some n => drawBelow n raw
  | none   => raw

/-- `complete`, enabled while a conversion is in flight (60_exceptions R201). -/
def adcCompleteTurn (raw : Word) (s : State) : State :=
  if s.adc.busy then
    { s with adc := { s.adc with result := conversionResult s raw, ended := true, busy := false } }
  else s

/-- The OPEN timer model of 92_eei_decisions D21: a running timer raises any of its events at any time. -/
def timerEventTurn (t : TimerId) (k : Nat) (s : State) : State :=
  match s.params.eventModel with
  | .reference => s
  | .anyTime   => if (lookup s.timers t).run then setTimer t (raiseEvent k) s else s

/-- While the pin behaviour of a bound slot is undefined, its pin may take any level at any time
(70_reset_and_hazards R235, log entry 5). -/
def undefinedPinTurn (i : Nat) (l : Level) (s : State) : State :=
  let x := slotAt s i
  if x.bound && x.undef then { s with gpio := setLevel s.gpio x.pin l } else s

end Sys2Proof.Machine
end

