-- ==== Sys2Proof/Machine/TimerArbiter.lean ====
section
/-! DEFINITION. The timer arbiter FSM (42_timer_arbiter): the micro-steps of the sub-sequences TSTART and TSTOP. -/

namespace Sys2Proof.Machine

/-- TS5: `TIMER[t].TASKS_START <- 1 ; RUN[t] <- 1` (42_timer_arbiter R161). -/
def startTimer (t : TimerId) (s : State) : State := setRun t true (timerStart t s)

/-- TP2: `TIMER[t].TASKS_STOP <- 1 ; RUN[t] <- 0` (42_timer_arbiter R162). -/
def stopTimer (t : TimerId) (s : State) : State := setRun t false (timerStop t s)

/-- The micro-steps of `TSTART(t)` and `TSTOP(t)` (42_timer_arbiter R161, R162), each with the label that follows: TS7
returns to A5 and TP3 to F5. The other labels of `WRITE` are no step of the arbiter. -/
def arbiterStep (t : TimerId) (l : WriteStep) (s : State) : Host.Outcome State Fault Refusal :=
  match l with
  | .ts0 => .next (goto (.write .ts1) (timerMode t s.params.timerMode s))
  | .ts1 => .next (goto (.write .ts2) (timerPrescaler t s.params.pwmPrescaler s))
  | .ts2 => .next (goto (.write .ts3) (timerBitMode t s.cfg.bitWidth s))
  | .ts3 => .next (goto (.write .ts4) (timerCc t 0 0#32 s))
  | .ts4 => .next (goto (.write .ts5) (timerIntenSet t 0 s))
  | .ts5 => .next (goto (.write .ts6) (startTimer t s))
  | .ts6 => .next (goto (.write .ts7) (nvicSetPriority t s.params.pwmIrqPriority s))
  | .ts7 => .next (goto (.write .a5) (nvicEnable t s))
  | .tp0 => .next (goto (.write .tp1) (nvicDisable t s))
  | .tp1 => .next (goto (.write .tp2) (nvicClearPending t s))
  | .tp2 => .next (goto (.write .tp3) (stopTimer t s))
  | .tp3 => .next (goto (.write .f5) (timerClear t s))
  | _    => .refused .sequencerState

end Sys2Proof.Machine
end

