-- ==== Sys2Proof/Machine/PwmAlloc.lean ====
section
/-! DEFINITION. The PWM channel allocator (41_pwm_alloc): SETWRES and WRITE. A meaning is one step of the foreground
sequencer on that command: at `IDLE` it accepts the command, at a label it takes that micro-step. -/

namespace Sys2Proof.Machine

/-! ### SETWRES -/

/-- The register update of SW0 (41_pwm_alloc R130). -/
def storeWriteResolution (bits : Word) (s : State) : State :=
  { s with cfg := { s.cfg with
      writeRes  := (writeResolution bits).1
      bitWidth  := (writeResolution bits).2.1
      halfScale := (writeResolution bits).2.2 } }

/-- SW0 (41_pwm_alloc R130): the update, always; where it changes `WRITE_RES`, the pin behaviour of the slots bound now is
undefined from here on (70_reset_and_hazards R235); `DONE`. -/
def stepSW0 (s : State) : State :=
  if (writeResolution s.seq.fgA).1 = s.cfg.writeRes then finish (storeWriteResolution s.seq.fgA s)
  else finish (markBoundUndefined (storeWriteResolution s.seq.fgA s))

/-- Accepting a `SETWRES`: where U1 applies, the run is marked (93_implementation_defined U1). -/
def acceptSetwres (w : CommandWord) (s : State) : State :=
  if changesResolutionWhileBound (aField w) s then markResolutionChanged (accept w .sw0 s) else accept w .sw0 s

/-- `SETWRES` (41_pwm_alloc R130). -/
def execSetwres (bits ignored : Word) (s : State) : Host.Outcome State Fault Refusal :=
  match s.seq.step with
  | .idle => .next (acceptSetwres (encode (.setwres bits ignored)) s)
  | .sw0  => .next (stepSW0 s)
  | _     => .refused .sequencerState

/-! ### WRITE: entry (41_pwm_alloc R131) -/

/-- W0: an invalid pin is a silent no-op. -/
def stepW0 (s : State) : State :=
  if (pinMap s.params s.seq.fgA).isNone then goto (.write .w9) s else goto (.write .w1) s

/-- W1: a value of 0 frees, any other allocates. -/
def stepW1 (s : State) : State :=
  if s.seq.fgB = 0#32 then goto (.write .f0) s else goto (.write .s0) s

/-! ### WRITE: free path (41_pwm_alloc R132) -/

/-- `SCAN <- n`. -/
def setScan (n : Nat) (s : State) : State := { s with seq := { s.seq with scan := n } }

/-- The timer of the scanned slot, `TMR(SCAN)`. -/
def scanTimer (s : State) : TimerId := slotTimer s.params s.seq.scan

/-- F1: ends the scan, passes over a slot not bound to the pin, or goes on to free it. -/
def stepF1 (s : State) : State :=
  if s.seq.scan = s.params.nSlots then goto (.write .f6) s
  else if (slotAt s s.seq.scan).pin = s.seq.fgA then goto (.write .f2) s
  else goto (.write .f1) (setScan (s.seq.scan + 1) s)

/-- F4: tears the timer down when its last channel is freed. -/
def stepF4 (s : State) : State :=
  if (lookup s.arb (scanTimer s)).count = 0#4 then goto (.write .tp0) s else goto (.write .f5) s

/-! ### WRITE: slot search and fallback (41_pwm_alloc R133, R134) -/

/-- The least slot bound to the pin, if any (R133). -/
def boundTo (s : State) (pin : Word) : Option Nat := s.slots.findIdx? (fun x => x.pin == pin)

/-- The least free slot, if any (R133). -/
def firstFree (s : State) : Option Nat := s.slots.findIdx? (fun x => x.pin == pinFree)

/-- The slot S0 selects (R133): one bound to the pin wins over a free one; of several, the least. -/
def selectSlot (s : State) (pin : Word) : Option Nat :=
  match boundTo s pin with
  | some i => some i
  | none   => firstFree s

/-- S0: `SEL`, `NEWBIND`, and where to go on. -/
def stepS0 (s : State) : State :=
  match selectSlot s s.seq.fgA with
  | none   => goto (.write .s1) { s with seq := { s.seq with sel := none, newBind := false } }
  | some i => goto (.write .a0)
      { s with seq := { s.seq with sel := some i, newBind := (slotAt s i).pin == pinFree } }

/-- The value the fallback compares with half-scale (R134, 00_scope R15). -/
def fallbackValue (s : State) : Word :=
  match s.params.fallbackCmp with
  | .raw      => s.seq.fgB
  | .rescaled => mapResolution s.seq.fgB s.cfg.writeRes (widthWord s.cfg.bitWidth)

/-- The level the fallback drives (R134). -/
def fallbackLevel (s : State) : Level :=
  if s.cfg.halfScale.toNat ≤ (fallbackValue s).toNat then .high else .low

/-- S1: plain digital output. -/
def stepS1 (s : State) : State := goto (.write .w9) (gpioWrite s.seq.fgA (fallbackLevel s) s)

/-! ### WRITE: allocation (41_pwm_alloc R135, R136) -/

/-- The label after A1: A2, or A3 first when the pin is stored before the duty (R135, `BIND_ORDER`). -/
def afterA1 (s : State) : WriteStep :=
  match s.params.bindOrder with
  | .dutyFirst => .a2
  | .bindFirst => .a3

/-- The label after A2. -/
def afterA2 (s : State) : WriteStep :=
  match s.params.bindOrder with
  | .dutyFirst => .a3
  | .bindFirst => .a4

/-- The label after A3. -/
def afterA3 (s : State) : WriteStep :=
  match s.params.bindOrder with
  | .dutyFirst => .a4
  | .bindFirst => .a2

/-- A1: the operand in counter units. -/
def stepA1 (s : State) : State :=
  goto (.write (afterA1 s))
    { s with seq := { s.seq with dtmp := mapResolution s.seq.fgB s.cfg.writeRes (widthWord s.cfg.bitWidth) } }

/-- A4: starts the timer on its first active channel. -/
def stepA4 (t : TimerId) (s : State) : State :=
  if (lookup s.arb t).count = 0#4 then goto (.write .ts0) s else goto (.write .a5) s

/-- A7: counts the channel where the slot passed from free to bound (R136). -/
def stepA7 (t : TimerId) (s : State) : State :=
  if s.seq.newBind then goto (.write .w9) (countUp t s) else goto (.write .w9) s

/-- The micro-steps of the allocation path on the selected slot `i`; the steps of TSTART are the arbiter's. -/
def allocStep (i : Nat) (l : WriteStep) (s : State) : Host.Outcome State Fault Refusal :=
  match l with
  | .a0 => .next (goto (.write .a1) (gpioModeOutput s.seq.fgA s))
  | .a1 => .next (stepA1 s)
  | .a2 => .next (goto (.write (afterA2 s)) (setDuty i s.seq.dtmp s))
  | .a3 => .next (goto (.write (afterA3 s)) (bindSlot i s.seq.fgA s))
  | .a4 => .next (stepA4 (slotTimer s.params i) s)
  | .a5 => .next (goto (.write .a6) (timerCc (slotTimer s.params i) (slotEvent s.params i) s.seq.dtmp s))
  | .a6 => .next (goto (.write .a7) (timerIntenSet (slotTimer s.params i) (slotEvent s.params i) s))
  | .a7 => .next (stepA7 (slotTimer s.params i) s)
  | l   => arbiterStep (slotTimer s.params i) l s

/-- A micro-step that needs the selected slot; without one it has no meaning (never reached, Safety.lean). -/
def onSelected (l : WriteStep) (s : State) : Host.Outcome State Fault Refusal :=
  match s.seq.sel with
  | some i => allocStep i l s
  | none   => .refused .sequencerState

/-- The micro-steps of `WRITE` (41_pwm_alloc R131 to R136). -/
def writeStep (l : WriteStep) (s : State) : Host.Outcome State Fault Refusal :=
  match l with
  | .w0  => .next (stepW0 s)
  | .w1  => .next (stepW1 s)
  | .w9  => .next (finish s)
  | .f0  => .next (goto (.write .f1) (setScan 0 s))
  | .f1  => .next (stepF1 s)
  | .f2  => .next (goto (.write .f3) (freeSlot s.seq.scan s))
  | .f3  => .next (goto (.write .f4) (countDown (scanTimer s) s))
  | .f4  => .next (stepF4 s)
  | .f5  => .next (goto (.write .f1) (setScan (s.seq.scan + 1) s))
  | .f6  => .next (goto (.write .w9) (gpioWrite s.seq.fgA .low s))
  | .s0  => .next (stepS0 s)
  | .s1  => .next (stepS1 s)
  | .tp0 => arbiterStep (scanTimer s) .tp0 s
  | .tp1 => arbiterStep (scanTimer s) .tp1 s
  | .tp2 => arbiterStep (scanTimer s) .tp2 s
  | .tp3 => arbiterStep (scanTimer s) .tp3 s
  | l    => onSelected l s

/-- `WRITE` (41_pwm_alloc R131). -/
def execWrite (pin value : Word) (s : State) : Host.Outcome State Fault Refusal :=
  match s.seq.step with
  | .idle    => .next (accept (encode (.write pin value)) (.write .w0) s)
  | .write l => writeStep l s
  | _        => .refused .sequencerState

end Sys2Proof.Machine
end

