-- ==== Sys2Proof/Machine/Sampler.lean ====
section
/-! DEFINITION. The ADC sampler control sequencer (40_sampler): SETRRES, SETREF, READ. A meaning is one step of the
foreground sequencer on that command: at `IDLE` it accepts the command, at a label it takes that micro-step. -/

namespace Sys2Proof.Machine

/-- RR0 (40_sampler R103): `READ_RES <- FG_A`, unchanged; `DONE`. -/
def stepRR0 (s : State) : State := finish { s with cfg := { s.cfg with readRes := s.seq.fgA } }

/-- `SETRRES` (40_sampler R103). -/
def execSetrres (bits ignored : Word) (s : State) : Host.Outcome State Fault Refusal :=
  match s.seq.step with
  | .idle => .next (accept (encode (.setrres bits ignored)) .rr0 s)
  | .rr0  => .next (stepRR0 s)
  | _     => .refused .sequencerState

/-- RF0 (40_sampler R104): the mode, or the default for a code above 4; `DONE`. -/
def stepRF0 (s : State) : State := finish { s with cfg := { s.cfg with adcRef := referenceMode s.seq.fgA } }

/-- `SETREF` (40_sampler R104). -/
def execSetref (mode ignored : Word) (s : State) : Host.Outcome State Fault Refusal :=
  match s.seq.step with
  | .idle => .next (accept (encode (.setref mode ignored)) .rf0 s)
  | .rf0  => .next (stepRF0 s)
  | _     => .refused .sequencerState

/-- RD0 (40_sampler R106): a pin without an analog input returns 0 and touches no ADC; otherwise the native resolution
is fixed. -/
def stepRD0 (s : State) : State :=
  match analogSel s.params s.seq.fgA with
  | none   => goto (.read .rd8) { s with resp := { s.resp with resp := 0#32 } }
  | some _ => goto (.read .rd1)
      { s with seq := { s.seq with native := nativeResolution s.params s.cfg.readRes } }

/-- The configuration word RD2 writes (40_sampler R106). -/
def readConfigWord (s : State) : Word :=
  adcCfgPack s.params ((analogSel s.params s.seq.fgA).getD 0#32) (resCode s.params s.seq.native)
    (refBitsOf s.params s.cfg.adcRef)

/-- RD4 (40_sampler R106): one poll of the completion event per micro-step. -/
def stepRD4 (s : State) : State :=
  if s.adc.ended then goto (.read .rd5) (record .adcPollEnd s) else record .adcPollEnd s

/-- The micro-steps of `READ` (40_sampler R106). -/
def readStep : ReadStep → State → State
  | .rd0, s => stepRD0 s
  | .rd1, s => goto (.read .rd2) (adcEnable true s)
  | .rd2, s => goto (.read .rd3) (adcConfigure (readConfigWord s) s)
  | .rd3, s => goto (.read .rd4) (adcStart s)
  | .rd4, s => stepRD4 s
  | .rd5, s => goto (.read .rd6) (record .adcReadResult { s with seq := { s.seq with raw := s.adc.result } })
  | .rd6, s => goto (.read .rd7) (adcEnable false s)
  | .rd7, s => goto (.read .rd8)
      { s with resp := { s.resp with resp := mapResolution s.seq.raw s.seq.native s.cfg.readRes } }
  | .rd8, s => finishRead s

/-- The sampler sequencer seen as an FSM (40_sampler R107). -/
inductive SamplerState where
  | idle
  | enabled
  | configured
  | converting
  | complete
  | disabled
  deriving DecidableEq, Repr

/-- The FSM state the position of the sequencer stands for (40_sampler R107). At RD8 the ADC has been disabled again, or
was never enabled on the path of a pin without an analog input. -/
def samplerState (s : State) : SamplerState :=
  match s.seq.step with
  | .read .rd2 => .enabled
  | .read .rd3 => .configured
  | .read .rd4 => .converting
  | .read .rd5 => .complete
  | .read .rd6 => .complete
  | .read .rd7 => .disabled
  | .read .rd8 => if (analogSel s.params s.seq.fgA).isSome then .disabled else .idle
  | _          => .idle

/-- `READ` (40_sampler R105, R106). -/
def execRead (pin ignored : Word) (s : State) : Host.Outcome State Fault Refusal :=
  match s.seq.step with
  | .idle   => .next (accept (encode (.read pin ignored)) (.read .rd0) s)
  | .read l => .next (readStep l s)
  | _       => .refused .sequencerState

end Sys2Proof.Machine
end

