-- ==== Sys2Proof/Machine/Dispatch.lean ====
section
/-! DEFINITION. The meaning of every command: one arm per constructor of Instr. -/

namespace Sys2Proof.Machine

/-- One step of the foreground sequencer on command `i`. -/
def exec (i : Instr) (s : State) : Host.Outcome State Fault Refusal :=
  match i with
  | .setrres bits ignored => Sys2Proof.Machine.execSetrres bits ignored s
  | .setref mode ignored => Sys2Proof.Machine.execSetref mode ignored s
  | .read pin ignored => Sys2Proof.Machine.execRead pin ignored s
  | .setwres bits ignored => Sys2Proof.Machine.execSetwres bits ignored s
  | .write pin value => Sys2Proof.Machine.execWrite pin value s

end Sys2Proof.Machine
end

