-- ==== Sys2Proof/Machine/Foreground.lean ====
section
/-! DEFINITION. A turn of the foreground sequencer (10_state R37, 30_encoding R87): fetching the command from the port, or
going on with the latched one. -/

namespace Sys2Proof.Machine

/-- Accepting a reserved command (30_encoding R84): its fields are latched as any command's; the run is marked
(93_implementation_defined U4). -/
def acceptReserved (w : CommandWord) (s : State) : State := markReservedCommand (accept w .reserved s)

/-- The one micro-step of a reserved command (30_encoding R84): it changes nothing, drives nothing and completes. -/
def stepReserved (s : State) : Host.Outcome State Fault Refusal :=
  match s.seq.step with
  | .reserved => .next (finish s)
  | _         => .refused .sequencerState

/-- The command on the port is accepted (30_encoding R87); with none there, nothing happens. -/
def acceptTurn (s : State) : Host.Outcome State Fault Refusal :=
  match s.host with
  | []        => .next s
  | w :: rest =>
    match decode w with
    | .ok i    => exec i { s with host := rest }
    | .error _ => .next (acceptReserved w { s with host := rest })

/-- The next micro-step of the latched command (10_state R37). -/
def microTurn (s : State) : Host.Outcome State Fault Refusal :=
  match decode (latchedWord s) with
  | .ok i    => exec i s
  | .error _ => stepReserved s

/-- A turn of the foreground sequencer: none while a handler executes (10_state R37); at `IDLE` the port, else the next
micro-step. -/
def foregroundTurn (s : State) : Host.Outcome State Fault Refusal :=
  match s.irq.active with
  | some _ => .next s
  | none   => if s.seq.step = .idle then acceptTurn s else microTurn s

end Sys2Proof.Machine
end

