-- ==== Sys2Proof/Machine/Schedule.lean ====
section
/-! DEFINITION. The open schedule (20_memory R71) as data: the turns a state lists come next, in their order, whatever they
are; with none listed, a default order, the one 95_test_vectors uses where a vector names no schedule. -/

namespace Sys2Proof.Machine

/-- The default turn while a `READ` waits for its conversion: a free choice among the agents that can move, so that the
conversion may complete at any step or never (60_exceptions R201), and timers and handlers go on meanwhile (40_sampler
R107). DESIGN CHOICE (log entry 6). -/
def defaultWaitTurn (s : State) : Turn :=
  match Config.freeWait s.steps with
  | 0 => .adcComplete (Config.freeRaw s.steps)
  | 1 => .tick .t0
  | 2 => .tick .t1
  | 3 => .dispatcher .t0
  | 4 => .dispatcher .t1
  | _ => .foreground

/-- The default turn while the foreground sequencer executes a command: it goes on, or waits for the conversion in flight.
DESIGN CHOICE (log entry 6). -/
def defaultBusyTurn (s : State) : Turn :=
  if s.seq.step = .read .rd4 ∧ s.adc.ended = false ∧ s.adc.busy = true then defaultWaitTurn s else .foreground

/-- The default turn with nothing else to do: a running timer ticks, the two in turn where both run. DESIGN CHOICE
(log entry 6). -/
def defaultTickTurn (s : State) : Turn :=
  match s.timers.t0.run, s.timers.t1.run with
  | true, true   => if s.steps % 2 = 0 then .tick .t0 else .tick .t1
  | true, false  => .tick .t0
  | false, true  => .tick .t1
  | false, false => .foreground

/-- The default order (95_test_vectors sections 0 and P1): a handler that executes goes on; a command goes on; the next
command is accepted; a pending interrupt is entered; a running timer ticks. DESIGN CHOICE (log entry 6). -/
def defaultTurn (s : State) : Turn :=
  match s.irq.active with
  | some t => .dispatcher t
  | none   =>
    if s.seq.step ≠ .idle then defaultBusyTurn s
    else if cmdValid s then .foreground
    else if pending s .t0 then .dispatcher .t0
    else if pending s .t1 then .dispatcher .t1
    else defaultTickTurn s

/-- Whose step comes next. -/
def nextTurn (s : State) : Turn :=
  match s.sched with
  | turn :: _ => turn
  | []        => defaultTurn s

/-- What every step does beside the turn: the turn is taken off the schedule, the step is counted, and the strobes of the
step before end (10_state R38). -/
def beginStep (s : State) : State :=
  clearStrobes { s with sched := s.sched.tail, steps := s.steps + 1 }

/-- One atomic step of the agent whose turn it is (20_memory R71). -/
def takeTurn (turn : Turn) (s : State) : Host.Outcome State Fault Refusal :=
  match turn with
  | .foreground         => foregroundTurn s
  | .dispatcher t       => .next (dispatcherTurn t s)
  | .tick t             => .next (tickTurn t s)
  | .adcComplete raw    => .next (adcCompleteTurn raw s)
  | .timerEvent t k     => .next (timerEventTurn t k s)
  | .undefinedPin i l   => .next (undefinedPinTurn i l s)

/-- The machine with a command word on the port and the next turn the foreground sequencer's, ready to accept: what it
takes for the very next step to fetch the word. -/
def presentCommand (w : CommandWord) (s : State) : State :=
  { s with
    seq   := { s.seq with step := .idle }
    irq   := { s.irq with active := none }
    host  := w :: s.host
    sched := .foreground :: s.sched }

end Sys2Proof.Machine
end

