-- ==== Sys2Proof/Machine/Step.lean ====
section
/-! DEFINITION. One step of the whole machine. -/

namespace Sys2Proof.Machine

/-- One step: the agent whose turn it is takes one atomic step (20_memory R71). -/
def step (s : State) : Host.Outcome State Fault Refusal := takeTurn (nextTurn s) (beginStep s)

/-- The state with the command word `w` on the command port, first in line, and the foreground sequencer ready and next to
move, so that the very next step fetches it. The command word is one 72-bit number as spec/opcode_table.json numbers it
(log entry 7). -/
def State.withFetchWord (s : State) (nbits w : Nat) : State :=
  presentCommand (BitVec.ofNat 72 (w % 2 ^ nbits)) s

end Sys2Proof.Machine
end

