-- ==== Sys2Proof/Safety.lean ====
section
/-! DEFINITION. What counts as a safe run: the invariants of the machine at every step, in the terms of the spec; each is
a Bool or a decidable proposition. -/

namespace Sys2Proof.Machine

/-! ### Configuration and shape -/

/-- The write configuration is one of those SW0 stores (10_state R31 to R33), and `ADC_REF` is a mode (R35). -/
abbrev ConfigLegal (s : State) : Prop :=
  writeResolution s.cfg.writeRes = (s.cfg.writeRes, s.cfg.bitWidth, s.cfg.halfScale) ∧ s.cfg.adcRef.toNat ≤ 4

/-- The pins that are `HIGH` and those that are `OUTPUT` are listed strictly rising: equal pin states are equal data. -/
abbrev GpioCanonical (s : State) : Prop :=
  s.gpio.high.Pairwise (· < ·) ∧ s.gpio.outputs.Pairwise (· < ·)

/-- The tables have the sizes the parameters give, a timer has its `N_CU + 1` comparators, and the dispatcher's position is in range (10_state R21, R39, R42). -/
abbrev ShapeLegal (s : State) : Prop :=
  s.params.Wf ∧ s.slots.length = s.params.nSlots ∧
  (s.timers.t0.comps.length = s.params.nCu + 1 ∧ s.timers.t1.comps.length = s.params.nCu + 1) ∧
  s.irq.k ≤ s.params.nCu + 1

/-! ### The foreground sequencer -/

/-- `FG_STEP` is a label of the latched command (10_state R37). -/
def stepMatchesOp (s : State) : Bool :=
  match s.seq.step with
  | .idle     => true
  | .rr0      => s.seq.fgOp == 0x01#8
  | .rf0      => s.seq.fgOp == 0x02#8
  | .read _   => s.seq.fgOp == 0x03#8
  | .sw0      => s.seq.fgOp == 0x04#8
  | .write _  => s.seq.fgOp == 0x05#8
  | .reserved => s.seq.fgOp == 0x00#8 || decide (6 ≤ s.seq.fgOp.toNat)

/-- The labels of the allocation path, those of TSTART among them. -/
def onAllocPath : WriteStep → Bool
  | .a0 | .a1 | .a2 | .a3 | .a4 | .a5 | .a6 | .a7 => true
  | .ts0 | .ts1 | .ts2 | .ts3 | .ts4 | .ts5 | .ts6 | .ts7 => true
  | .w0 | .w1 | .w9 | .f0 | .f1 | .f2 | .f3 | .f4 | .f5 | .f6 | .s0 | .s1 | .tp0 | .tp1 | .tp2 | .tp3 => false

/-- The labels of the free path at which `SCAN` is the slot being freed, those of TSTOP among them. -/
def onFreedSlot : WriteStep → Bool
  | .f2 | .f3 | .f4 | .f5 | .tp0 | .tp1 | .tp2 | .tp3 => true
  | .w0 | .w1 | .w9 | .f0 | .f1 | .f6 | .s0 | .s1 => false
  | .a0 | .a1 | .a2 | .a3 | .a4 | .a5 | .a6 | .a7 => false
  | .ts0 | .ts1 | .ts2 | .ts3 | .ts4 | .ts5 | .ts6 | .ts7 => false

/-- The allocation path has a slot selected, the free path a slot of the table under its scan (20_memory R61: an index
outside the table is never formed). -/
def indicesInRange (s : State) : Bool :=
  match s.seq.step with
  | .write l =>
    (!onAllocPath l || (match s.seq.sel with | some i => decide (i < s.params.nSlots) | none => false)) &&
    (!onFreedSlot l || decide (s.seq.scan < s.params.nSlots)) &&
    (!(l == .f1) || decide (s.seq.scan ≤ s.params.nSlots))
  | _ => true

/-- What keeps the foreground sequencer in step: no refusal is reached from such a state. -/
abbrev SequencerInv (s : State) : Prop := stepMatchesOp s = true ∧ indicesInRange s = true

/-! ### The slot table and the arbiter -/

/-- At most one slot binds a given logical pin (10_state R24). -/
abbrev UniqueBinding (s : State) : Prop :=
  s.slots.Pairwise (fun x y => x.bound = true → y.bound = true → x.pin ≠ y.pin)

/-- Every bound slot is bound to a valid pin (60_exceptions R199). -/
abbrev BoundPinsValid (s : State) : Prop :=
  ∀ x ∈ s.slots, x.bound = true → (pinMap s.params x.pin).isSome = true

/-- The slot the allocation path works on is on timer `t`. -/
def selectedOn (s : State) (t : TimerId) : Bool :=
  match s.seq.sel with
  | some i => slotTimer s.params i == t
  | none   => false

/-- The allocation path has stored the pin but not yet counted the channel (10_state R26: within a command `COUNT` can lag
the slot table by one). -/
def boundNotCounted (s : State) (l : WriteStep) : Bool :=
  match l with
  | .a2 => s.seq.newBind && s.params.bindOrder == .bindFirst
  | .a4 | .a5 | .a6 | .a7 | .ts0 | .ts1 | .ts2 | .ts3 | .ts4 | .ts5 | .ts6 | .ts7 => s.seq.newBind
  | _ => false

/-- `COUNT[t]` is the number of bound slots of timer `t`, but for the one channel a `WRITE` is binding or freeing
(10_state R26). -/
def countAgrees (s : State) (t : TimerId) : Bool :=
  let c := (lookup s.arb t).count.toNat
  match s.seq.step with
  | .write .f3 => if scanTimer s = t then c == boundCount s t + 1 else c == boundCount s t
  | .write l   => if boundNotCounted s l && selectedOn s t then c + 1 == boundCount s t else c == boundCount s t
  | _          => c == boundCount s t

/-- The value of `RUN[t]` at every micro-step: `COUNT[t] > 0`, but for the steps between TS5 and A7 and between F3 and TP2
(10_state R29). -/
def expectedRun (s : State) (t : TimerId) : Bool :=
  let counted := (lookup s.arb t).count != 0#4
  match s.seq.step with
  | .write .f4 | .write .tp0 | .write .tp1 | .write .tp2 => if scanTimer s = t then true else counted
  | .write .ts6 | .write .ts7 | .write .a5 | .write .a6 | .write .a7 => if selectedOn s t then true else counted
  | _ => counted

/-- The value of `NVIC_EN[t]` at every micro-step: that of `RUN[t]` (42_timer_arbiter R164), but for the steps between TS5
and TS7 and between TP0 and TP2. -/
def expectedEnable (s : State) (t : TimerId) : Bool :=
  match s.seq.step with
  | .write .ts6 | .write .ts7 => if selectedOn s t then false else (lookup s.arb t).run
  | .write .tp1 | .write .tp2 => if scanTimer s = t then false else (lookup s.arb t).run
  | _ => (lookup s.arb t).run

/-- The cycle-start comparator is armed: `CC[t][0] = 0` and `INTEN[t][0] = 1` (42_timer_arbiter R161). -/
def cycleStartArmed (s : State) (t : TimerId) : Bool :=
  (compAt (lookup s.timers t) 0).cc == 0#32 && (compAt (lookup s.timers t) 0).inten

/-- What TSTART has armed so far on the timer it starts. -/
def startProgress (s : State) : Bool :=
  match s.seq.step, s.seq.sel with
  | .write .ts4, some i => (compAt (lookup s.timers (slotTimer s.params i)) 0).cc == 0#32
  | .write .ts5, some i => cycleStartArmed s (slotTimer s.params i)
  | _, _ => true

/-- The arbiter of timer `t` (10_state R26, R29, 42_timer_arbiter R164), at every micro-step. -/
abbrev ArbiterInv (s : State) (t : TimerId) : Prop :=
  countAgrees s t = true ∧ (lookup s.arb t).run = expectedRun s t ∧
  (lookup s.timers t).run = (lookup s.arb t).run ∧ (lookup s.nvic t).en = expectedEnable s t ∧
  ((lookup s.arb t).run = true → cycleStartArmed s t = true)

/-- Timer `t` is stopped and about to be cleared: the step between TP2 and TP3 (42_timer_arbiter R162). -/
def aboutToClear (s : State) (t : TimerId) : Bool :=
  match s.seq.step with
  | .write .tp3 => scanTimer s == t
  | _ => false

/-- The counter of timer `t` is within its width (10_state R42), and a stopped timer is cleared (10_state R29). -/
abbrev CounterInv (s : State) (t : TimerId) : Prop :=
  (lookup s.timers t).cnt.toNat < widthModulus (lookup s.timers t).bitMode ∧
  ((lookup s.timers t).run = false → aboutToClear s t = false → (lookup s.timers t).cnt = 0#16)

/-- The compare unit of slot `i` holds the slot's duty and its interrupt is enabled (41_pwm_alloc R137 (b)). -/
def compareProgrammed (s : State) (i : Nat) : Bool :=
  let c := compAt (lookup s.timers (slotTimer s.params i)) (slotEvent s.params i)
  c.cc == (slotAt s i).duty && c.inten

/-- The allocation path is working on slot `i` and has not yet programmed its compare unit. -/
def beingProgrammed (s : State) (i : Nat) : Bool :=
  match s.seq.step with
  | .write l => onAllocPath l && !(l == .a7) && s.seq.sel == some i
  | _ => false

/-- Every bound slot's compare unit is programmed, but for the one an allocation is working on. -/
abbrev CompareInv (s : State) : Prop :=
  ∀ i ∈ List.range s.params.nSlots, (slotAt s i).bound = true → beingProgrammed s i = false →
    compareProgrammed s i = true

/-- The pin of a `WRITE` past W0 is valid (41_pwm_alloc R131). -/
def writePinValid (s : State) : Bool :=
  match s.seq.step with
  | .write .w0 => true
  | .write .w9 => true
  | .write _   => (pinMap s.params s.seq.fgA).isSome
  | _          => true

/-- The steps of the allocation path before the pin is stored (41_pwm_alloc R135). -/
def beforeBind (s : State) : WriteStep → Bool
  | .a0 | .a1 | .a3 => true
  | .a2 => s.params.bindOrder == .dutyFirst
  | _   => false

/-- What the allocation path knows of the slot it selected (41_pwm_alloc R133, R135): before the pin is stored, the slot is
either bound to the pin already or free with no slot bound to the pin; afterwards it is bound to the pin. -/
def selectionSound (s : State) : Bool :=
  match s.seq.step, s.seq.sel with
  | .write l, some i =>
    if beforeBind s l then
      if s.seq.newBind then
        (slotAt s i).pin == pinFree && s.slots.all (fun x => x.pin != s.seq.fgA)
      else (slotAt s i).pin == s.seq.fgA
    else if onAllocPath l then (slotAt s i).pin == s.seq.fgA
    else true
  | _, _ => true

/-- What the allocation path has stored so far: the duty is the rescaled operand from A2 on, the compare value from A5
on, the compare interrupt enable from A6 on (41_pwm_alloc R135). -/
def allocProgress (s : State) : Bool :=
  match s.seq.step, s.seq.sel with
  | .write l, some i =>
    let c := compAt (lookup s.timers (slotTimer s.params i)) (slotEvent s.params i)
    let dutyStored := (slotAt s i).duty == s.seq.dtmp
    match l with
    | .a3 => s.params.bindOrder == .bindFirst || dutyStored
    | .a4 | .a5 | .ts0 | .ts1 | .ts2 | .ts3 | .ts4 | .ts5 | .ts6 | .ts7 => dutyStored
    | .a6 => dutyStored && c.cc == s.seq.dtmp
    | .a7 => dutyStored && c.cc == s.seq.dtmp && c.inten
    | _   => true
  | _, _ => true

/-- The steps of TSTART run on a timer with no counted channel, for a slot newly bound (42_timer_arbiter R160). -/
def startingFirst (s : State) : Bool :=
  match s.seq.step, s.seq.sel with
  | .write l, some i =>
    match l with
    | .ts0 | .ts1 | .ts2 | .ts3 | .ts4 | .ts5 | .ts6 | .ts7 =>
      (lookup s.arb (slotTimer s.params i)).count == 0#4
    | _ => true
  | _, _ => true

/-- The scanned slot: bound to the pin at F2, free from F3 on; the timer being torn down has no channel left
(41_pwm_alloc R132). -/
def freeProgress (s : State) : Bool :=
  match s.seq.step with
  | .write .f2 => (slotAt s s.seq.scan).pin == s.seq.fgA
  | .write .tp0 | .write .tp1 | .write .tp2 | .write .tp3 => (lookup s.arb (scanTimer s)).count == 0#4
  | _ => true

/-- The slot table, the arbiter and the allocator at every micro-step. -/
abbrev AllocatorInv (s : State) : Prop :=
  UniqueBinding s ∧ BoundPinsValid s ∧ (ArbiterInv s .t0 ∧ ArbiterInv s .t1) ∧ CompareInv s ∧
  writePinValid s = true ∧ selectionSound s = true ∧ allocProgress s = true ∧ startingFirst s = true ∧
  startProgress s = true ∧ freeProgress s = true

/-- The counters of both timers. -/
abbrev CountersInv (s : State) : Prop := CounterInv s .t0 ∧ CounterInv s .t1

/-! ### The sampler -/

/-- The steps of `READ` at which the ADC is enabled: after RD1, up to RD6 (60_exceptions R204). -/
def readEnabled : FgStep → Bool
  | .read .rd2 | .read .rd3 | .read .rd4 | .read .rd5 | .read .rd6 => true
  | _ => false

/-- The value is a sample at the native resolution of the `READ` that runs (40_sampler R105). -/
def isSample (s : State) (v : Word) : Bool := decide (v.toNat < 2 ^ s.seq.native.toNat)

/-- The native resolution of the `READ` that runs is a supported one (10_state R36). -/
def nativeSupported (s : State) : Bool := s.params.adcRes.any (fun e => e.bits == s.seq.native)

/-- The configuration word codes the native resolution of the `READ` that runs (40_sampler R106, RD2). -/
def nativeConfigured (s : State) : Bool := configuredResolution s.params s.adc.cfg == some s.seq.native

/-- What holds of the sampler at each micro-step of `READ` (40_sampler R106, R107). -/
def readProgress (s : State) : Bool :=
  match s.seq.step with
  | .read .rd1 | .read .rd2 => nativeSupported s && (analogSel s.params s.seq.fgA).isSome
  | .read .rd3 => nativeSupported s && nativeConfigured s
  | .read .rd4 => nativeSupported s && nativeConfigured s &&
      (s.adc.busy != s.adc.ended) && (!s.adc.ended || isSample s s.adc.result)
  | .read .rd5 => nativeSupported s && isSample s s.adc.result
  | .read .rd6 | .read .rd7 => nativeSupported s && isSample s s.seq.raw
  | _ => true

/-- The sampler at every micro-step: the ADC is enabled only within a `READ` (60_exceptions R204) and a conversion is in
flight only while one waits for it (40_sampler R108). -/
abbrev SamplerInv (s : State) : Prop :=
  s.adc.en = readEnabled s.seq.step ∧ (s.adc.busy = true → s.seq.step = .read .rd4) ∧ readProgress s = true

/-! ### The port -/

/-- `RESP_VALID` comes with `DONE`, and `DONE` with the end of a command (30_encoding R88). -/
abbrev PortInv (s : State) : Prop :=
  (s.resp.respValid = true → s.resp.done = true) ∧ (s.resp.done = true → s.seq.step = .idle)

/-! ### The slots whose pin behaviour is undefined -/

/-- Only a bound slot can have an undefined pin behaviour (70_reset_and_hazards R235: until the slot is freed). -/
abbrev UndefInv (s : State) : Prop := ∀ x ∈ s.slots, x.bound = false → x.undef = false

/-! ### Together -/

/-- Everything that every step keeps. -/
abbrev Inv (s : State) : Prop :=
  ShapeLegal s ∧ ConfigLegal s ∧ GpioCanonical s ∧ SequencerInv s ∧ AllocatorInv s ∧ CountersInv s ∧
  SamplerInv s ∧ PortInv s ∧ UndefInv s

/-- A command boundary: the foreground sequencer is idle (10_state R26). -/
abbrev AtBoundary (s : State) : Prop := s.seq.step = .idle

/-- The machine is at a command boundary and no handler executes: `CMD_READY = 1` (30_encoding R87). -/
abbrev Ready (s : State) : Prop := s.seq.step = .idle ∧ s.irq.active = none

/-- The latched fields are those of command `i` (30_encoding R81). -/
abbrev Latched (i : Instr) (s : State) : Prop :=
  s.seq.fgOp = i.opcode ∧ s.seq.fgA = i.operandA ∧ s.seq.fgB = i.operandB

/-- The first label of a command (30_encoding R87). -/
def firstLabel : Instr → FgStep
  | .setrres _ _ => .rr0
  | .setref _ _  => .rf0
  | .read _ _    => .read .rd0
  | .setwres _ _ => .sw0
  | .write _ _   => .write .w0

/-- The marks of the run after a command is accepted: only a `SETWRES` under the condition of U1 sets one
(93_implementation_defined U1). -/
def marksAfterAccept (i : Instr) (s : State) : Marks :=
  match i with
  | .setwres bits _ => { s.marks with
      resolutionChanged := s.marks.resolutionChanged || changesResolutionWhileBound bits s }
  | _ => s.marks

/-- The steps of one schedule, whatever the state's own schedule was: an outcome of the machine behind the host's
interface. -/
def runTurns (turns : List Turn) (s : State) : Host.Outcome State Fault Refusal :=
  Host.Core.run Sys2Proof.core turns.length { s with sched := turns }

/-- A tick of timer `t` with its interrupt serviced before the next one: the tick, then as many turns of the dispatcher as
an invocation has steps, `N_CU + 3` (60_exceptions R192, R196). -/
def servicedTick (p : Params) (t : TimerId) : List Turn := .tick t :: List.replicate (p.nCu + 3) (.dispatcher t)

/-! ### One pin -/

/-- Nothing drives pin `p` any more and it is `LOW`: no slot is bound to it, no `WRITE` that names it runs, and none is
waiting at the port (41_pwm_alloc R137 (a)). -/
abbrev PinQuiet (s : State) (p : Word) : Prop :=
  (∀ x ∈ s.slots, x.bound = true → x.pin ≠ p) ∧ levelOf s p = .low ∧
  (s.seq.fgOp = 0x05#8 → s.seq.step ≠ .idle → s.seq.step ≠ .write .w9 → s.seq.fgA ≠ p) ∧
  s.host.all (fun w => opField w != 0x05#8 || aField w != p) = true

/-- The duty of slot `i`, in counts. -/
def dutyOf (s : State) (i : Nat) : Nat := (slotAt s i).duty.toNat

/-- The level the pin of slot `i` has within a cycle of its timer: HIGH below the duty, LOW from there on, and HIGH
throughout for the duty full-scale-minus-one (60_exceptions R196). -/
def waveLevel (s : State) (i : Nat) (t : TimerId) : Level :=
  if (lookup s.timers t).cnt.toNat < dutyOf s i ∨ dutyOf s i + 1 = widthModulus (lookup s.timers t).bitMode then .high
  else .low

/-- Slot `i` is bound and served by the running timer `t`, with no handler executing and no event of its own outstanding:
the premises of 60_exceptions R196. -/
abbrev PwmReady (s : State) (i : Nat) (t : TimerId) : Prop :=
  (ShapeLegal s ∧ ConfigLegal s ∧ UniqueBinding s ∧ s.irq.active = none) ∧
  (i < s.params.nSlots ∧ slotTimer s.params i = t ∧ (slotAt s i).bound = true ∧ (slotAt s i).undef = false) ∧
  ((lookup s.timers t).run = true ∧ (lookup s.timers t).bitMode = s.cfg.bitWidth ∧
    (lookup s.timers t).cnt.toNat < widthModulus (lookup s.timers t).bitMode ∧ (lookup s.nvic t).en = true) ∧
  (cycleStartArmed s t = true ∧ compareProgrammed s i = true) ∧
  (0 < dutyOf s i ∧ dutyOf s i < widthModulus (lookup s.timers t).bitMode) ∧
  (eventFlag s t 0 = false ∧ eventFlag s t (slotEvent s.params i) = false)

/-! ### What a handler step drives -/

/-- The slots of timer `t` that the cycle-start step drives HIGH, ascending (60_exceptions R188). -/
def cycleStartSlots (s : State) (t : TimerId) : List Nat :=
  (slotsOf s.params t).filter (fun i => (slotAt s i).bound && (slotAt s i).duty != 0#32)

/-- The levels a list of calls writes to pin `p`, in the list's order. -/
def pinWrites (p : Word) (calls : List Call) : List Level :=
  calls.filterMap (fun c => match c with | .gpioWrite q l => if q = p then some l else none | _ => none)

/-- Pin `p` belongs to a slot of timer `t` whose pin behaviour is undefined (70_reset_and_hazards R235). -/
def undefinedOn (s : State) (t : TimerId) (p : Word) : Bool :=
  (slotsOf s.params t).any (fun i => (slotAt s i).bound && (slotAt s i).undef && (slotAt s i).pin == p)

end Sys2Proof.Machine
end

