-- ==== Sys2Proof/Certificates/Slice0/Obligations.lean ====
section
/-! DEFINITION. The statements for the provers, each a proposition about the model in the terms of the spec's rules. -/

open Sys2Proof Sys2Proof.Machine

/-! ### Encoding -/

/-- 30_encoding R81, R83, R85: no bit of a command is dropped: decoding the encoding of any command gives it back, at
every value of both operand fields. (The spec's own decision behind it: 92_eei_decisions D7.) -/
def Obligations.DecodeOfEncode : Prop :=
  ∀ i : Instr, decode (encode i) = .ok i

/-- 30_encoding R81, R83: a word that decodes to a command is that command's encoding, so a word has one meaning. (The
spec's own decision behind it: 92_eei_decisions D7.) -/
def Obligations.EncodeOfDecode : Prop :=
  ∀ (w : CommandWord) (i : Instr), decode w = .ok i → encode i = w

/-- 30_encoding R84: exactly the words with `OP = 0x00` or `OP = 0x06 .. 0xFF` are no command. (The spec's own decision
behind it: 92_eei_decisions D7.) -/
def Obligations.ReservedExactly : Prop :=
  ∀ w : CommandWord,
    (decode w = .error (.reservedOpcode (opField w)) ↔ (opField w = 0x00#8 ∨ 6 ≤ (opField w).toNat)) ∧
    ((∃ i, decode w = .ok i) ↔ (1 ≤ (opField w).toNat ∧ (opField w).toNat ≤ 5))

/-- 30_encoding R83, R85, the words of 95_test_vectors 2.9: one word of every row, and one with an ignored field set.
(The spec's own decision behind it: 92_eei_decisions D7.) -/
def Obligations.WrittenWordsDecode : Prop :=
  decode 0x010000000C00000000#72 = .ok (.setrres 12#32 0#32) ∧
  decode 0x020000000100000000#72 = .ok (.setref 1#32 0#32) ∧
  decode 0x0300000018FFFFFFFF#72 = .ok (.read 24#32 0xFFFFFFFF#32) ∧
  decode 0x040000001000000000#72 = .ok (.setwres 16#32 0#32) ∧
  decode 0x050000000500000040#72 = .ok (.write 5#32 64#32)

/-- 30_encoding R90, R82: the textual form of a command is the source's call; every operand that fits in 32 bits is the
field; the names of `setReference` stand for the codes 0 to 4 in the source's order (R90). Log entry 27 (the model's
choice): the ignored field of an assembled command is 0, as in the examples of 40_sampler R103 and R104, blanks are
ignored; and, inferred from R82 and not said by R90, a call whose operand does not fit in its field is not assembled.
(The spec's own decisions behind it: 92_eei_decisions D5, D7, D8.) -/
def Obligations.CallsAssemble : Prop :=
  (∀ n < 2 ^ 32, assemble (.setReadResolution n) = some (.setrres (BitVec.ofNat 32 n) 0#32) ∧
    assemble (.setReference (.number n)) = some (.setref (BitVec.ofNat 32 n) 0#32) ∧
    assemble (.read n) = some (.read (BitVec.ofNat 32 n) 0#32) ∧
    assemble (.setWriteResolution n) = some (.setwres (BitVec.ofNat 32 n) 0#32) ∧
    ∀ v < 2 ^ 32, assemble (.write n v) = some (.write (BitVec.ofNat 32 n) (BitVec.ofNat 32 v))) ∧
  ([RefName.internalBandgap, .supplyHalf, .external0, .external1, .supplyThird].map
      (fun r => assemble (.setReference (.named r))) =
    [0#32, 1#32, 2#32, 3#32, 4#32].map (fun c => some (Instr.setref c 0#32))) ∧
  (∀ n, 2 ^ 32 ≤ n → ∀ v, assemble (.setReadResolution n) = none ∧ assemble (.setReference (.number n)) = none ∧
    assemble (.read n) = none ∧ assemble (.setWriteResolution n) = none ∧
    assemble (.write n v) = none ∧ assemble (.write v n) = none) ∧
  assembleLine "write(5, 64)".toList = some (.write 5#32 64#32) ∧
  assembleLine "setReference(external-1)".toList = some (.setref 3#32 0#32)

/-! ### A step runs the decoded command -/

/-- 10_state R37, R39 and 30_encoding R87: in a foreground turn, a ready machine takes the first word of the port off
the host's list and runs the command it decodes to; a machine at a label runs the latched command; while a handler
executes, or at `IDLE` with no command on the port, the turn does nothing. (The spec's own decisions behind it:
92_eei_decisions D2, D7.) -/
def Obligations.StepRunsTheCommand : Prop :=
  ∀ (s : State) (i : Instr), nextTurn s = .foreground →
    (Ready s → ∀ w rest, s.host = w :: rest → decode w = .ok i → step s = exec i { beginStep s with host := rest }) ∧
    (s.irq.active = none → s.seq.step ≠ .idle → decode (latchedWord s) = .ok i → step s = exec i (beginStep s)) ∧
    ((s.irq.active ≠ none ∨ (s.seq.step = .idle ∧ s.host = [])) → step s = .next (beginStep s))

/-- 30_encoding R87, 20_memory R75 and log entry 7 (the model's reading of fetching a command): with a command's word
presented, the very next step runs exactly that command, in any state. (The spec's own decision behind it:
92_eei_decisions D24.) -/
def Obligations.PresentedWordRuns : Prop :=
  ∀ (s : State) (i : Instr),
    step (s.withFetchWord 72 (encode i).toNat) =
      exec i (beginStep { s with
        seq := { s.seq with step := .idle }, irq := { s.irq with active := none }, sched := .foreground :: s.sched })

/-- 30_encoding R81, R87: an idle sequencer accepts any command: it latches the three fields and goes to the command's
first label, and nothing else changes. Log entry 5 (the model's choice): a `SETWRES` under the condition of U1 also sets
the run's mark. (The spec's own decisions behind it: 92_eei_decisions D2, D7.) -/
def Obligations.AcceptLatches : Prop :=
  ∀ (s : State) (i : Instr), s.seq.step = .idle →
    exec i s = .next { s with
      seq := { s.seq with fgOp := i.opcode, fgA := i.operandA, fgB := i.operandB, step := firstLabel i }
      marks := marksAfterAccept i s }

/-- 30_encoding R84: a reserved command is accepted and completes with `DONE` in one micro-step; it changes no slot, no
timer resource, no configuration, no device, and makes no call. Log entry 9: the run's mark U4 is set. (The spec's own
decision behind it: 92_eei_decisions D7.) -/
def Obligations.ReservedIsNoOp : Prop :=
  ∀ (s : State) (w : CommandWord) (rest : List CommandWord), Ready s → s.host = w :: rest →
    (opField w = 0x00#8 ∨ 6 ≤ (opField w).toNat) →
    runTurns [.foreground, .foreground] s = .next { s with
      seq := { s.seq with fgOp := opField w, fgA := aField w, fgB := bField w }
      resp := ⟨s.resp.resp, true, false⟩
      host := rest
      sched := []
      steps := s.steps + 2
      marks := { s.marks with reservedCommand := true } }

/-- 30_encoding R85: the second operand field of `SETRRES`, `SETREF`, `READ` and `SETWRES` is latched and never read:
any other value in `FG_B` gives the same step, with that value still in `FG_B`. (The spec's own decision behind it:
92_eei_decisions D7.) -/
def Obligations.IgnoredFieldNeverRead : Prop :=
  ∀ (s t : State) (i : Instr) (b : Word), s.seq.step ≠ .idle → i.opcode ≠ 0x05#8 → exec i s = .next t →
    exec i { s with seq := { s.seq with fgB := b } } = .next { t with seq := { t.seq with fgB := b } }

/-! ### SETRRES, SETREF, SETWRES -/

/-- 40_sampler R103: the command `0x01` (30_encoding R83); at RR0 `READ_RES` takes the operand unchanged, the command
ends with `DONE`, and nothing else changes: no flag, no interface, no exception. The corner cases, which R103 derives
from R100, R102, R105 and 00_scope R17: with 0 stored, or 42 and more, the rescaling that a later `READ` applies gives 0
for every sample. (The spec's own decisions behind it: 92_eei_decisions D5, D7, D9.) -/
def Obligations.SetrresStores : Prop :=
  (∀ (s : State) (bits x : Word), s.seq.step = .rr0 → Latched (.setrres bits x) s →
    exec (.setrres bits x) s = .next { s with
      cfg := { s.cfg with readRes := bits }
      seq := { s.seq with step := .idle }
      resp := { s.resp with done := true } }) ∧
  (∀ bits x : Word, opField (encode (.setrres bits x)) = 0x01#8 ∧ aField (encode (.setrres bits x)) = bits) ∧
  (∀ (p : Params) (bits raw : Word), p.Wf → (bits = 0#32 ∨ 42 ≤ bits.toNat) →
    raw.toNat < 2 ^ (nativeResolution p bits).toNat → mapResolution raw (nativeResolution p bits) bits = 0#32)

/-- 40_sampler R104, RF0: a mode 0 to 4 is stored, any other operand stores the default 4, the command ends with `DONE`,
and nothing else changes; the ADC is not touched. (The spec's own decision behind it: 92_eei_decisions D8.) -/
def Obligations.SetrefStores : Prop :=
  ∀ (s : State) (mode x : Word), s.seq.step = .rf0 → Latched (.setref mode x) s →
    (mode.toNat ≤ 4 → ∃ m : BitVec 3, m.toNat = mode.toNat ∧ exec (.setref mode x) s = .next { s with
      cfg := { s.cfg with adcRef := m }
      seq := { s.seq with step := .idle }
      resp := { s.resp with done := true } }) ∧
    (4 < mode.toNat → exec (.setref mode x) s = .next { s with
      cfg := { s.cfg with adcRef := 4#3 }
      seq := { s.seq with step := .idle }
      resp := { s.resp with done := true } })

/-- 41_pwm_alloc R130, SW0: the three arms, with what each stores in `WRITE_RES`, `BITWIDTH` and `HALF_SCALE`. No timer
register, no `PIN`, `DUTY`, count or pin changes, no interface is driven, and the command ends with `DONE`. -/
def Obligations.SetwresStores : Prop :=
  ∀ (s : State) (bits x : Word), s.seq.step = .sw0 → Latched (.setwres bits x) s →
    ∃ t, exec (.setwres bits x) s = .next t ∧
      ((2 ≤ bits.toNat ∧ bits.toNat ≤ 8) →
        t.cfg = { s.cfg with writeRes := bits, bitWidth := .w8, halfScale := 128#32 }) ∧
      ((9 ≤ bits.toNat ∧ bits.toNat ≤ 16) →
        t.cfg = { s.cfg with writeRes := bits, bitWidth := .w16, halfScale := 32768#32 }) ∧
      ((bits.toNat < 2 ∨ 16 < bits.toNat) →
        t.cfg = { s.cfg with writeRes := 8#32, bitWidth := .w8, halfScale := 128#32 }) ∧
      t.slots.map (fun c => (c.pin, c.duty)) = s.slots.map (fun c => (c.pin, c.duty)) ∧
      t.seq = { s.seq with step := .idle } ∧ t.resp = { s.resp with done := true } ∧
      t.timers = s.timers ∧ t.arb = s.arb ∧ t.nvic = s.nvic ∧ t.gpio = s.gpio ∧ t.adc = s.adc ∧ t.irq = s.irq ∧
      t.trace = s.trace ∧ t.host = s.host ∧ t.params = s.params

/-- 70_reset_and_hazards R235 and log entry 5 (how the model carries the undefined pin behaviour): a `SETWRES` that
stores the `WRITE_RES` already there changes no slot; one that changes it makes the pin behaviour of exactly the bound
slots undefined. (The spec's own decision behind it: 92_eei_decisions D28.) -/
def Obligations.SetwresUndefinesBound : Prop :=
  ∀ (s t : State) (bits x : Word), s.seq.step = .sw0 → Latched (.setwres bits x) s →
    exec (.setwres bits x) s = .next t →
    (t.cfg.writeRes = s.cfg.writeRes → t.slots = s.slots) ∧
    (t.cfg.writeRes ≠ s.cfg.writeRes → ∀ i, i < s.slots.length →
      slotAt t i = { slotAt s i with undef := (slotAt s i).bound || (slotAt s i).undef })

/-! ### READ -/

/-- 40_sampler R106: what each micro-step RD0 to RD8 of `READ` does, exactly; the poll of RD4 stays at RD4 while the
completion event is not there. (The spec's own decisions behind it: 92_eei_decisions D2, D10.) -/
def Obligations.ReadMicroSteps : Prop :=
  ∀ (s : State) (pin x : Word), Latched (.read pin x) s →
    (s.seq.step = .read .rd0 → analogSel s.params pin = none → exec (.read pin x) s = .next { s with
      resp := { s.resp with resp := 0#32 }, seq := { s.seq with step := .read .rd8 } }) ∧
    (s.seq.step = .read .rd0 → analogSel s.params pin ≠ none → exec (.read pin x) s = .next { s with
      seq := { s.seq with native := nativeResolution s.params s.cfg.readRes, step := .read .rd1 } }) ∧
    (s.seq.step = .read .rd1 → exec (.read pin x) s = .next { s with
      adc := { s.adc with en := true }, trace := .adcEnable true :: s.trace
      seq := { s.seq with step := .read .rd2 } }) ∧
    (s.seq.step = .read .rd2 → ∀ a, analogSel s.params pin = some a → exec (.read pin x) s = .next { s with
      adc := { s.adc with
        cfg := adcCfgPack s.params a (resCode s.params s.seq.native) (refBitsOf s.params s.cfg.adcRef) }
      trace := .adcConfig (adcCfgPack s.params a (resCode s.params s.seq.native) (refBitsOf s.params s.cfg.adcRef)) ::
        s.trace
      seq := { s.seq with step := .read .rd3 } }) ∧
    (s.seq.step = .read .rd3 → exec (.read pin x) s = .next { s with
      adc := { s.adc with busy := true, ended := false }, trace := .adcStart :: s.trace
      seq := { s.seq with step := .read .rd4 } }) ∧
    (s.seq.step = .read .rd4 → s.adc.ended = false → exec (.read pin x) s = .next { s with
      trace := .adcPollEnd :: s.trace }) ∧
    (s.seq.step = .read .rd4 → s.adc.ended = true → exec (.read pin x) s = .next { s with
      trace := .adcPollEnd :: s.trace, seq := { s.seq with step := .read .rd5 } }) ∧
    (s.seq.step = .read .rd5 → exec (.read pin x) s = .next { s with
      trace := .adcReadResult :: s.trace, seq := { s.seq with raw := s.adc.result, step := .read .rd6 } }) ∧
    (s.seq.step = .read .rd6 → exec (.read pin x) s = .next { s with
      adc := { s.adc with en := false }, trace := .adcEnable false :: s.trace
      seq := { s.seq with step := .read .rd7 } }) ∧
    (s.seq.step = .read .rd7 → exec (.read pin x) s = .next { s with
      resp := { s.resp with resp := mapResolution s.seq.raw s.seq.native s.cfg.readRes }
      seq := { s.seq with step := .read .rd8 } }) ∧
    (s.seq.step = .read .rd8 → exec (.read pin x) s = .next { s with
      resp := { s.resp with done := true, respValid := true }, seq := { s.seq with step := .idle } })

/-- 40_sampler R105, from the port to `DONE`, in a run whose only other step than the foreground's is the completion of
the conversion: no tick and no step of a handler falls inside. A pin with an analog input, with any number of polls
before the conversion completes: `READ` enables the ADC, writes one configuration word, starts, waits, reads the result,
disables, and answers the sample rescaled from the native to the requested resolution. A pin without one, an invalid pin
among them: the answer is 0, the ADC is not touched and no call is made. It writes `RESP` and the sequencer's
temporaries and nothing else of PMX. The conversion draws any `raw` below `2^n` (60_exceptions R201). (The spec's own
decisions behind it: 92_eei_decisions D5, D9, D10.) -/
def Obligations.ReadReturnsRescaledSample : Prop :=
  ∀ (s : State) (pin x : Word) (rest : List CommandWord), Ready s → s.host = encode (.read pin x) :: rest →
    (∀ (a raw : Word) (polls : Nat), s.params.Wf → analogSel s.params pin = some a →
      raw.toNat < 2 ^ (nativeResolution s.params s.cfg.readRes).toNat →
      s.cfg.adcRef.toNat ≤ 4 →
      let n := nativeResolution s.params s.cfg.readRes
      let word := adcCfgPack s.params a (resCode s.params n) (refBitsOf s.params s.cfg.adcRef)
      runTurns (List.replicate (5 + polls) .foreground ++ .adcComplete raw :: List.replicate 5 .foreground) s =
        .next { s with
          seq := { s.seq with fgOp := 0x03#8, fgA := pin, fgB := x, native := n, raw := raw }
          resp := ⟨mapResolution raw n s.cfg.readRes, true, true⟩
          adc := ⟨false, word, false, true, raw⟩
          host := rest
          sched := []
          steps := s.steps + polls + 11
          trace := [.adcEnable false, .adcReadResult, .adcPollEnd] ++ List.replicate polls .adcPollEnd ++
            [.adcStart, .adcConfig word, .adcEnable true] ++ s.trace }) ∧
    (analogSel s.params pin = none →
      runTurns (List.replicate 3 .foreground) s = .next { s with
        seq := { s.seq with fgOp := 0x03#8, fgA := pin, fgB := x }
        resp := ⟨0#32, true, true⟩
        host := rest
        sched := []
        steps := s.steps + 3 })

/-- 40_sampler R105, R106 and 60_exceptions R197: the frame of `READ`: whatever the micro-step, no slot, timer resource,
configuration register, timer, interrupt line, pin, dispatcher register or latched field changes, nor the ADC's result.
(The spec's own decision behind it: 92_eei_decisions D10.) -/
def Obligations.ReadFrame : Prop :=
  ∀ (s t : State) (pin x : Word), s.seq.step ≠ .idle → exec (.read pin x) s = .next t →
    t.params = s.params ∧ t.slots = s.slots ∧ t.arb = s.arb ∧ t.cfg = s.cfg ∧ t.irq = s.irq ∧ t.timers = s.timers ∧
    t.nvic = s.nvic ∧ t.gpio = s.gpio ∧ t.adc.result = s.adc.result ∧ t.host = s.host ∧ t.marks = s.marks ∧
    (t.seq.fgOp, t.seq.fgA, t.seq.fgB) = (s.seq.fgOp, s.seq.fgA, s.seq.fgB) ∧
    (t.seq.scan, t.seq.sel, t.seq.newBind, t.seq.dtmp) = (s.seq.scan, s.seq.sel, s.seq.newBind, s.seq.dtmp)

/-- 40_sampler R107, 70_reset_and_hazards R234: while no conversion completes, `READ` waits at RD4 and the command port
stays closed, whatever else takes a step: a hang of the foreground, no fault. (The spec's own decisions behind it:
92_eei_decisions D2, D10.) -/
def Obligations.ReadWaitsForTheAdc : Prop :=
  ∀ s : State, s.seq.fgOp = 0x03#8 → s.seq.step = .read .rd4 → s.adc.ended = false →
    (∀ raw, nextTurn s ≠ .adcComplete raw) →
    ∃ t, step s = .next t ∧ t.seq = s.seq ∧ t.adc = s.adc ∧ cmdReady t = false

/-! ### WRITE -/

/-- 41_pwm_alloc R131: W0 sends an invalid pin to W9 and a valid one to W1; W1 sends the value 0 to F0 and any other to
S0; W9 ends the command. Nothing else changes. (The spec's own decisions behind it: 92_eei_decisions D2, D26.) -/
def Obligations.WriteEntry : Prop :=
  ∀ (s : State) (pin value : Word), Latched (.write pin value) s →
    (s.seq.step = .write .w0 → pinMap s.params pin = none →
      exec (.write pin value) s = .next { s with seq := { s.seq with step := .write .w9 } }) ∧
    (s.seq.step = .write .w0 → pinMap s.params pin ≠ none →
      exec (.write pin value) s = .next { s with seq := { s.seq with step := .write .w1 } }) ∧
    (s.seq.step = .write .w1 → value = 0#32 →
      exec (.write pin value) s = .next { s with seq := { s.seq with step := .write .f0 } }) ∧
    (s.seq.step = .write .w1 → value ≠ 0#32 →
      exec (.write pin value) s = .next { s with seq := { s.seq with step := .write .s0 } }) ∧
    (s.seq.step = .write .w9 → exec (.write pin value) s = .next { s with
      seq := { s.seq with step := .idle }, resp := { s.resp with done := true } })

/-- 41_pwm_alloc R131, 60_exceptions R181 SD2: `WRITE` on an invalid pin is a silent no-op in the steps W0, W9, for
every value, 0 included. (The spec's own decision behind it: 92_eei_decisions D26.) -/
def Obligations.WriteInvalidPinIsNoOp : Prop :=
  ∀ (s : State) (pin value : Word) (rest : List CommandWord),
    Ready s → s.host = encode (.write pin value) :: rest → pinMap s.params pin = none →
    runTurns (List.replicate 3 .foreground) s = .next { s with
      seq := { s.seq with fgOp := 0x05#8, fgA := pin, fgB := value }
      resp := ⟨s.resp.resp, true, false⟩
      host := rest
      sched := []
      steps := s.steps + 3 }

/-- 41_pwm_alloc R132: what each micro-step F0 to F6 of the free path does, exactly, for a scan index within the table.
(The spec's own decisions behind it: 92_eei_decisions D2, D16.) -/
def Obligations.WriteFreeSteps : Prop :=
  ∀ (s : State) (pin value : Word), Latched (.write pin value) s →
    let u := slotTimer s.params s.seq.scan
    (s.seq.step = .write .f0 → exec (.write pin value) s = .next { s with
      seq := { s.seq with scan := 0, step := .write .f1 } }) ∧
    (s.seq.step = .write .f1 → s.seq.scan = s.params.nSlots → exec (.write pin value) s = .next { s with
      seq := { s.seq with step := .write .f6 } }) ∧
    (s.seq.step = .write .f1 → s.seq.scan < s.params.nSlots → (slotAt s s.seq.scan).pin ≠ pin →
      exec (.write pin value) s = .next { s with seq := { s.seq with scan := s.seq.scan + 1, step := .write .f1 } }) ∧
    (s.seq.step = .write .f1 → s.seq.scan < s.params.nSlots → (slotAt s s.seq.scan).pin = pin →
      exec (.write pin value) s = .next { s with seq := { s.seq with step := .write .f2 } }) ∧
    (s.seq.step = .write .f2 → exec (.write pin value) s = .next { s with
      slots := s.slots.modify s.seq.scan (fun c => ⟨pinFree, c.duty, false⟩)
      seq := { s.seq with step := .write .f3 } }) ∧
    (s.seq.step = .write .f3 → ∃ t, exec (.write pin value) s = .next t ∧
      t = { s with arb := t.arb, seq := { s.seq with step := .write .f4 } } ∧
      lookup t.arb u = ⟨(lookup s.arb u).count - 1#4, (lookup s.arb u).run⟩ ∧
      ∀ v, v ≠ u → lookup t.arb v = lookup s.arb v) ∧
    (s.seq.step = .write .f4 → (lookup s.arb u).count = 0#4 → exec (.write pin value) s = .next { s with
      seq := { s.seq with step := .write .tp0 } }) ∧
    (s.seq.step = .write .f4 → (lookup s.arb u).count ≠ 0#4 → exec (.write pin value) s = .next { s with
      seq := { s.seq with step := .write .f5 } }) ∧
    (s.seq.step = .write .f5 → exec (.write pin value) s = .next { s with
      seq := { s.seq with scan := s.seq.scan + 1, step := .write .f1 } }) ∧
    (s.seq.step = .write .f6 → ∃ t, exec (.write pin value) s = .next t ∧
      t = { s with gpio := t.gpio, trace := .gpioWrite pin .low :: s.trace, seq := { s.seq with step := .write .w9 } } ∧
      t.gpio.outputs = s.gpio.outputs ∧ levelOf t pin = .low ∧ ∀ q, q ≠ pin → levelOf t q = levelOf s q)

/-- 41_pwm_alloc R133, S0: a slot bound to the pin wins, the least such; else the least free slot, newly bound; else
none and the fallback. (The spec's own decision behind it: 92_eei_decisions D11.) -/
def Obligations.WriteSearch : Prop :=
  ∀ (s : State) (pin value : Word), Latched (.write pin value) s → s.seq.step = .write .s0 → pin ≠ pinFree →
    (∀ i, i < s.slots.length → (slotAt s i).pin = pin → (∀ j, j < i → (slotAt s j).pin ≠ pin) →
      exec (.write pin value) s = .next { s with
        seq := { s.seq with sel := some i, newBind := false, step := .write .a0 } }) ∧
    (∀ i, (∀ c ∈ s.slots, c.pin ≠ pin) → i < s.slots.length → (slotAt s i).pin = pinFree →
      (∀ j, j < i → (slotAt s j).pin ≠ pinFree) → exec (.write pin value) s = .next { s with
        seq := { s.seq with sel := some i, newBind := true, step := .write .a0 } }) ∧
    ((∀ c ∈ s.slots, c.pin ≠ pin ∧ c.pin ≠ pinFree) → exec (.write pin value) s = .next { s with
        seq := { s.seq with sel := none, newBind := false, step := .write .s1 } })

/-- 41_pwm_alloc R134, S1, with 00_scope R15: the fallback drives the pin HIGH where the compared value is at or above
half-scale, else LOW, under each value of `FALLBACK_CMP`; no other pin, no direction and no PMX state changes. (The
spec's own decisions behind it: 92_eei_decisions D12, D16.) -/
def Obligations.WriteFallback : Prop :=
  ∀ (s : State) (pin value : Word), Latched (.write pin value) s → s.seq.step = .write .s1 →
    ∃ (t : State) (l : Level), exec (.write pin value) s = .next t ∧
      t = { s with gpio := t.gpio, trace := .gpioWrite pin l :: s.trace, seq := { s.seq with step := .write .w9 } } ∧
      (s.params.fallbackCmp = .raw → (l = .high ↔ s.cfg.halfScale.toNat ≤ value.toNat)) ∧
      (s.params.fallbackCmp = .rescaled → (l = .high ↔ s.cfg.halfScale.toNat ≤
        (mapResolution value s.cfg.writeRes (widthWord s.cfg.bitWidth)).toNat)) ∧
      t.gpio.outputs = s.gpio.outputs ∧ levelOf t pin = l ∧ ∀ q, q ≠ pin → levelOf t q = levelOf s q

/-- 41_pwm_alloc R135, R136: what each micro-step A0 to A7 does on the selected slot `i` of timer `TMR(i)`, exactly,
under each value of `BIND_ORDER`. (The spec's own decisions behind it: 92_eei_decisions D2, D13, D15.) -/
def Obligations.WriteAllocateSteps : Prop :=
  ∀ (s : State) (pin value : Word) (i : Nat), Latched (.write pin value) s → s.seq.sel = some i →
    i < s.params.nSlots → ShapeLegal s →
    let u := slotTimer s.params i
    let k := slotEvent s.params i
    (s.seq.step = .write .a0 → ∃ t, exec (.write pin value) s = .next t ∧
      t = { s with gpio := t.gpio, trace := .gpioModeOutput pin :: s.trace, seq := { s.seq with step := .write .a1 } } ∧
      t.gpio.high = s.gpio.high ∧ isOutput t pin = true ∧ ∀ q, q ≠ pin → isOutput t q = isOutput s q) ∧
    (s.seq.step = .write .a1 → exec (.write pin value) s = .next { s with
      seq := { s.seq with
        dtmp := mapResolution value s.cfg.writeRes (widthWord s.cfg.bitWidth)
        step := .write (if s.params.bindOrder = .dutyFirst then .a2 else .a3) } }) ∧
    (s.seq.step = .write .a2 → exec (.write pin value) s = .next { s with
      slots := s.slots.modify i (fun c => ⟨c.pin, s.seq.dtmp, c.undef⟩)
      seq := { s.seq with step := .write (if s.params.bindOrder = .dutyFirst then .a3 else .a4) } }) ∧
    (s.seq.step = .write .a3 → exec (.write pin value) s = .next { s with
      slots := s.slots.modify i (fun c => ⟨pin, c.duty, c.undef⟩)
      seq := { s.seq with step := .write (if s.params.bindOrder = .dutyFirst then .a4 else .a2) } }) ∧
    (s.seq.step = .write .a4 → exec (.write pin value) s = .next { s with
      seq := { s.seq with step := .write (if (lookup s.arb u).count = 0#4 then .ts0 else .a5) } }) ∧
    (s.seq.step = .write .a5 → ∃ t, exec (.write pin value) s = .next t ∧
      t = { s with timers := t.timers, trace := .timerCc u k s.seq.dtmp :: s.trace,
                   seq := { s.seq with step := .write .a6 } } ∧
      lookup t.timers u = { lookup s.timers u with comps := (lookup t.timers u).comps } ∧
      (∀ v, v ≠ u → lookup t.timers v = lookup s.timers v) ∧
      compAt (lookup t.timers u) k = { compAt (lookup s.timers u) k with cc := s.seq.dtmp } ∧
      ∀ j, j ≠ k → compAt (lookup t.timers u) j = compAt (lookup s.timers u) j) ∧
    (s.seq.step = .write .a6 → ∃ t, exec (.write pin value) s = .next t ∧
      t = { s with timers := t.timers, trace := .timerIntenSet u k :: s.trace,
                   seq := { s.seq with step := .write .a7 } } ∧
      lookup t.timers u = { lookup s.timers u with comps := (lookup t.timers u).comps } ∧
      (∀ v, v ≠ u → lookup t.timers v = lookup s.timers v) ∧
      compAt (lookup t.timers u) k = { compAt (lookup s.timers u) k with inten := true } ∧
      ∀ j, j ≠ k → compAt (lookup t.timers u) j = compAt (lookup s.timers u) j) ∧
    (s.seq.step = .write .a7 → ∃ t, exec (.write pin value) s = .next t ∧
      t = { s with arb := t.arb, seq := { s.seq with step := .write .w9 } } ∧
      lookup t.arb u = ⟨(lookup s.arb u).count + (if s.seq.newBind then 1#4 else 0#4), (lookup s.arb u).run⟩ ∧
      ∀ v, v ≠ u → lookup t.arb v = lookup s.arb v)

/-- 42_timer_arbiter R161: what each micro-step TS0 to TS7 of `TSTART` does to the timer of the selected slot, its row
of the timer resource table and its interrupt line, with the call it makes; the other timer and its line are untouched.
(The spec's own decision behind it: 92_eei_decisions D17.) -/
def Obligations.TimerStartSteps : Prop :=
  ∀ (s : State) (pin value : Word) (i : Nat), s.seq.sel = some i → ShapeLegal s →
    let u := slotTimer s.params i
    let r := lookup s.timers u
    let go := fun (l l' : WriteStep) (c : Call) (r' : TimerRegs) (n' : NvicLine) (run' : Bool) =>
      s.seq.step = .write l → ∃ t, exec (.write pin value) s = .next t ∧
        t = { s with timers := t.timers, nvic := t.nvic, arb := t.arb, trace := c :: s.trace,
                     seq := { s.seq with step := .write l' } } ∧
        lookup t.timers u = { r' with comps := (lookup t.timers u).comps } ∧
        (∀ k, compAt (lookup t.timers u) k = compAt r' k) ∧ lookup t.nvic u = n' ∧
        lookup t.arb u = ⟨(lookup s.arb u).count, run'⟩ ∧
        ∀ v, v ≠ u → lookup t.timers v = lookup s.timers v ∧ lookup t.nvic v = lookup s.nvic v ∧
          lookup t.arb v = lookup s.arb v
    let n := lookup s.nvic u
    let run := (lookup s.arb u).run
    go .ts0 .ts1 (.timerMode u s.params.timerMode) { r with mode := s.params.timerMode } n run ∧
    go .ts1 .ts2 (.timerPrescaler u s.params.pwmPrescaler) { r with presc := s.params.pwmPrescaler } n run ∧
    go .ts2 .ts3 (.timerBitMode u s.cfg.bitWidth) { r with bitMode := s.cfg.bitWidth } n run ∧
    go .ts3 .ts4 (.timerCc u 0 0#32)
      { r with comps := ⟨0#32, (compAt r 0).inten, (compAt r 0).ev⟩ :: r.comps.tail } n run ∧
    go .ts4 .ts5 (.timerIntenSet u 0)
      { r with comps := ⟨(compAt r 0).cc, true, (compAt r 0).ev⟩ :: r.comps.tail } n run ∧
    go .ts5 .ts6 (.timerStart u) { r with run := true } n true ∧
    go .ts6 .ts7 (.nvicSetPriority (irqLineOf s.params u) s.params.pwmIrqPriority) r
      { n with prio := s.params.pwmIrqPriority } run ∧
    go .ts7 .a5 (.nvicEnable (irqLineOf s.params u)) r { n with en := true } run

/-- 42_timer_arbiter R162: what each micro-step TP0 to TP3 of `TSTOP` does to the timer of the scanned slot, its row of
the timer resource table and its interrupt line, with the call it makes; event flags, interrupt enables and compare
values stay, and the other timer is untouched. (The spec's own decisions behind it: 92_eei_decisions D17, D20.) -/
def Obligations.TimerStopSteps : Prop :=
  ∀ (s : State) (pin value : Word),
    let u := slotTimer s.params s.seq.scan
    let r := lookup s.timers u
    let go := fun (l l' : WriteStep) (c : Call) (r' : TimerRegs) (n' : NvicLine) (run' : Bool) =>
      s.seq.step = .write l → ∃ t, exec (.write pin value) s = .next t ∧
        t = { s with timers := t.timers, nvic := t.nvic, arb := t.arb, trace := c :: s.trace,
                     seq := { s.seq with step := .write l' } } ∧
        lookup t.timers u = r' ∧ lookup t.nvic u = n' ∧ lookup t.arb u = ⟨(lookup s.arb u).count, run'⟩ ∧
        ∀ v, v ≠ u → lookup t.timers v = lookup s.timers v ∧ lookup t.nvic v = lookup s.nvic v ∧
          lookup t.arb v = lookup s.arb v
    let n := lookup s.nvic u
    let run := (lookup s.arb u).run
    go .tp0 .tp1 (.nvicDisable (irqLineOf s.params u)) r { n with en := false } run ∧
    go .tp1 .tp2 (.nvicClearPending (irqLineOf s.params u)) r n run ∧
    go .tp2 .tp3 (.timerStop u) { r with run := false } n false ∧
    go .tp3 .f5 (.timerClear u) { r with cnt := 0#16 } n run

/-- The frame of `WRITE` over all its micro-steps (10_state R25, R26, 41_pwm_alloc R131 to R136): no configuration
register, ADC register, dispatcher register, `RESP` or latched field ever changes; no event flag and no counter of a
running timer changes but by TP3; a pin other than the operand keeps level and direction. (The spec's own decisions
behind it: 92_eei_decisions D2, D16.) -/
def Obligations.WriteFrame : Prop :=
  ∀ (s t : State) (pin value : Word), s.seq.step ≠ .idle → exec (.write pin value) s = .next t →
    t.params = s.params ∧ t.cfg = s.cfg ∧ t.irq = s.irq ∧ t.adc = s.adc ∧ t.resp.resp = s.resp.resp ∧
    t.resp.respValid = s.resp.respValid ∧ t.host = s.host ∧ t.marks = s.marks ∧
    (t.seq.fgOp, t.seq.fgA, t.seq.fgB) = (s.seq.fgOp, s.seq.fgA, s.seq.fgB) ∧
    (t.seq.raw, t.seq.native) = (s.seq.raw, s.seq.native) ∧ t.slots.length = s.slots.length ∧
    (∀ u k, eventFlag t u k = eventFlag s u k) ∧
    (s.seq.step ≠ .write .tp3 → ∀ u, (lookup t.timers u).cnt = (lookup s.timers u).cnt) ∧
    (∀ q, q ≠ s.seq.fgA → levelOf t q = levelOf s q ∧ isOutput t q = isOutput s q)

/-- 41_pwm_alloc R137 (d): no micro-step of `WRITE` changes a slot bound to another pin than its operand. (The spec's
own decision behind it: 92_eei_decisions D11.) -/
def Obligations.WriteKeepsOtherBindings : Prop :=
  ∀ (s t : State) (pin value : Word), Inv s → Latched (.write pin value) s → s.seq.step ≠ .idle →
    exec (.write pin value) s = .next t →
    ∀ i, (slotAt s i).bound = true → (slotAt s i).pin ≠ pin → slotAt t i = slotAt s i

/-- 41_pwm_alloc R132, R137 (a), 42_timer_arbiter R162 and 95_test_vectors S8-1, S8-5: `write(p, 0)` on a valid pin,
from the port to `DONE` with no other agent's step inside: it completes in at most 23 steps; no slot is bound to `p`,
`p` is LOW; every other slot, pin and direction is as before, and every duty; the freed slot's timer loses one channel,
and is torn down exactly when that was its last. (The spec's own decisions behind it: 92_eei_decisions D2, D16, D17,
D26.) -/
def Obligations.WriteZeroFrees : Prop :=
  ∀ (s : State) (p : Word) (rest : List CommandWord), Inv s → Ready s → s.host = encode (.write p 0#32) :: rest →
    pinMap s.params p ≠ none →
    ∃ n ≤ 23, ∃ t, runTurns (List.replicate n .foreground) s = .next t ∧
      Ready t ∧ t.resp = ⟨s.resp.resp, true, false⟩ ∧ t.host = rest ∧ t.cfg = s.cfg ∧ t.adc = s.adc ∧
      (∀ i, slotAt t i = if (slotAt s i).pin = p then ⟨pinFree, (slotAt s i).duty, false⟩ else slotAt s i) ∧
      levelOf t p = .low ∧ (∀ q, q ≠ p → levelOf t q = levelOf s q) ∧ t.gpio.outputs = s.gpio.outputs ∧
      (∀ u k, compAt (lookup t.timers u) k = compAt (lookup s.timers u) k) ∧
      (∀ u, (∀ i, (slotAt s i).pin = p → slotTimer s.params i ≠ u) →
        lookup t.arb u = lookup s.arb u ∧ lookup t.nvic u = lookup s.nvic u ∧
        lookup t.timers u = lookup s.timers u) ∧
      (∀ i, (slotAt s i).pin = p → ∀ u, slotTimer s.params i = u →
        (lookup t.arb u).count.toNat + 1 = (lookup s.arb u).count.toNat ∧
        (if (lookup t.arb u).count = 0#4 then
          (lookup t.arb u).run = false ∧ (lookup t.timers u).run = false ∧ (lookup t.timers u).cnt = 0#16 ∧
          (lookup t.nvic u).en = false
        else (lookup t.arb u).run = true ∧ lookup t.timers u = lookup s.timers u ∧
          lookup t.nvic u = lookup s.nvic u))

/-- 41_pwm_alloc R133, R135, R136, R137 (b): `write(p, v)` with `v` not 0 on a valid pin, where slot `i` is the one S0
takes, from the port to `DONE` with no other agent's step inside: it completes in at most 21 steps; slot `i` is bound to
`p` with the rescaled duty and no other slot changes; its compare unit is programmed and enabled, the cycle-start event
armed, the timer and its line run; `p` is an output; the count rises by one exactly when the slot was free; no level
changes. (The spec's own decisions behind it: 92_eei_decisions D11, D13, D15, D17.) -/
def Obligations.WriteAllocates : Prop :=
  ∀ (s : State) (p v : Word) (i : Nat) (rest : List CommandWord), Inv s → Ready s →
    s.host = encode (.write p v) :: rest → pinMap s.params p ≠ none → v ≠ 0#32 → selectSlot s p = some i →
    let u := slotTimer s.params i
    let d := mapResolution v s.cfg.writeRes (widthWord s.cfg.bitWidth)
    ∃ n ≤ 21, ∃ t, runTurns (List.replicate n .foreground) s = .next t ∧
      Ready t ∧ t.resp = ⟨s.resp.resp, true, false⟩ ∧ t.host = rest ∧ t.cfg = s.cfg ∧ t.adc = s.adc ∧
      slotAt t i = ⟨p, d, (slotAt s i).undef⟩ ∧ (∀ j, j ≠ i → slotAt t j = slotAt s j) ∧
      (compAt (lookup t.timers u) (slotEvent s.params i)).cc = d ∧
      (compAt (lookup t.timers u) (slotEvent s.params i)).inten = true ∧ cycleStartArmed t u = true ∧
      (lookup t.arb u).run = true ∧ (lookup t.timers u).run = true ∧ (lookup t.nvic u).en = true ∧
      (lookup t.arb u).count.toNat = (lookup s.arb u).count.toNat + (if (slotAt s i).bound then 0 else 1) ∧
      ((lookup s.arb u).count = 0#4 → (lookup t.timers u).bitMode = s.cfg.bitWidth) ∧
      isOutput t p = true ∧ (∀ q, q ≠ p → isOutput t q = isOutput s q) ∧ t.gpio.high = s.gpio.high ∧
      (∀ w, w ≠ u → lookup t.arb w = lookup s.arb w ∧ lookup t.timers w = lookup s.timers w ∧
        lookup t.nvic w = lookup s.nvic w)

/-- 41_pwm_alloc R134, 60_exceptions R181 SD3 and 95_test_vectors S8-2: with every slot bound to another pin, `write(p,
v)`, `v` not 0, with no other agent's step inside, makes one call, a write of the thresholded level, and changes no PMX
state; the value compared is the operand or the rescaled operand, as `FALLBACK_CMP` says. (The spec's own decisions
behind it: 92_eei_decisions D12, D16.) -/
def Obligations.WriteFallsBack : Prop :=
  ∀ (s : State) (p v : Word) (rest : List CommandWord), Ready s → s.host = encode (.write p v) :: rest →
    pinMap s.params p ≠ none → v ≠ 0#32 → (∀ c ∈ s.slots, c.bound = true ∧ c.pin ≠ p) →
    let c := match s.params.fallbackCmp with
      | .raw => v
      | .rescaled => mapResolution v s.cfg.writeRes (widthWord s.cfg.bitWidth)
    let l : Level := if s.cfg.halfScale.toNat ≤ c.toNat then .high else .low
    ∃ t, runTurns (List.replicate 6 .foreground) s = .next t ∧
      t = { s with
        seq := { s.seq with fgOp := 0x05#8, fgA := p, fgB := v, sel := none, newBind := false }
        resp := ⟨s.resp.resp, true, false⟩
        gpio := t.gpio
        host := rest
        sched := []
        steps := s.steps + 6
        trace := .gpioWrite p l :: s.trace } ∧
      t.gpio.outputs = s.gpio.outputs ∧ levelOf t p = l ∧ ∀ q, q ≠ p → levelOf t q = levelOf s q

/-- 41_pwm_alloc R137 (a), over every schedule: once no slot is bound to a pin, the pin is LOW and no `WRITE` names it,
nothing drives it: every step of every agent keeps it so. (The spec's own decision behind it: 92_eei_decisions D22.) -/
def Obligations.QuietPinStaysQuiet : Prop :=
  ∀ (s t : State) (p : Word), PinQuiet s p → step s = .next t → PinQuiet t p

/-! ### The arbiter over all steps -/

/-- 42_timer_arbiter R160, R161: no step of any agent starts a timer but TS5, or sets `RUN[t]`, and then on the timer of
the selected slot only. (The spec's own decision behind it: 92_eei_decisions D17.) -/
def Obligations.OnlyTstartStarts : Prop :=
  ∀ (s t : State) (u : TimerId), step s = .next t →
    (((lookup s.timers u).run = false ∧ (lookup t.timers u).run = true) ∨
      ((lookup s.arb u).run = false ∧ (lookup t.arb u).run = true)) →
    nextTurn s = .foreground ∧ s.seq.step = .write .ts5 ∧ selectedOn s u = true

/-- 42_timer_arbiter R163: `TSTOP` is reachable only from the free path: no step of any agent stops a timer but TP2, on
the timer of the scanned slot; and a `WRITE` comes to the labels of `TSTOP` only from F4, by way of TP0, TP1, TP2 in
turn. -/
def Obligations.OnlyTheFreePathStops : Prop :=
  ∀ (s t : State) (u : TimerId), step s = .next t →
    ((((lookup s.timers u).run = true ∧ (lookup t.timers u).run = false) ∨
      ((lookup s.arb u).run = true ∧ (lookup t.arb u).run = false)) →
      nextTurn s = .foreground ∧ s.seq.step = .write .tp2 ∧ scanTimer s = u) ∧
    (t.seq.step ≠ s.seq.step →
      (t.seq.step = .write .tp0 → s.seq.step = .write .f4) ∧
      (t.seq.step = .write .tp1 → s.seq.step = .write .tp0) ∧
      (t.seq.step = .write .tp2 → s.seq.step = .write .tp1) ∧
      (t.seq.step = .write .tp3 → s.seq.step = .write .tp2))

/-- 42_timer_arbiter R165: the counter width of a timer is fixed at `TSTART`: only TS2 of that timer's start writes it,
and never while the timer is running. (The spec's own decision behind it: 92_eei_decisions D17.) -/
def Obligations.CounterWidthFixedAtStart : Prop :=
  ∀ (s t : State) (u : TimerId), step s = .next t → (lookup t.timers u).bitMode ≠ (lookup s.timers u).bitMode →
    nextTurn s = .foreground ∧ s.seq.step = .write .ts2 ∧ selectedOn s u = true ∧
    (lookup t.timers u).bitMode = s.cfg.bitWidth ∧ (Inv s → (lookup s.timers u).run = false)

/-! ### The interrupt dispatcher -/

/-- 60_exceptions R185, R186, R187, R194: a turn of the dispatcher of timer `t` enters its handler exactly when no
handler executes, the line is enabled and some comparator has its flag and its interrupt enable set; entry changes
`IRQ_ACTIVE` and `IRQ_K` only. While the other timer's handler executes, the turn does nothing: handlers do not nest.
(The spec's own decisions behind it: 92_eei_decisions D19, D20.) -/
def Obligations.HandlerEntry : Prop :=
  ∀ (s : State) (t : TimerId), nextTurn s = .dispatcher t →
    (s.irq.active = none → (lookup s.nvic t).en = true →
      (∃ k ≤ s.params.nCu, eventFlag s t k = true ∧ eventEnabled s t k = true) →
      step s = .next { beginStep s with irq := ⟨some t, 0⟩ }) ∧
    (s.irq.active = none → ((lookup s.nvic t).en = false ∨
        ∀ k ≤ s.params.nCu, eventFlag s t k = true → eventEnabled s t k = false) →
      step s = .next (beginStep s)) ∧
    (∀ t', s.irq.active = some t' → t' ≠ t → step s = .next (beginStep s))

/-- 60_exceptions R188, H0: with the cycle-start flag set, every bound slot of the timer with a nonzero duty drives its
pin HIGH, in ascending slot order within the one step, then the flag is cleared and `IRQ_K` is 1; no other pin moves.
With the flag clear only `IRQ_K` moves. A pin of a slot whose behaviour is undefined (70_reset_and_hazards R235) is not
spoken of. -/
def Obligations.CycleStartStep : Prop :=
  ∀ (s : State) (t : TimerId), nextTurn s = .dispatcher t → s.irq = ⟨some t, 0⟩ →
    (eventFlag s t 0 = false → step s = .next { beginStep s with irq := ⟨some t, 1⟩ }) ∧
    (eventFlag s t 0 = true → ∃ s', step s = .next s' ∧ s'.irq = ⟨some t, 1⟩ ∧
      (∀ i ∈ cycleStartSlots s t, undefinedOn s t (slotAt s i).pin = false → levelOf s' (slotAt s i).pin = .high) ∧
      (∀ p, (∀ i ∈ cycleStartSlots s t, (slotAt s i).pin ≠ p) → undefinedOn s t p = false →
        levelOf s' p = levelOf s p) ∧
      ((∀ p, undefinedOn s t p = false) → s'.trace = .timerEventClear t 0 ::
        ((cycleStartSlots s t).map (fun i => Call.gpioWrite (slotAt s i).pin .high)).reverse ++ s.trace) ∧
      eventFlag s' t 0 = false ∧ (∀ u k, (u, k) ≠ (t, 0) → eventFlag s' u k = eventFlag s u k))

/-- 60_exceptions R189, Hk: with the flag of event `k` set, its slot's pin is driven LOW where the slot is bound and its
duty differs from full-scale-minus-one, `2 * HALF_SCALE - 1` now; otherwise no pin moves; then the flag is cleared and
`IRQ_K` is `k + 1`. With the flag clear only `IRQ_K` moves. Full-scale-minus-one is 255 in 8-bit mode and 65535 in
16-bit mode. A slot whose pin behaviour is undefined (70_reset_and_hazards R235) is not spoken of. -/
def Obligations.CompareStep : Prop :=
  ∀ (s : State) (t : TimerId) (k : Nat), nextTurn s = .dispatcher t → s.irq = ⟨some t, k⟩ → 1 ≤ k → k ≤ s.params.nCu →
    let i := timerNumber t * s.params.nCu + (k - 1)
    let c := slotAt s i
    (eventFlag s t k = false → step s = .next { beginStep s with irq := ⟨some t, k + 1⟩ }) ∧
    (eventFlag s t k = true → ∃ s', step s = .next s' ∧ s'.irq = ⟨some t, k + 1⟩ ∧ eventFlag s' t k = false ∧
      (∀ u j, (u, j) ≠ (t, k) → eventFlag s' u j = eventFlag s u j) ∧
      (∀ q, q ≠ c.pin → levelOf s' q = levelOf s q) ∧
      (c.bound = true → c.undef = false → c.duty ≠ 2#32 * s.cfg.halfScale - 1#32 →
        levelOf s' c.pin = .low ∧ s'.trace = .timerEventClear t k :: .gpioWrite c.pin .low :: s.trace) ∧
      ((c.bound = false ∨ (c.undef = false ∧ c.duty = 2#32 * s.cfg.halfScale - 1#32)) →
        levelOf s' c.pin = levelOf s c.pin ∧ s'.trace = .timerEventClear t k :: s.trace)) ∧
    (ConfigLegal s → 2#32 * s.cfg.halfScale - 1#32 = match s.cfg.bitWidth with | .w8 => 255#32 | .w16 => 65535#32)

/-- 60_exceptions R193, HR: past event `N_CU` the handler returns: `IRQ_ACTIVE <- NONE` and nothing is restored or
changed; the foreground sequencer goes on at the unchanged `FG_STEP`. (The spec's own decision behind it:
92_eei_decisions D19.) -/
def Obligations.HandlerReturn : Prop :=
  ∀ (s : State) (t : TimerId), nextTurn s = .dispatcher t → s.irq.active = some t → s.params.nCu < s.irq.k →
    step s = .next { beginStep s with irq := ⟨none, s.irq.k⟩ }

/-- 60_exceptions R192, with 10_state R25: whatever step of a handler, it writes no `PIN`, `DUTY`, `COUNT`, `RUN`,
configuration or reference register, no foreground register, no interrupt line, no ADC register, no pin direction and no
timer register but event flags of its own timer; and only the pins of bound slots of that timer can change. (The spec's
own decision behind it: 92_eei_decisions D2.) -/
def Obligations.HandlerFrame : Prop :=
  ∀ (s s' : State) (t : TimerId), nextTurn s = .dispatcher t → step s = .next s' →
    s'.params = s.params ∧ s'.slots = s.slots ∧ s'.arb = s.arb ∧ s'.cfg = s.cfg ∧ s'.seq = s.seq ∧
    s'.nvic = s.nvic ∧ s'.adc = s.adc ∧ s'.resp.resp = s.resp.resp ∧ s'.host = s.host ∧ s'.marks = s.marks ∧
    s'.gpio.outputs = s.gpio.outputs ∧
    (∀ u, lookup s'.timers u = { lookup s.timers u with comps := (lookup s'.timers u).comps }) ∧
    (∀ u k, compAt (lookup s'.timers u) k =
      { compAt (lookup s.timers u) k with ev := eventFlag s' u k }) ∧
    (∀ u k, u ≠ t → eventFlag s' u k = eventFlag s u k) ∧
    (∀ p, (∀ i ∈ slotsOf s.params t, (slotAt s i).bound = true → (slotAt s i).pin ≠ p) → levelOf s' p = levelOf s p)

/-- 60_exceptions R190, R192, R193: an invocation with no other agent's step inside (R193 lets ticks fall between
handler steps, and a tick may raise a flag again) is exactly `N_CU + 3` steps; when it ends no handler executes, every
event flag of the timer is clear, and the slot table, the timer resource table, the configuration, the foreground
sequencer, the interrupt lines, the ADC and the other timer are as they were. (The spec's own decisions behind it:
92_eei_decisions D18, D19.) -/
def Obligations.HandlerCompletes : Prop :=
  ∀ (s : State) (t : TimerId), ShapeLegal s → entryEnabled s t = true →
    (∀ n, 0 < n → n < s.params.nCu + 3 → ∃ s', runTurns (List.replicate n (.dispatcher t)) s = .next s' ∧
      s'.irq.active = some t) ∧
    ∃ s', runTurns (List.replicate (s.params.nCu + 3) (.dispatcher t)) s = .next s' ∧
      s'.irq = ⟨none, s.params.nCu + 1⟩ ∧ (∀ k, eventFlag s' t k = false) ∧
      (∀ u, u ≠ t → lookup s'.timers u = lookup s.timers u) ∧ s'.slots = s.slots ∧ s'.arb = s.arb ∧ s'.cfg = s.cfg ∧
      s'.seq = s.seq ∧ s'.nvic = s.nvic ∧ s'.adc = s.adc ∧ s'.gpio.outputs = s.gpio.outputs

/-- 60_exceptions R191: with the cycle-start flag and a slot's compare flag both set at entry, one invocation with no
other agent's step inside writes the slot's pin HIGH and then LOW, in this order and no more, so a late handler leaves
it LOW. A duty of 0 leaves out the HIGH write (R188); a duty of full-scale-minus-one leaves out the LOW write, and the
pin ends HIGH (R189). (The spec's own decisions behind it: 92_eei_decisions D14, D18.) -/
def Obligations.LateHandlerEndsLow : Prop :=
  ∀ (s : State) (t : TimerId) (i : Nat), ShapeLegal s → UniqueBinding s → entryEnabled s t = true →
    i < s.params.nSlots → slotTimer s.params i = t → (slotAt s i).bound = true → (slotAt s i).undef = false →
    eventFlag s t 0 = true → eventFlag s t (slotEvent s.params i) = true →
    let x := slotAt s i
    let full := 2#32 * s.cfg.halfScale - 1#32
    ∃ s' calls, runTurns (List.replicate (s.params.nCu + 3) (.dispatcher t)) s = .next s' ∧
      s'.trace = calls ++ s.trace ∧
      (pinWrites x.pin calls).reverse =
        (if x.duty = 0#32 then [] else [.high]) ++ (if x.duty = full then [] else [.low]) ∧
      levelOf s' x.pin = if x.duty = full then .high else .low

/-! ### Interrupt sources and event flags over all steps -/

/-- 60_exceptions R183: an interrupt enable bit is set by TS4 for `k = 0` and by A6 for the event of the selected slot,
and by nothing else; no step of any agent clears one; a timer's line is enabled by TS7 and disabled by TP0, and by
nothing else. There is no other mask: a pending interrupt is taken in the dispatcher's turn whatever the foreground
sequencer is doing. -/
def Obligations.InterruptEnables : Prop :=
  ∀ (s t : State) (u : TimerId), step s = .next t →
    (∀ k, eventEnabled s u k = true → eventEnabled t u k = true) ∧
    (∀ k, eventEnabled s u k = false → eventEnabled t u k = true → nextTurn s = .foreground ∧ selectedOn s u = true ∧
      ((s.seq.step = .write .ts4 ∧ k = 0) ∨
        (s.seq.step = .write .a6 ∧ ∃ i, s.seq.sel = some i ∧ k = slotEvent s.params i))) ∧
    ((lookup s.nvic u).en = false → (lookup t.nvic u).en = true →
      nextTurn s = .foreground ∧ s.seq.step = .write .ts7 ∧ selectedOn s u = true) ∧
    ((lookup s.nvic u).en = true → (lookup t.nvic u).en = false →
      nextTurn s = .foreground ∧ s.seq.step = .write .tp0 ∧ scanTimer s = u) ∧
    (nextTurn s = .foreground → s.irq.active = none → s.seq.fgOp = 0x05#8 →
      (∀ i, s.seq.sel = some i → i < s.params.nSlots → slotTimer s.params i = u → ShapeLegal s →
        (s.seq.step = .write .ts4 → eventEnabled t u 0 = true) ∧
        (s.seq.step = .write .a6 → eventEnabled t u (slotEvent s.params i) = true) ∧
        (s.seq.step = .write .ts7 → (lookup t.nvic u).en = true)) ∧
      (s.seq.step = .write .tp0 → scanTimer s = u → (lookup t.nvic u).en = false)) ∧
    (nextTurn s = .dispatcher u → s.irq.active = none → pending s u = true → t.irq.active = some u)

/-- 60_exceptions R184, under the reference timer of R198: an event flag is set by the timer's tick when its counter
reaches `CC[t][k]`, and by nothing else; it is cleared by the handler of that timer at its step of event `k`, and by
nothing else. -/
def Obligations.EventFlags : Prop :=
  ∀ (s t : State) (u : TimerId) (k : Nat), step s = .next t → s.params.eventModel = .reference →
    (eventFlag s u k = false → eventFlag t u k = true →
      nextTurn s = .tick u ∧ (lookup s.timers u).run = true ∧
      (lookup t.timers u).cnt.toNat =
        (compAt (lookup s.timers u) k).cc.toNat % widthModulus (lookup s.timers u).bitMode) ∧
    (eventFlag s u k = true → eventFlag t u k = false →
      nextTurn s = .dispatcher u ∧ s.irq = ⟨some u, k⟩) ∧
    (nextTurn s = .tick u → (lookup s.timers u).run = true → k < (lookup s.timers u).comps.length →
      (lookup t.timers u).cnt.toNat =
        (compAt (lookup s.timers u) k).cc.toNat % widthModulus (lookup s.timers u).bitMode →
      eventFlag t u k = true) ∧
    (nextTurn s = .dispatcher u → s.irq = ⟨some u, k⟩ → k ≤ s.params.nCu → eventFlag t u k = false)

/-- 60_exceptions R198: a tick of a running timer counts modulo `2^T_BITMODE` and sets exactly the flags of the
comparators the counter arrived at; nothing else changes. A stopped timer does not tick. (The spec's own decision behind
it: 92_eei_decisions D21.) -/
def Obligations.TimerTick : Prop :=
  ∀ (s : State) (u : TimerId), nextTurn s = .tick u →
    ((lookup s.timers u).run = false → step s = .next (beginStep s)) ∧
    ((lookup s.timers u).run = true → ∃ t, step s = .next t ∧
      t = { beginStep s with timers := t.timers } ∧ (∀ v, v ≠ u → lookup t.timers v = lookup s.timers v) ∧
      (let r := lookup s.timers u
       let r' := lookup t.timers u
       r'.cnt.toNat = (r.cnt.toNat + 1) % 2 ^ widthBits r.bitMode ∧
       r' = { r with cnt := r'.cnt, comps := r'.comps } ∧ r'.comps.length = r.comps.length ∧
       ∀ k, k < r.comps.length → compAt r' k = { compAt r k with
         ev := (compAt r k).ev || decide (r'.cnt.toNat = (compAt r k).cc.toNat % 2 ^ widthBits r.bitMode) }))

/-- 60_exceptions R201, with 00_scope R14: the completion of a conversion gives a value below `2^n` for the resolution
`n` that the configuration word was packed from, whatever packing the platform has, sets the completion event and ends
the transaction; with none in flight nothing happens. Log entry 20 (the model's choice): the draw is the turn's word
modulo `2^n`, which gives every value below `2^n`. (The spec's own decisions behind it: 92_eei_decisions D10, D27.) -/
def Obligations.AdcCompletes : Prop :=
  ∀ (s : State) (raw n a f : Word), nextTurn s = .adcComplete raw → s.params.Wf →
    n ∈ s.params.adcRes.map (·.bits) → a ∈ s.params.analogInputs → f ∈ s.params.refBits →
    s.adc.cfg = adcCfgPack s.params a (resCode s.params n) f →
    (s.adc.busy = false → step s = .next (beginStep s)) ∧
    (s.adc.busy = true → ∃ v : Word, v.toNat = raw.toNat % 2 ^ n.toNat ∧
      step s = .next { beginStep s with adc := ⟨s.adc.en, s.adc.cfg, false, true, v⟩ })

/-! ### One PWM cycle -/

/-- 60_exceptions R196: one tick of the timer of a bound slot with its interrupt serviced keeps the premises of that
rule, counts by one, and leaves the slot's pin at the level the counter gives: HIGH while the counter is below the duty,
LOW from the duty on, HIGH throughout for full-scale-minus-one; from the first wrap on, whatever the level was before
it. (The spec's own decisions behind it: 92_eei_decisions D14, D18, D21, D22.) -/
def Obligations.PwmTick : Prop :=
  ∀ (s : State) (i : Nat) (t : TimerId), PwmReady s i t →
    ∃ s', runTurns (servicedTick s.params t) s = .next s' ∧ PwmReady s' i t ∧ s'.slots = s.slots ∧
      s'.params = s.params ∧
      (lookup s'.timers t).cnt.toNat =
        ((lookup s.timers t).cnt.toNat + 1) % widthModulus (lookup s.timers t).bitMode ∧
      ((levelOf s (slotAt s i).pin = waveLevel s i t ∨ (lookup s'.timers t).cnt.toNat = 0) →
        levelOf s' (slotAt s i).pin = waveLevel s' i t)

/-- 60_exceptions R196: over any number `n` of ticks with each interrupt serviced, from a cycle start on, the pin of a
bound slot with duty `d` is HIGH exactly while the counter is below `d`, that is for `d` of the `2^B` ticks of each
cycle, and HIGH throughout for `d = 2^B - 1`. (The spec's own decisions behind it: 92_eei_decisions D14, D18, D21, D22.)
-/
def Obligations.PwmWaveform : Prop :=
  ∀ (s : State) (i n : Nat) (t : TimerId), PwmReady s i t → (lookup s.timers t).cnt.toNat = 0 →
    levelOf s (slotAt s i).pin = .high →
    ∃ s', runTurns (List.replicate n (servicedTick s.params t)).flatten s = .next s' ∧
      (let m := widthModulus (lookup s.timers t).bitMode
       levelOf s' (slotAt s i).pin = .high ↔ (n % m < dutyOf s i ∨ dutyOf s i = m - 1))

/-! ### Values -/

/-- 40_sampler R101, laws (a) to (f). (The spec's own decisions behind it: 92_eei_decisions D5, D29.) -/
def Obligations.MapResolutionLaws : Prop :=
  (∀ v a b : Word, a.toNat ≤ b.toNat → b.toNat ≤ 32 → v.toNat < 2 ^ a.toNat →
    mapResolution (mapResolution v a b) b a = v) ∧
  (∀ v a b : Word, b.toNat < a.toNat → a.toNat ≤ 32 → v.toNat < 2 ^ a.toNat →
    (mapResolution (mapResolution v a b) b a).toNat = v.toNat - v.toNat % 2 ^ (a.toNat - b.toNat)) ∧
  (∀ v a b : Word, a.toNat ≤ b.toNat → b.toNat ≤ 32 → v.toNat < 2 ^ a.toNat →
    (mapResolution v a b).toNat < 2 ^ b.toNat ∧
    (mapResolution v a b).toNat = v.toNat * 2 ^ (b.toNat - a.toNat)) ∧
  (∀ a b : Word, mapResolution 0#32 a b = 0#32) ∧
  (∀ v a b : Word, a.toNat < b.toNat → b.toNat ≤ 32 → v ≠ 0#32 → v.toNat < 2 ^ a.toNat →
    mapResolution v a b ≠ 0#32) ∧
  (∀ v a b : Word, a.toNat < b.toNat →
    (mapResolution v a b).toNat =
      if b.toNat - a.toNat < 32 then v.toNat * 2 ^ (b.toNat - a.toNat) % 2 ^ 32 else 0) ∧
  (∀ v a b : Word, b.toNat < a.toNat →
    (mapResolution v a b).toNat = if a.toNat - b.toNat < 32 then v.toNat / 2 ^ (a.toNat - b.toNat) else 0) ∧
  (∀ v a : Word, mapResolution v a a = v)

/-- 40_sampler R102: `NATIVE(bits)` is the greatest supported resolution at or below the request, and 10 where none is;
with 10 the greatest supported one, every request of 10 or more gives 10. (The spec's own decision behind it:
92_eei_decisions D9.) -/
def Obligations.NativeResolution : Prop :=
  ∀ (p : Params) (bits : Word),
    ((∃ r ∈ p.adcRes.map (·.bits), r.toNat ≤ bits.toNat) →
      nativeResolution p bits ∈ p.adcRes.map (·.bits) ∧ (nativeResolution p bits).toNat ≤ bits.toNat ∧
      ∀ r ∈ p.adcRes.map (·.bits), r.toNat ≤ bits.toNat → r.toNat ≤ (nativeResolution p bits).toNat) ∧
    ((∀ r ∈ p.adcRes.map (·.bits), bits.toNat < r.toNat) → nativeResolution p bits = 10#32) ∧
    (p.Wf → 10 ≤ bits.toNat → nativeResolution p bits = 10#32)

/-- 10_state R23, 20_memory R61: the slots and the events of the two timers correspond one to one: event `k >= 1` of
timer `t` belongs to a slot of the table, whose timer and event are `t` and `k`; every slot is the slot of its own timer
and event; with two timers `HALF(s)` is the number of the slot's timer. (The spec's own decision behind it:
92_eei_decisions D4.) -/
def Obligations.SlotConstants : Prop :=
  ∀ p : Params, 1 ≤ p.nCu →
    (∀ t k, 1 ≤ k → k ≤ p.nCu → eventSlot p t k < p.nSlots ∧ slotTimer p (eventSlot p t k) = t ∧
      slotEvent p (eventSlot p t k) = k ∧ eventSlot p t k ∈ slotsOf p t) ∧
    (∀ i, i < p.nSlots → eventSlot p (slotTimer p i) (slotEvent p i) = i ∧ 1 ≤ slotEvent p i ∧
      slotEvent p i ≤ p.nCu ∧ i ∈ slotsOf p (slotTimer p i) ∧ slotHalf p i = timerNumber (slotTimer p i))

/-! ### Reset -/

/-- 10_state R46: the reset values the source states, on every platform: all slots free, default 8-bit write and 10-bit
read resolution, default reference. -/
def Obligations.ResetValues : Prop :=
  ∀ p : Params, (State.resetOn p).slots.length = p.nSlots ∧
    (∀ c ∈ (State.resetOn p).slots, c.pin = 0xFFFFFFFF#32) ∧
    (State.resetOn p).cfg.writeRes = 8#32 ∧ (State.resetOn p).cfg.bitWidth = .w8 ∧
    (State.resetOn p).cfg.halfScale = 128#32 ∧ (State.resetOn p).cfg.readRes = 10#32 ∧
    (State.resetOn p).cfg.adcRef = 4#3

/-- 70_reset_and_hazards R230, 10_state R47: PMX's reset puts every register of PMX that has a reset value at that
value, `IRQ_K` among them, and drives no interface: the consumed devices stay as they are, a running timer runs on and a
HIGH pin stays HIGH; then the machine is ready for the first command, and the state after reset is a fixed point. The
free slots' `undef` flags (log entry 5) and the strobes at 0 (log
entry 30) are the model's choice. (The spec's own decision behind it: 92_eei_decisions D23.) -/
def Obligations.ResetDrivesNothing : Prop :=
  ∀ s : State,
    (pmxReset s).timers = s.timers ∧ (pmxReset s).nvic = s.nvic ∧ (pmxReset s).gpio = s.gpio ∧
    (pmxReset s).adc = s.adc ∧ (pmxReset s).trace = s.trace ∧ (pmxReset s).params = s.params ∧
    (pmxReset s).slots = List.replicate s.params.nSlots ⟨pinFree, 0#32, false⟩ ∧
    (∀ t, lookup (pmxReset s).arb t = ⟨0#4, false⟩) ∧
    (pmxReset s).cfg = ⟨10#32, 8#32, .w8, 128#32, 4#3⟩ ∧ (pmxReset s).irq = ⟨none, 0⟩ ∧
    (pmxReset s).seq.step = .idle ∧ (pmxReset s).resp = ⟨0#32, false, false⟩ ∧
    cmdReady (pmxReset s) = true ∧
    pmxReset (State.resetOn s.params) = State.resetOn s.params

/-- 10_state R45 to R48 and 70_reset_and_hazards R242: the state after reset meets the whole invariant, on every
platform the parameters allow, nothing is in flight or outstanding in it, and no interrupt is pending. (The spec's own
decision behind it: 92_eei_decisions D23.) -/
def Obligations.ResetMeetsInv : Prop :=
  ∀ p : Params, p.Wf → Inv (State.resetOn p) ∧ Ready (State.resetOn p) ∧ finished (State.resetOn p) = true ∧
    ∀ t, pending (State.resetOn p) t = false

/-! ### Invariants that every step of every agent keeps -/

/-- 10_state R31 to R33, R35: the write configuration stays one of those `SETWRES` stores, so `2 <= WRITE_RES <= 16`,
`BITWIDTH` is 8 exactly when `WRITE_RES <= 8`, `HALF_SCALE = 2^(BITWIDTH - 1)`, and `ADC_REF <= 4`. (The spec's own
decision behind it: 92_eei_decisions D8.) -/
def Obligations.StepKeepsConfig : Prop :=
  (∀ s t : State, ConfigLegal s → step s = .next t → ConfigLegal t) ∧
  (∀ s : State, ConfigLegal s → (2 ≤ s.cfg.writeRes.toNat ∧ s.cfg.writeRes.toNat ≤ 16) ∧
    (s.cfg.bitWidth = .w8 ↔ s.cfg.writeRes.toNat ≤ 8) ∧
    s.cfg.halfScale.toNat = 2 ^ (widthBits s.cfg.bitWidth - 1) ∧ s.cfg.adcRef.toNat ≤ 4)

/-- 10_state R40 with log entry 10 (the model's canonical form of the pins): the pins that are HIGH and those that are
outputs stay listed strictly rising, so equal pin states are equal data. -/
def Obligations.StepKeepsPinsCanonical : Prop :=
  ∀ s t : State, GpioCanonical s → step s = .next t → GpioCanonical t

/-- 10_state R21, R39, R42, 00_scope R9: no step changes the parameters or the sizes of the tables, and the dispatcher's
position stays in `0 .. N_CU + 1`. (The spec's own decisions behind it: 92_eei_decisions D2, D3.) -/
def Obligations.StepKeepsShape : Prop :=
  ∀ s t : State, ShapeLegal s → step s = .next t → ShapeLegal t ∧ t.params = s.params

/-- 60_exceptions R180, 20_memory R61, 10_state R37: from a state in which the foreground sequencer is in step with its
command, every step of every agent gives a next state, again in step: no fault, no refusal, and no index outside the
tables. (The spec's own decision behind it: 92_eei_decisions D2.) -/
def Obligations.StepNeverStops : Prop :=
  ∀ s : State, ShapeLegal s → SequencerInv s → ∃ t, step s = .next t ∧ SequencerInv t

/-- 10_state R24, R26, R29, 42_timer_arbiter R164, 41_pwm_alloc R137 (c), 60_exceptions R204: the whole invariant, at
every micro-step and under every schedule, is kept by every step of every agent. (The spec's own decisions behind it:
92_eei_decisions D2, D13.) -/
def Obligations.StepKeepsInv : Prop :=
  ∀ s t : State, Inv s → step s = .next t → Inv t

/-- 10_state R24, R26, R29, 42_timer_arbiter R164, 41_pwm_alloc R137 (b): what the invariant says at a command boundary,
in the words of the rules: at most one slot binds a pin; `COUNT[t]` is the number of bound slots; `RUN[t]` exactly when
`COUNT[t] > 0`, and equal to `T_RUN[t]` and `NVIC_EN[t]`; the cycle start of a running timer armed; every bound slot's
compare unit programmed; the ADC off. (The spec's own decisions behind it: 92_eei_decisions D13, D17.) -/
def Obligations.BoundaryProperties : Prop :=
  ∀ s : State, Inv s → AtBoundary s →
    (∀ i j, (slotAt s i).bound = true → (slotAt s j).bound = true → (slotAt s i).pin = (slotAt s j).pin → i = j) ∧
    (∀ t, (lookup s.arb t).count.toNat = boundCount s t ∧ (lookup s.arb t).count.toNat ≤ s.params.nCu ∧
      ((lookup s.arb t).run = true ↔ 0 < (lookup s.arb t).count.toNat) ∧
      (lookup s.timers t).run = (lookup s.arb t).run ∧ (lookup s.nvic t).en = (lookup s.arb t).run ∧
      ((lookup s.arb t).run = true → (compAt (lookup s.timers t) 0).cc = 0#32 ∧
        (compAt (lookup s.timers t) 0).inten = true)) ∧
    (∀ i, (slotAt s i).bound = true →
      (compAt (lookup s.timers (slotTimer s.params i)) (slotEvent s.params i)).cc = (slotAt s i).duty ∧
      (compAt (lookup s.timers (slotTimer s.params i)) (slotEvent s.params i)).inten = true) ∧
    s.adc.en = false ∧ s.adc.busy = false
end

