-- ==== Sys2Proof/Laws/State.lean ====
section
/-! SUPPORT. What each state update changes and what it leaves: one equation per field, each true by rfl and used by simp,
so that no later proof unfolds a record update. -/

namespace Sys2Proof.Machine

@[simp] theorem setSlot_changes (i : Nat) (f : Slot → Slot) (s : State) :
    (setSlot i f s).slots = s.slots.modify i f := by
  rfl

@[simp] theorem setSlot_keeps (i : Nat) (f : Slot → Slot) (s : State) :
    (setSlot i f s).params = s.params ∧ (setSlot i f s).arb = s.arb ∧ (setSlot i f s).cfg = s.cfg ∧
    (setSlot i f s).seq = s.seq ∧ (setSlot i f s).irq = s.irq ∧ (setSlot i f s).resp = s.resp ∧
    (setSlot i f s).timers = s.timers ∧ (setSlot i f s).nvic = s.nvic ∧ (setSlot i f s).gpio = s.gpio ∧
    (setSlot i f s).adc = s.adc ∧ (setSlot i f s).host = s.host ∧ (setSlot i f s).sched = s.sched ∧
    (setSlot i f s).steps = s.steps ∧ (setSlot i f s).trace = s.trace ∧ (setSlot i f s).marks = s.marks := by
  refine ⟨rfl, rfl, rfl, rfl, rfl, rfl, rfl, rfl, rfl, rfl, rfl, rfl, rfl, rfl, rfl⟩

@[simp] theorem bindSlot_changes (i : Nat) (p : Word) (s : State) :
    (bindSlot i p s).slots = s.slots.modify i (fun x => { x with pin := p }) := by
  rfl

@[simp] theorem bindSlot_keeps (i : Nat) (p : Word) (s : State) :
    (bindSlot i p s).params = s.params ∧ (bindSlot i p s).arb = s.arb ∧ (bindSlot i p s).cfg = s.cfg ∧
    (bindSlot i p s).seq = s.seq ∧ (bindSlot i p s).irq = s.irq ∧ (bindSlot i p s).resp = s.resp ∧
    (bindSlot i p s).timers = s.timers ∧ (bindSlot i p s).nvic = s.nvic ∧ (bindSlot i p s).gpio = s.gpio ∧
    (bindSlot i p s).adc = s.adc ∧ (bindSlot i p s).host = s.host ∧ (bindSlot i p s).sched = s.sched ∧
    (bindSlot i p s).steps = s.steps ∧ (bindSlot i p s).trace = s.trace ∧ (bindSlot i p s).marks = s.marks := by
  refine ⟨rfl, rfl, rfl, rfl, rfl, rfl, rfl, rfl, rfl, rfl, rfl, rfl, rfl, rfl, rfl⟩

@[simp] theorem setDuty_changes (i : Nat) (v : Word) (s : State) :
    (setDuty i v s).slots = s.slots.modify i (fun x => { x with duty := v }) := by
  rfl

@[simp] theorem setDuty_keeps (i : Nat) (v : Word) (s : State) :
    (setDuty i v s).params = s.params ∧ (setDuty i v s).arb = s.arb ∧ (setDuty i v s).cfg = s.cfg ∧
    (setDuty i v s).seq = s.seq ∧ (setDuty i v s).irq = s.irq ∧ (setDuty i v s).resp = s.resp ∧
    (setDuty i v s).timers = s.timers ∧ (setDuty i v s).nvic = s.nvic ∧ (setDuty i v s).gpio = s.gpio ∧
    (setDuty i v s).adc = s.adc ∧ (setDuty i v s).host = s.host ∧ (setDuty i v s).sched = s.sched ∧
    (setDuty i v s).steps = s.steps ∧ (setDuty i v s).trace = s.trace ∧ (setDuty i v s).marks = s.marks := by
  refine ⟨rfl, rfl, rfl, rfl, rfl, rfl, rfl, rfl, rfl, rfl, rfl, rfl, rfl, rfl, rfl⟩

@[simp] theorem freeSlot_changes (i : Nat) (s : State) :
    (freeSlot i s).slots = s.slots.modify i (fun x => { x with pin := pinFree, undef := false }) := by
  rfl

@[simp] theorem freeSlot_keeps (i : Nat) (s : State) :
    (freeSlot i s).params = s.params ∧ (freeSlot i s).arb = s.arb ∧ (freeSlot i s).cfg = s.cfg ∧
    (freeSlot i s).seq = s.seq ∧ (freeSlot i s).irq = s.irq ∧ (freeSlot i s).resp = s.resp ∧
    (freeSlot i s).timers = s.timers ∧ (freeSlot i s).nvic = s.nvic ∧ (freeSlot i s).gpio = s.gpio ∧
    (freeSlot i s).adc = s.adc ∧ (freeSlot i s).host = s.host ∧ (freeSlot i s).sched = s.sched ∧
    (freeSlot i s).steps = s.steps ∧ (freeSlot i s).trace = s.trace ∧ (freeSlot i s).marks = s.marks := by
  refine ⟨rfl, rfl, rfl, rfl, rfl, rfl, rfl, rfl, rfl, rfl, rfl, rfl, rfl, rfl, rfl⟩

@[simp] theorem markBoundUndefined_changes (s : State) :
    (markBoundUndefined s).slots = s.slots.map (fun x => if x.bound then { x with undef := true } else x) := by
  rfl

@[simp] theorem markBoundUndefined_keeps (s : State) :
    (markBoundUndefined s).params = s.params ∧ (markBoundUndefined s).arb = s.arb ∧ (markBoundUndefined s).cfg = s.cfg ∧
    (markBoundUndefined s).seq = s.seq ∧ (markBoundUndefined s).irq = s.irq ∧ (markBoundUndefined s).resp = s.resp ∧
    (markBoundUndefined s).timers = s.timers ∧ (markBoundUndefined s).nvic = s.nvic ∧ (markBoundUndefined s).gpio = s.gpio ∧
    (markBoundUndefined s).adc = s.adc ∧ (markBoundUndefined s).host = s.host ∧ (markBoundUndefined s).sched = s.sched ∧
    (markBoundUndefined s).steps = s.steps ∧ (markBoundUndefined s).trace = s.trace ∧ (markBoundUndefined s).marks = s.marks := by
  refine ⟨rfl, rfl, rfl, rfl, rfl, rfl, rfl, rfl, rfl, rfl, rfl, rfl, rfl, rfl, rfl⟩

@[simp] theorem countUp_changes (t : TimerId) (s : State) :
    (countUp t s).arb = update s.arb t { lookup s.arb t with count := (lookup s.arb t).count + 1#4 } := by
  rfl

@[simp] theorem countUp_keeps (t : TimerId) (s : State) :
    (countUp t s).params = s.params ∧ (countUp t s).slots = s.slots ∧ (countUp t s).cfg = s.cfg ∧
    (countUp t s).seq = s.seq ∧ (countUp t s).irq = s.irq ∧ (countUp t s).resp = s.resp ∧
    (countUp t s).timers = s.timers ∧ (countUp t s).nvic = s.nvic ∧ (countUp t s).gpio = s.gpio ∧
    (countUp t s).adc = s.adc ∧ (countUp t s).host = s.host ∧ (countUp t s).sched = s.sched ∧
    (countUp t s).steps = s.steps ∧ (countUp t s).trace = s.trace ∧ (countUp t s).marks = s.marks := by
  refine ⟨rfl, rfl, rfl, rfl, rfl, rfl, rfl, rfl, rfl, rfl, rfl, rfl, rfl, rfl, rfl⟩

@[simp] theorem countDown_changes (t : TimerId) (s : State) :
    (countDown t s).arb = update s.arb t { lookup s.arb t with count := (lookup s.arb t).count - 1#4 } := by
  rfl

@[simp] theorem countDown_keeps (t : TimerId) (s : State) :
    (countDown t s).params = s.params ∧ (countDown t s).slots = s.slots ∧ (countDown t s).cfg = s.cfg ∧
    (countDown t s).seq = s.seq ∧ (countDown t s).irq = s.irq ∧ (countDown t s).resp = s.resp ∧
    (countDown t s).timers = s.timers ∧ (countDown t s).nvic = s.nvic ∧ (countDown t s).gpio = s.gpio ∧
    (countDown t s).adc = s.adc ∧ (countDown t s).host = s.host ∧ (countDown t s).sched = s.sched ∧
    (countDown t s).steps = s.steps ∧ (countDown t s).trace = s.trace ∧ (countDown t s).marks = s.marks := by
  refine ⟨rfl, rfl, rfl, rfl, rfl, rfl, rfl, rfl, rfl, rfl, rfl, rfl, rfl, rfl, rfl⟩

@[simp] theorem setRun_changes (t : TimerId) (v : Bool) (s : State) :
    (setRun t v s).arb = update s.arb t { lookup s.arb t with run := v } := by
  rfl

@[simp] theorem setRun_keeps (t : TimerId) (v : Bool) (s : State) :
    (setRun t v s).params = s.params ∧ (setRun t v s).slots = s.slots ∧ (setRun t v s).cfg = s.cfg ∧
    (setRun t v s).seq = s.seq ∧ (setRun t v s).irq = s.irq ∧ (setRun t v s).resp = s.resp ∧
    (setRun t v s).timers = s.timers ∧ (setRun t v s).nvic = s.nvic ∧ (setRun t v s).gpio = s.gpio ∧
    (setRun t v s).adc = s.adc ∧ (setRun t v s).host = s.host ∧ (setRun t v s).sched = s.sched ∧
    (setRun t v s).steps = s.steps ∧ (setRun t v s).trace = s.trace ∧ (setRun t v s).marks = s.marks := by
  refine ⟨rfl, rfl, rfl, rfl, rfl, rfl, rfl, rfl, rfl, rfl, rfl, rfl, rfl, rfl, rfl⟩

@[simp] theorem record_changes (c : Call) (s : State) :
    (record c s).trace = c :: s.trace := by
  rfl

@[simp] theorem record_keeps (c : Call) (s : State) :
    (record c s).params = s.params ∧ (record c s).slots = s.slots ∧ (record c s).arb = s.arb ∧
    (record c s).cfg = s.cfg ∧ (record c s).seq = s.seq ∧ (record c s).irq = s.irq ∧
    (record c s).resp = s.resp ∧ (record c s).timers = s.timers ∧ (record c s).nvic = s.nvic ∧
    (record c s).gpio = s.gpio ∧ (record c s).adc = s.adc ∧ (record c s).host = s.host ∧
    (record c s).sched = s.sched ∧ (record c s).steps = s.steps ∧ (record c s).marks = s.marks := by
  refine ⟨rfl, rfl, rfl, rfl, rfl, rfl, rfl, rfl, rfl, rfl, rfl, rfl, rfl, rfl, rfl⟩

@[simp] theorem gpioModeOutput_changes (p : Word) (s : State) :
    (gpioModeOutput p s).gpio = { s.gpio with outputs := insertNat p.toNat s.gpio.outputs } ∧
    (gpioModeOutput p s).trace = .gpioModeOutput p :: s.trace := by
  exact ⟨rfl, rfl⟩

@[simp] theorem gpioModeOutput_keeps (p : Word) (s : State) :
    (gpioModeOutput p s).params = s.params ∧ (gpioModeOutput p s).slots = s.slots ∧ (gpioModeOutput p s).arb = s.arb ∧
    (gpioModeOutput p s).cfg = s.cfg ∧ (gpioModeOutput p s).seq = s.seq ∧ (gpioModeOutput p s).irq = s.irq ∧
    (gpioModeOutput p s).resp = s.resp ∧ (gpioModeOutput p s).timers = s.timers ∧ (gpioModeOutput p s).nvic = s.nvic ∧
    (gpioModeOutput p s).adc = s.adc ∧ (gpioModeOutput p s).host = s.host ∧ (gpioModeOutput p s).sched = s.sched ∧
    (gpioModeOutput p s).steps = s.steps ∧ (gpioModeOutput p s).marks = s.marks := by
  refine ⟨rfl, rfl, rfl, rfl, rfl, rfl, rfl, rfl, rfl, rfl, rfl, rfl, rfl, rfl⟩

@[simp] theorem gpioWrite_changes (p : Word) (l : Level) (s : State) :
    (gpioWrite p l s).gpio = setLevel s.gpio p l ∧
    (gpioWrite p l s).trace = .gpioWrite p l :: s.trace := by
  exact ⟨rfl, rfl⟩

@[simp] theorem gpioWrite_keeps (p : Word) (l : Level) (s : State) :
    (gpioWrite p l s).params = s.params ∧ (gpioWrite p l s).slots = s.slots ∧ (gpioWrite p l s).arb = s.arb ∧
    (gpioWrite p l s).cfg = s.cfg ∧ (gpioWrite p l s).seq = s.seq ∧ (gpioWrite p l s).irq = s.irq ∧
    (gpioWrite p l s).resp = s.resp ∧ (gpioWrite p l s).timers = s.timers ∧ (gpioWrite p l s).nvic = s.nvic ∧
    (gpioWrite p l s).adc = s.adc ∧ (gpioWrite p l s).host = s.host ∧ (gpioWrite p l s).sched = s.sched ∧
    (gpioWrite p l s).steps = s.steps ∧ (gpioWrite p l s).marks = s.marks := by
  refine ⟨rfl, rfl, rfl, rfl, rfl, rfl, rfl, rfl, rfl, rfl, rfl, rfl, rfl, rfl⟩

@[simp] theorem nvicEnable_changes (t : TimerId) (s : State) :
    (nvicEnable t s).nvic = update s.nvic t { lookup s.nvic t with en := true } ∧
    (nvicEnable t s).trace = .nvicEnable (irqLineOf s.params t) :: s.trace := by
  exact ⟨rfl, rfl⟩

@[simp] theorem nvicEnable_keeps (t : TimerId) (s : State) :
    (nvicEnable t s).params = s.params ∧ (nvicEnable t s).slots = s.slots ∧ (nvicEnable t s).arb = s.arb ∧
    (nvicEnable t s).cfg = s.cfg ∧ (nvicEnable t s).seq = s.seq ∧ (nvicEnable t s).irq = s.irq ∧
    (nvicEnable t s).resp = s.resp ∧ (nvicEnable t s).timers = s.timers ∧ (nvicEnable t s).gpio = s.gpio ∧
    (nvicEnable t s).adc = s.adc ∧ (nvicEnable t s).host = s.host ∧ (nvicEnable t s).sched = s.sched ∧
    (nvicEnable t s).steps = s.steps ∧ (nvicEnable t s).marks = s.marks := by
  refine ⟨rfl, rfl, rfl, rfl, rfl, rfl, rfl, rfl, rfl, rfl, rfl, rfl, rfl, rfl⟩

@[simp] theorem nvicDisable_changes (t : TimerId) (s : State) :
    (nvicDisable t s).nvic = update s.nvic t { lookup s.nvic t with en := false } ∧
    (nvicDisable t s).trace = .nvicDisable (irqLineOf s.params t) :: s.trace := by
  exact ⟨rfl, rfl⟩

@[simp] theorem nvicDisable_keeps (t : TimerId) (s : State) :
    (nvicDisable t s).params = s.params ∧ (nvicDisable t s).slots = s.slots ∧ (nvicDisable t s).arb = s.arb ∧
    (nvicDisable t s).cfg = s.cfg ∧ (nvicDisable t s).seq = s.seq ∧ (nvicDisable t s).irq = s.irq ∧
    (nvicDisable t s).resp = s.resp ∧ (nvicDisable t s).timers = s.timers ∧ (nvicDisable t s).gpio = s.gpio ∧
    (nvicDisable t s).adc = s.adc ∧ (nvicDisable t s).host = s.host ∧ (nvicDisable t s).sched = s.sched ∧
    (nvicDisable t s).steps = s.steps ∧ (nvicDisable t s).marks = s.marks := by
  refine ⟨rfl, rfl, rfl, rfl, rfl, rfl, rfl, rfl, rfl, rfl, rfl, rfl, rfl, rfl⟩

@[simp] theorem nvicSetPriority_changes (t : TimerId) (q : Word) (s : State) :
    (nvicSetPriority t q s).nvic = update s.nvic t { lookup s.nvic t with prio := q } ∧
    (nvicSetPriority t q s).trace = .nvicSetPriority (irqLineOf s.params t) q :: s.trace := by
  exact ⟨rfl, rfl⟩

@[simp] theorem nvicSetPriority_keeps (t : TimerId) (q : Word) (s : State) :
    (nvicSetPriority t q s).params = s.params ∧ (nvicSetPriority t q s).slots = s.slots ∧ (nvicSetPriority t q s).arb = s.arb ∧
    (nvicSetPriority t q s).cfg = s.cfg ∧ (nvicSetPriority t q s).seq = s.seq ∧ (nvicSetPriority t q s).irq = s.irq ∧
    (nvicSetPriority t q s).resp = s.resp ∧ (nvicSetPriority t q s).timers = s.timers ∧ (nvicSetPriority t q s).gpio = s.gpio ∧
    (nvicSetPriority t q s).adc = s.adc ∧ (nvicSetPriority t q s).host = s.host ∧ (nvicSetPriority t q s).sched = s.sched ∧
    (nvicSetPriority t q s).steps = s.steps ∧ (nvicSetPriority t q s).marks = s.marks := by
  refine ⟨rfl, rfl, rfl, rfl, rfl, rfl, rfl, rfl, rfl, rfl, rfl, rfl, rfl, rfl⟩

@[simp] theorem nvicClearPending_changes (t : TimerId) (s : State) :
    (nvicClearPending t s).trace = .nvicClearPending (irqLineOf s.params t) :: s.trace := by
  rfl

@[simp] theorem nvicClearPending_keeps (t : TimerId) (s : State) :
    (nvicClearPending t s).params = s.params ∧ (nvicClearPending t s).slots = s.slots ∧ (nvicClearPending t s).arb = s.arb ∧
    (nvicClearPending t s).cfg = s.cfg ∧ (nvicClearPending t s).seq = s.seq ∧ (nvicClearPending t s).irq = s.irq ∧
    (nvicClearPending t s).resp = s.resp ∧ (nvicClearPending t s).timers = s.timers ∧ (nvicClearPending t s).nvic = s.nvic ∧
    (nvicClearPending t s).gpio = s.gpio ∧ (nvicClearPending t s).adc = s.adc ∧ (nvicClearPending t s).host = s.host ∧
    (nvicClearPending t s).sched = s.sched ∧ (nvicClearPending t s).steps = s.steps ∧ (nvicClearPending t s).marks = s.marks := by
  refine ⟨rfl, rfl, rfl, rfl, rfl, rfl, rfl, rfl, rfl, rfl, rfl, rfl, rfl, rfl, rfl⟩

@[simp] theorem setTimer_changes (t : TimerId) (f : TimerRegs → TimerRegs) (s : State) :
    (setTimer t f s).timers = update s.timers t (f (lookup s.timers t)) := by
  rfl

@[simp] theorem setTimer_keeps (t : TimerId) (f : TimerRegs → TimerRegs) (s : State) :
    (setTimer t f s).params = s.params ∧ (setTimer t f s).slots = s.slots ∧ (setTimer t f s).arb = s.arb ∧
    (setTimer t f s).cfg = s.cfg ∧ (setTimer t f s).seq = s.seq ∧ (setTimer t f s).irq = s.irq ∧
    (setTimer t f s).resp = s.resp ∧ (setTimer t f s).nvic = s.nvic ∧ (setTimer t f s).gpio = s.gpio ∧
    (setTimer t f s).adc = s.adc ∧ (setTimer t f s).host = s.host ∧ (setTimer t f s).sched = s.sched ∧
    (setTimer t f s).steps = s.steps ∧ (setTimer t f s).trace = s.trace ∧ (setTimer t f s).marks = s.marks := by
  refine ⟨rfl, rfl, rfl, rfl, rfl, rfl, rfl, rfl, rfl, rfl, rfl, rfl, rfl, rfl, rfl⟩

@[simp] theorem timerMode_changes (t : TimerId) (v : Word) (s : State) :
    (timerMode t v s).timers = update s.timers t { lookup s.timers t with mode := v } ∧
    (timerMode t v s).trace = .timerMode t v :: s.trace := by
  exact ⟨rfl, rfl⟩

@[simp] theorem timerMode_keeps (t : TimerId) (v : Word) (s : State) :
    (timerMode t v s).params = s.params ∧ (timerMode t v s).slots = s.slots ∧ (timerMode t v s).arb = s.arb ∧
    (timerMode t v s).cfg = s.cfg ∧ (timerMode t v s).seq = s.seq ∧ (timerMode t v s).irq = s.irq ∧
    (timerMode t v s).resp = s.resp ∧ (timerMode t v s).nvic = s.nvic ∧ (timerMode t v s).gpio = s.gpio ∧
    (timerMode t v s).adc = s.adc ∧ (timerMode t v s).host = s.host ∧ (timerMode t v s).sched = s.sched ∧
    (timerMode t v s).steps = s.steps ∧ (timerMode t v s).marks = s.marks := by
  refine ⟨rfl, rfl, rfl, rfl, rfl, rfl, rfl, rfl, rfl, rfl, rfl, rfl, rfl, rfl⟩

@[simp] theorem timerPrescaler_changes (t : TimerId) (v : Word) (s : State) :
    (timerPrescaler t v s).timers = update s.timers t { lookup s.timers t with presc := v } ∧
    (timerPrescaler t v s).trace = .timerPrescaler t v :: s.trace := by
  exact ⟨rfl, rfl⟩

@[simp] theorem timerPrescaler_keeps (t : TimerId) (v : Word) (s : State) :
    (timerPrescaler t v s).params = s.params ∧ (timerPrescaler t v s).slots = s.slots ∧ (timerPrescaler t v s).arb = s.arb ∧
    (timerPrescaler t v s).cfg = s.cfg ∧ (timerPrescaler t v s).seq = s.seq ∧ (timerPrescaler t v s).irq = s.irq ∧
    (timerPrescaler t v s).resp = s.resp ∧ (timerPrescaler t v s).nvic = s.nvic ∧ (timerPrescaler t v s).gpio = s.gpio ∧
    (timerPrescaler t v s).adc = s.adc ∧ (timerPrescaler t v s).host = s.host ∧ (timerPrescaler t v s).sched = s.sched ∧
    (timerPrescaler t v s).steps = s.steps ∧ (timerPrescaler t v s).marks = s.marks := by
  refine ⟨rfl, rfl, rfl, rfl, rfl, rfl, rfl, rfl, rfl, rfl, rfl, rfl, rfl, rfl⟩

@[simp] theorem timerBitMode_changes (t : TimerId) (b : CounterWidth) (s : State) :
    (timerBitMode t b s).timers = update s.timers t { lookup s.timers t with bitMode := b } ∧
    (timerBitMode t b s).trace = .timerBitMode t b :: s.trace := by
  exact ⟨rfl, rfl⟩

@[simp] theorem timerBitMode_keeps (t : TimerId) (b : CounterWidth) (s : State) :
    (timerBitMode t b s).params = s.params ∧ (timerBitMode t b s).slots = s.slots ∧ (timerBitMode t b s).arb = s.arb ∧
    (timerBitMode t b s).cfg = s.cfg ∧ (timerBitMode t b s).seq = s.seq ∧ (timerBitMode t b s).irq = s.irq ∧
    (timerBitMode t b s).resp = s.resp ∧ (timerBitMode t b s).nvic = s.nvic ∧ (timerBitMode t b s).gpio = s.gpio ∧
    (timerBitMode t b s).adc = s.adc ∧ (timerBitMode t b s).host = s.host ∧ (timerBitMode t b s).sched = s.sched ∧
    (timerBitMode t b s).steps = s.steps ∧ (timerBitMode t b s).marks = s.marks := by
  refine ⟨rfl, rfl, rfl, rfl, rfl, rfl, rfl, rfl, rfl, rfl, rfl, rfl, rfl, rfl⟩

@[simp] theorem timerCc_changes (t : TimerId) (k : Nat) (v : Word) (s : State) :
    (timerCc t k v s).timers = update s.timers t (setComp k (fun c => { c with cc := v }) (lookup s.timers t)) ∧
    (timerCc t k v s).trace = .timerCc t k v :: s.trace := by
  exact ⟨rfl, rfl⟩

@[simp] theorem timerCc_keeps (t : TimerId) (k : Nat) (v : Word) (s : State) :
    (timerCc t k v s).params = s.params ∧ (timerCc t k v s).slots = s.slots ∧ (timerCc t k v s).arb = s.arb ∧
    (timerCc t k v s).cfg = s.cfg ∧ (timerCc t k v s).seq = s.seq ∧ (timerCc t k v s).irq = s.irq ∧
    (timerCc t k v s).resp = s.resp ∧ (timerCc t k v s).nvic = s.nvic ∧ (timerCc t k v s).gpio = s.gpio ∧
    (timerCc t k v s).adc = s.adc ∧ (timerCc t k v s).host = s.host ∧ (timerCc t k v s).sched = s.sched ∧
    (timerCc t k v s).steps = s.steps ∧ (timerCc t k v s).marks = s.marks := by
  refine ⟨rfl, rfl, rfl, rfl, rfl, rfl, rfl, rfl, rfl, rfl, rfl, rfl, rfl, rfl⟩

@[simp] theorem timerIntenSet_changes (t : TimerId) (k : Nat) (s : State) :
    (timerIntenSet t k s).timers = update s.timers t (setComp k (fun c => { c with inten := true }) (lookup s.timers t)) ∧
    (timerIntenSet t k s).trace = .timerIntenSet t k :: s.trace := by
  exact ⟨rfl, rfl⟩

@[simp] theorem timerIntenSet_keeps (t : TimerId) (k : Nat) (s : State) :
    (timerIntenSet t k s).params = s.params ∧ (timerIntenSet t k s).slots = s.slots ∧ (timerIntenSet t k s).arb = s.arb ∧
    (timerIntenSet t k s).cfg = s.cfg ∧ (timerIntenSet t k s).seq = s.seq ∧ (timerIntenSet t k s).irq = s.irq ∧
    (timerIntenSet t k s).resp = s.resp ∧ (timerIntenSet t k s).nvic = s.nvic ∧ (timerIntenSet t k s).gpio = s.gpio ∧
    (timerIntenSet t k s).adc = s.adc ∧ (timerIntenSet t k s).host = s.host ∧ (timerIntenSet t k s).sched = s.sched ∧
    (timerIntenSet t k s).steps = s.steps ∧ (timerIntenSet t k s).marks = s.marks := by
  refine ⟨rfl, rfl, rfl, rfl, rfl, rfl, rfl, rfl, rfl, rfl, rfl, rfl, rfl, rfl⟩

@[simp] theorem timerStart_changes (t : TimerId) (s : State) :
    (timerStart t s).timers = update s.timers t { lookup s.timers t with run := true } ∧
    (timerStart t s).trace = .timerStart t :: s.trace := by
  exact ⟨rfl, rfl⟩

@[simp] theorem timerStart_keeps (t : TimerId) (s : State) :
    (timerStart t s).params = s.params ∧ (timerStart t s).slots = s.slots ∧ (timerStart t s).arb = s.arb ∧
    (timerStart t s).cfg = s.cfg ∧ (timerStart t s).seq = s.seq ∧ (timerStart t s).irq = s.irq ∧
    (timerStart t s).resp = s.resp ∧ (timerStart t s).nvic = s.nvic ∧ (timerStart t s).gpio = s.gpio ∧
    (timerStart t s).adc = s.adc ∧ (timerStart t s).host = s.host ∧ (timerStart t s).sched = s.sched ∧
    (timerStart t s).steps = s.steps ∧ (timerStart t s).marks = s.marks := by
  refine ⟨rfl, rfl, rfl, rfl, rfl, rfl, rfl, rfl, rfl, rfl, rfl, rfl, rfl, rfl⟩

@[simp] theorem timerStop_changes (t : TimerId) (s : State) :
    (timerStop t s).timers = update s.timers t { lookup s.timers t with run := false } ∧
    (timerStop t s).trace = .timerStop t :: s.trace := by
  exact ⟨rfl, rfl⟩

@[simp] theorem timerStop_keeps (t : TimerId) (s : State) :
    (timerStop t s).params = s.params ∧ (timerStop t s).slots = s.slots ∧ (timerStop t s).arb = s.arb ∧
    (timerStop t s).cfg = s.cfg ∧ (timerStop t s).seq = s.seq ∧ (timerStop t s).irq = s.irq ∧
    (timerStop t s).resp = s.resp ∧ (timerStop t s).nvic = s.nvic ∧ (timerStop t s).gpio = s.gpio ∧
    (timerStop t s).adc = s.adc ∧ (timerStop t s).host = s.host ∧ (timerStop t s).sched = s.sched ∧
    (timerStop t s).steps = s.steps ∧ (timerStop t s).marks = s.marks := by
  refine ⟨rfl, rfl, rfl, rfl, rfl, rfl, rfl, rfl, rfl, rfl, rfl, rfl, rfl, rfl⟩

@[simp] theorem timerClear_changes (t : TimerId) (s : State) :
    (timerClear t s).timers = update s.timers t { lookup s.timers t with cnt := 0#16 } ∧
    (timerClear t s).trace = .timerClear t :: s.trace := by
  exact ⟨rfl, rfl⟩

@[simp] theorem timerClear_keeps (t : TimerId) (s : State) :
    (timerClear t s).params = s.params ∧ (timerClear t s).slots = s.slots ∧ (timerClear t s).arb = s.arb ∧
    (timerClear t s).cfg = s.cfg ∧ (timerClear t s).seq = s.seq ∧ (timerClear t s).irq = s.irq ∧
    (timerClear t s).resp = s.resp ∧ (timerClear t s).nvic = s.nvic ∧ (timerClear t s).gpio = s.gpio ∧
    (timerClear t s).adc = s.adc ∧ (timerClear t s).host = s.host ∧ (timerClear t s).sched = s.sched ∧
    (timerClear t s).steps = s.steps ∧ (timerClear t s).marks = s.marks := by
  refine ⟨rfl, rfl, rfl, rfl, rfl, rfl, rfl, rfl, rfl, rfl, rfl, rfl, rfl, rfl⟩

@[simp] theorem timerEventClear_changes (t : TimerId) (k : Nat) (s : State) :
    (timerEventClear t k s).timers = update s.timers t (setComp k (fun c => { c with ev := false }) (lookup s.timers t)) ∧
    (timerEventClear t k s).trace = .timerEventClear t k :: s.trace := by
  exact ⟨rfl, rfl⟩

@[simp] theorem timerEventClear_keeps (t : TimerId) (k : Nat) (s : State) :
    (timerEventClear t k s).params = s.params ∧ (timerEventClear t k s).slots = s.slots ∧ (timerEventClear t k s).arb = s.arb ∧
    (timerEventClear t k s).cfg = s.cfg ∧ (timerEventClear t k s).seq = s.seq ∧ (timerEventClear t k s).irq = s.irq ∧
    (timerEventClear t k s).resp = s.resp ∧ (timerEventClear t k s).nvic = s.nvic ∧ (timerEventClear t k s).gpio = s.gpio ∧
    (timerEventClear t k s).adc = s.adc ∧ (timerEventClear t k s).host = s.host ∧ (timerEventClear t k s).sched = s.sched ∧
    (timerEventClear t k s).steps = s.steps ∧ (timerEventClear t k s).marks = s.marks := by
  refine ⟨rfl, rfl, rfl, rfl, rfl, rfl, rfl, rfl, rfl, rfl, rfl, rfl, rfl, rfl⟩

@[simp] theorem startTimer_changes (t : TimerId) (s : State) :
    (startTimer t s).arb = update s.arb t { lookup s.arb t with run := true } ∧
    (startTimer t s).timers = update s.timers t { lookup s.timers t with run := true } ∧
    (startTimer t s).trace = .timerStart t :: s.trace := by
  exact ⟨rfl, rfl, rfl⟩

@[simp] theorem startTimer_keeps (t : TimerId) (s : State) :
    (startTimer t s).params = s.params ∧ (startTimer t s).slots = s.slots ∧ (startTimer t s).cfg = s.cfg ∧
    (startTimer t s).seq = s.seq ∧ (startTimer t s).irq = s.irq ∧ (startTimer t s).resp = s.resp ∧
    (startTimer t s).nvic = s.nvic ∧ (startTimer t s).gpio = s.gpio ∧ (startTimer t s).adc = s.adc ∧
    (startTimer t s).host = s.host ∧ (startTimer t s).sched = s.sched ∧ (startTimer t s).steps = s.steps ∧
    (startTimer t s).marks = s.marks := by
  refine ⟨rfl, rfl, rfl, rfl, rfl, rfl, rfl, rfl, rfl, rfl, rfl, rfl, rfl⟩

@[simp] theorem stopTimer_changes (t : TimerId) (s : State) :
    (stopTimer t s).arb = update s.arb t { lookup s.arb t with run := false } ∧
    (stopTimer t s).timers = update s.timers t { lookup s.timers t with run := false } ∧
    (stopTimer t s).trace = .timerStop t :: s.trace := by
  exact ⟨rfl, rfl, rfl⟩

@[simp] theorem stopTimer_keeps (t : TimerId) (s : State) :
    (stopTimer t s).params = s.params ∧ (stopTimer t s).slots = s.slots ∧ (stopTimer t s).cfg = s.cfg ∧
    (stopTimer t s).seq = s.seq ∧ (stopTimer t s).irq = s.irq ∧ (stopTimer t s).resp = s.resp ∧
    (stopTimer t s).nvic = s.nvic ∧ (stopTimer t s).gpio = s.gpio ∧ (stopTimer t s).adc = s.adc ∧
    (stopTimer t s).host = s.host ∧ (stopTimer t s).sched = s.sched ∧ (stopTimer t s).steps = s.steps ∧
    (stopTimer t s).marks = s.marks := by
  refine ⟨rfl, rfl, rfl, rfl, rfl, rfl, rfl, rfl, rfl, rfl, rfl, rfl, rfl⟩

@[simp] theorem adcEnable_changes (v : Bool) (s : State) :
    (adcEnable v s).adc = { s.adc with en := v } ∧
    (adcEnable v s).trace = .adcEnable v :: s.trace := by
  exact ⟨rfl, rfl⟩

@[simp] theorem adcEnable_keeps (v : Bool) (s : State) :
    (adcEnable v s).params = s.params ∧ (adcEnable v s).slots = s.slots ∧ (adcEnable v s).arb = s.arb ∧
    (adcEnable v s).cfg = s.cfg ∧ (adcEnable v s).seq = s.seq ∧ (adcEnable v s).irq = s.irq ∧
    (adcEnable v s).resp = s.resp ∧ (adcEnable v s).timers = s.timers ∧ (adcEnable v s).nvic = s.nvic ∧
    (adcEnable v s).gpio = s.gpio ∧ (adcEnable v s).host = s.host ∧ (adcEnable v s).sched = s.sched ∧
    (adcEnable v s).steps = s.steps ∧ (adcEnable v s).marks = s.marks := by
  refine ⟨rfl, rfl, rfl, rfl, rfl, rfl, rfl, rfl, rfl, rfl, rfl, rfl, rfl, rfl⟩

@[simp] theorem adcConfigure_changes (w : Word) (s : State) :
    (adcConfigure w s).adc = { s.adc with cfg := w } ∧
    (adcConfigure w s).trace = .adcConfig w :: s.trace := by
  exact ⟨rfl, rfl⟩

@[simp] theorem adcConfigure_keeps (w : Word) (s : State) :
    (adcConfigure w s).params = s.params ∧ (adcConfigure w s).slots = s.slots ∧ (adcConfigure w s).arb = s.arb ∧
    (adcConfigure w s).cfg = s.cfg ∧ (adcConfigure w s).seq = s.seq ∧ (adcConfigure w s).irq = s.irq ∧
    (adcConfigure w s).resp = s.resp ∧ (adcConfigure w s).timers = s.timers ∧ (adcConfigure w s).nvic = s.nvic ∧
    (adcConfigure w s).gpio = s.gpio ∧ (adcConfigure w s).host = s.host ∧ (adcConfigure w s).sched = s.sched ∧
    (adcConfigure w s).steps = s.steps ∧ (adcConfigure w s).marks = s.marks := by
  refine ⟨rfl, rfl, rfl, rfl, rfl, rfl, rfl, rfl, rfl, rfl, rfl, rfl, rfl, rfl⟩

@[simp] theorem adcStart_changes (s : State) :
    (adcStart s).adc = { s.adc with busy := true, ended := false } ∧
    (adcStart s).trace = .adcStart :: s.trace := by
  exact ⟨rfl, rfl⟩

@[simp] theorem adcStart_keeps (s : State) :
    (adcStart s).params = s.params ∧ (adcStart s).slots = s.slots ∧ (adcStart s).arb = s.arb ∧
    (adcStart s).cfg = s.cfg ∧ (adcStart s).seq = s.seq ∧ (adcStart s).irq = s.irq ∧
    (adcStart s).resp = s.resp ∧ (adcStart s).timers = s.timers ∧ (adcStart s).nvic = s.nvic ∧
    (adcStart s).gpio = s.gpio ∧ (adcStart s).host = s.host ∧ (adcStart s).sched = s.sched ∧
    (adcStart s).steps = s.steps ∧ (adcStart s).marks = s.marks := by
  refine ⟨rfl, rfl, rfl, rfl, rfl, rfl, rfl, rfl, rfl, rfl, rfl, rfl, rfl, rfl⟩

@[simp] theorem goto_changes (l : FgStep) (s : State) :
    (goto l s).seq = { s.seq with step := l } := by
  rfl

@[simp] theorem goto_keeps (l : FgStep) (s : State) :
    (goto l s).params = s.params ∧ (goto l s).slots = s.slots ∧ (goto l s).arb = s.arb ∧
    (goto l s).cfg = s.cfg ∧ (goto l s).irq = s.irq ∧ (goto l s).resp = s.resp ∧
    (goto l s).timers = s.timers ∧ (goto l s).nvic = s.nvic ∧ (goto l s).gpio = s.gpio ∧
    (goto l s).adc = s.adc ∧ (goto l s).host = s.host ∧ (goto l s).sched = s.sched ∧
    (goto l s).steps = s.steps ∧ (goto l s).trace = s.trace ∧ (goto l s).marks = s.marks := by
  refine ⟨rfl, rfl, rfl, rfl, rfl, rfl, rfl, rfl, rfl, rfl, rfl, rfl, rfl, rfl, rfl⟩

@[simp] theorem setScan_changes (n : Nat) (s : State) :
    (setScan n s).seq = { s.seq with scan := n } := by
  rfl

@[simp] theorem setScan_keeps (n : Nat) (s : State) :
    (setScan n s).params = s.params ∧ (setScan n s).slots = s.slots ∧ (setScan n s).arb = s.arb ∧
    (setScan n s).cfg = s.cfg ∧ (setScan n s).irq = s.irq ∧ (setScan n s).resp = s.resp ∧
    (setScan n s).timers = s.timers ∧ (setScan n s).nvic = s.nvic ∧ (setScan n s).gpio = s.gpio ∧
    (setScan n s).adc = s.adc ∧ (setScan n s).host = s.host ∧ (setScan n s).sched = s.sched ∧
    (setScan n s).steps = s.steps ∧ (setScan n s).trace = s.trace ∧ (setScan n s).marks = s.marks := by
  refine ⟨rfl, rfl, rfl, rfl, rfl, rfl, rfl, rfl, rfl, rfl, rfl, rfl, rfl, rfl, rfl⟩

@[simp] theorem finish_changes (s : State) :
    (finish s).seq = { s.seq with step := .idle } ∧
    (finish s).resp = { s.resp with done := true } := by
  exact ⟨rfl, rfl⟩

@[simp] theorem finish_keeps (s : State) :
    (finish s).params = s.params ∧ (finish s).slots = s.slots ∧ (finish s).arb = s.arb ∧
    (finish s).cfg = s.cfg ∧ (finish s).irq = s.irq ∧ (finish s).timers = s.timers ∧
    (finish s).nvic = s.nvic ∧ (finish s).gpio = s.gpio ∧ (finish s).adc = s.adc ∧
    (finish s).host = s.host ∧ (finish s).sched = s.sched ∧ (finish s).steps = s.steps ∧
    (finish s).trace = s.trace ∧ (finish s).marks = s.marks := by
  refine ⟨rfl, rfl, rfl, rfl, rfl, rfl, rfl, rfl, rfl, rfl, rfl, rfl, rfl, rfl⟩

@[simp] theorem finishRead_changes (s : State) :
    (finishRead s).seq = { s.seq with step := .idle } ∧
    (finishRead s).resp = { s.resp with done := true, respValid := true } := by
  exact ⟨rfl, rfl⟩

@[simp] theorem finishRead_keeps (s : State) :
    (finishRead s).params = s.params ∧ (finishRead s).slots = s.slots ∧ (finishRead s).arb = s.arb ∧
    (finishRead s).cfg = s.cfg ∧ (finishRead s).irq = s.irq ∧ (finishRead s).timers = s.timers ∧
    (finishRead s).nvic = s.nvic ∧ (finishRead s).gpio = s.gpio ∧ (finishRead s).adc = s.adc ∧
    (finishRead s).host = s.host ∧ (finishRead s).sched = s.sched ∧ (finishRead s).steps = s.steps ∧
    (finishRead s).trace = s.trace ∧ (finishRead s).marks = s.marks := by
  refine ⟨rfl, rfl, rfl, rfl, rfl, rfl, rfl, rfl, rfl, rfl, rfl, rfl, rfl, rfl⟩

@[simp] theorem accept_changes (w : CommandWord) (l : FgStep) (s : State) :
    (accept w l s).seq = { s.seq with fgOp := opField w, fgA := aField w, fgB := bField w, step := l } := by
  rfl

@[simp] theorem accept_keeps (w : CommandWord) (l : FgStep) (s : State) :
    (accept w l s).params = s.params ∧ (accept w l s).slots = s.slots ∧ (accept w l s).arb = s.arb ∧
    (accept w l s).cfg = s.cfg ∧ (accept w l s).irq = s.irq ∧ (accept w l s).resp = s.resp ∧
    (accept w l s).timers = s.timers ∧ (accept w l s).nvic = s.nvic ∧ (accept w l s).gpio = s.gpio ∧
    (accept w l s).adc = s.adc ∧ (accept w l s).host = s.host ∧ (accept w l s).sched = s.sched ∧
    (accept w l s).steps = s.steps ∧ (accept w l s).trace = s.trace ∧ (accept w l s).marks = s.marks := by
  refine ⟨rfl, rfl, rfl, rfl, rfl, rfl, rfl, rfl, rfl, rfl, rfl, rfl, rfl, rfl, rfl⟩

@[simp] theorem enterHandler_changes (t : TimerId) (s : State) :
    (enterHandler t s).irq = ⟨some t, 0⟩ := by
  rfl

@[simp] theorem enterHandler_keeps (t : TimerId) (s : State) :
    (enterHandler t s).params = s.params ∧ (enterHandler t s).slots = s.slots ∧ (enterHandler t s).arb = s.arb ∧
    (enterHandler t s).cfg = s.cfg ∧ (enterHandler t s).seq = s.seq ∧ (enterHandler t s).resp = s.resp ∧
    (enterHandler t s).timers = s.timers ∧ (enterHandler t s).nvic = s.nvic ∧ (enterHandler t s).gpio = s.gpio ∧
    (enterHandler t s).adc = s.adc ∧ (enterHandler t s).host = s.host ∧ (enterHandler t s).sched = s.sched ∧
    (enterHandler t s).steps = s.steps ∧ (enterHandler t s).trace = s.trace ∧ (enterHandler t s).marks = s.marks := by
  refine ⟨rfl, rfl, rfl, rfl, rfl, rfl, rfl, rfl, rfl, rfl, rfl, rfl, rfl, rfl, rfl⟩

@[simp] theorem leaveHandler_changes (s : State) :
    (leaveHandler s).irq = { s.irq with active := none } := by
  rfl

@[simp] theorem leaveHandler_keeps (s : State) :
    (leaveHandler s).params = s.params ∧ (leaveHandler s).slots = s.slots ∧ (leaveHandler s).arb = s.arb ∧
    (leaveHandler s).cfg = s.cfg ∧ (leaveHandler s).seq = s.seq ∧ (leaveHandler s).resp = s.resp ∧
    (leaveHandler s).timers = s.timers ∧ (leaveHandler s).nvic = s.nvic ∧ (leaveHandler s).gpio = s.gpio ∧
    (leaveHandler s).adc = s.adc ∧ (leaveHandler s).host = s.host ∧ (leaveHandler s).sched = s.sched ∧
    (leaveHandler s).steps = s.steps ∧ (leaveHandler s).trace = s.trace ∧ (leaveHandler s).marks = s.marks := by
  refine ⟨rfl, rfl, rfl, rfl, rfl, rfl, rfl, rfl, rfl, rfl, rfl, rfl, rfl, rfl, rfl⟩

@[simp] theorem setIrqK_changes (k : Nat) (s : State) :
    (setIrqK k s).irq = { s.irq with k := k } := by
  rfl

@[simp] theorem setIrqK_keeps (k : Nat) (s : State) :
    (setIrqK k s).params = s.params ∧ (setIrqK k s).slots = s.slots ∧ (setIrqK k s).arb = s.arb ∧
    (setIrqK k s).cfg = s.cfg ∧ (setIrqK k s).seq = s.seq ∧ (setIrqK k s).resp = s.resp ∧
    (setIrqK k s).timers = s.timers ∧ (setIrqK k s).nvic = s.nvic ∧ (setIrqK k s).gpio = s.gpio ∧
    (setIrqK k s).adc = s.adc ∧ (setIrqK k s).host = s.host ∧ (setIrqK k s).sched = s.sched ∧
    (setIrqK k s).steps = s.steps ∧ (setIrqK k s).trace = s.trace ∧ (setIrqK k s).marks = s.marks := by
  refine ⟨rfl, rfl, rfl, rfl, rfl, rfl, rfl, rfl, rfl, rfl, rfl, rfl, rfl, rfl, rfl⟩

@[simp] theorem clearStrobes_changes (s : State) :
    (clearStrobes s).resp = { s.resp with done := false, respValid := false } := by
  rfl

@[simp] theorem clearStrobes_keeps (s : State) :
    (clearStrobes s).params = s.params ∧ (clearStrobes s).slots = s.slots ∧ (clearStrobes s).arb = s.arb ∧
    (clearStrobes s).cfg = s.cfg ∧ (clearStrobes s).seq = s.seq ∧ (clearStrobes s).irq = s.irq ∧
    (clearStrobes s).timers = s.timers ∧ (clearStrobes s).nvic = s.nvic ∧ (clearStrobes s).gpio = s.gpio ∧
    (clearStrobes s).adc = s.adc ∧ (clearStrobes s).host = s.host ∧ (clearStrobes s).sched = s.sched ∧
    (clearStrobes s).steps = s.steps ∧ (clearStrobes s).trace = s.trace ∧ (clearStrobes s).marks = s.marks := by
  refine ⟨rfl, rfl, rfl, rfl, rfl, rfl, rfl, rfl, rfl, rfl, rfl, rfl, rfl, rfl, rfl⟩

@[simp] theorem storeWriteResolution_changes (b : Word) (s : State) :
    (storeWriteResolution b s).cfg = { s.cfg with writeRes := (writeResolution b).1, bitWidth := (writeResolution b).2.1, halfScale := (writeResolution b).2.2 } := by
  rfl

@[simp] theorem storeWriteResolution_keeps (b : Word) (s : State) :
    (storeWriteResolution b s).params = s.params ∧ (storeWriteResolution b s).slots = s.slots ∧ (storeWriteResolution b s).arb = s.arb ∧
    (storeWriteResolution b s).seq = s.seq ∧ (storeWriteResolution b s).irq = s.irq ∧ (storeWriteResolution b s).resp = s.resp ∧
    (storeWriteResolution b s).timers = s.timers ∧ (storeWriteResolution b s).nvic = s.nvic ∧ (storeWriteResolution b s).gpio = s.gpio ∧
    (storeWriteResolution b s).adc = s.adc ∧ (storeWriteResolution b s).host = s.host ∧ (storeWriteResolution b s).sched = s.sched ∧
    (storeWriteResolution b s).steps = s.steps ∧ (storeWriteResolution b s).trace = s.trace ∧ (storeWriteResolution b s).marks = s.marks := by
  refine ⟨rfl, rfl, rfl, rfl, rfl, rfl, rfl, rfl, rfl, rfl, rfl, rfl, rfl, rfl, rfl⟩

@[simp] theorem markResolutionChanged_changes (s : State) :
    (markResolutionChanged s).marks = { s.marks with resolutionChanged := true } := by
  rfl

@[simp] theorem markResolutionChanged_keeps (s : State) :
    (markResolutionChanged s).params = s.params ∧ (markResolutionChanged s).slots = s.slots ∧ (markResolutionChanged s).arb = s.arb ∧
    (markResolutionChanged s).cfg = s.cfg ∧ (markResolutionChanged s).seq = s.seq ∧ (markResolutionChanged s).irq = s.irq ∧
    (markResolutionChanged s).resp = s.resp ∧ (markResolutionChanged s).timers = s.timers ∧ (markResolutionChanged s).nvic = s.nvic ∧
    (markResolutionChanged s).gpio = s.gpio ∧ (markResolutionChanged s).adc = s.adc ∧ (markResolutionChanged s).host = s.host ∧
    (markResolutionChanged s).sched = s.sched ∧ (markResolutionChanged s).steps = s.steps ∧ (markResolutionChanged s).trace = s.trace := by
  refine ⟨rfl, rfl, rfl, rfl, rfl, rfl, rfl, rfl, rfl, rfl, rfl, rfl, rfl, rfl, rfl⟩

@[simp] theorem markReservedCommand_changes (s : State) :
    (markReservedCommand s).marks = { s.marks with reservedCommand := true } := by
  rfl

@[simp] theorem markReservedCommand_keeps (s : State) :
    (markReservedCommand s).params = s.params ∧ (markReservedCommand s).slots = s.slots ∧ (markReservedCommand s).arb = s.arb ∧
    (markReservedCommand s).cfg = s.cfg ∧ (markReservedCommand s).seq = s.seq ∧ (markReservedCommand s).irq = s.irq ∧
    (markReservedCommand s).resp = s.resp ∧ (markReservedCommand s).timers = s.timers ∧ (markReservedCommand s).nvic = s.nvic ∧
    (markReservedCommand s).gpio = s.gpio ∧ (markReservedCommand s).adc = s.adc ∧ (markReservedCommand s).host = s.host ∧
    (markReservedCommand s).sched = s.sched ∧ (markReservedCommand s).steps = s.steps ∧ (markReservedCommand s).trace = s.trace := by
  refine ⟨rfl, rfl, rfl, rfl, rfl, rfl, rfl, rfl, rfl, rfl, rfl, rfl, rfl, rfl, rfl⟩

@[simp] theorem beginStep_changes (s : State) :
    (beginStep s).sched = s.sched.tail ∧
    (beginStep s).steps = s.steps + 1 ∧
    (beginStep s).resp = { s.resp with done := false, respValid := false } := by
  exact ⟨rfl, rfl, rfl⟩

@[simp] theorem beginStep_keeps (s : State) :
    (beginStep s).params = s.params ∧ (beginStep s).slots = s.slots ∧ (beginStep s).arb = s.arb ∧
    (beginStep s).cfg = s.cfg ∧ (beginStep s).seq = s.seq ∧ (beginStep s).irq = s.irq ∧
    (beginStep s).timers = s.timers ∧ (beginStep s).nvic = s.nvic ∧ (beginStep s).gpio = s.gpio ∧
    (beginStep s).adc = s.adc ∧ (beginStep s).host = s.host ∧ (beginStep s).trace = s.trace ∧
    (beginStep s).marks = s.marks := by
  refine ⟨rfl, rfl, rfl, rfl, rfl, rfl, rfl, rfl, rfl, rfl, rfl, rfl, rfl⟩

end Sys2Proof.Machine
end

