-- ==== Sys2Proof/Laws/Ops.lean ====
section
/-! SUPPORT. What the shared operations do, said once: the two-element tables, the slot table, the comparators, the sorted
pin sets, the command word. -/

namespace Sys2Proof.Machine

/-! ### The two-element tables -/

@[simp] theorem lookup_update {α : Type} (x : PerTimer α) (t t' : TimerId) (v : α) :
    lookup (update x t v) t' = if t = t' then v else lookup x t' := by
  cases t <;> cases t' <;> rfl

theorem perTimer_ext {α : Type} {x y : PerTimer α} (h : ∀ t, lookup x t = lookup y t) : x = y := by
  cases x; cases y
  have h0 := h .t0
  have h1 := h .t1
  simp only [lookup] at h0 h1
  simp [h0, h1]

/-! ### The slot table -/

theorem slotAt_eq {s s' : State} (h : s'.slots = s.slots) (j : Nat) : slotAt s' j = slotAt s j := by
  simp [slotAt, h]

theorem slotAt_mem {s : State} {i : Nat} (h : i < s.slots.length) : slotAt s i ∈ s.slots := by
  simp [slotAt, h]

theorem slotAt_out {s : State} {i : Nat} (h : s.slots.length ≤ i) : slotAt s i = Slot.free := by
  simp [slotAt, h]

theorem mem_slots_iff {s : State} {x : Slot} : x ∈ s.slots ↔ ∃ i < s.slots.length, slotAt s i = x := by
  rw [List.mem_iff_getElem]
  constructor
  · rintro ⟨i, hi, rfl⟩
    exact ⟨i, hi, by simp [slotAt, hi]⟩
  · rintro ⟨i, hi, rfl⟩
    exact ⟨i, hi, by simp [slotAt, hi]⟩

@[simp] theorem slotFree_not_bound : Slot.free.bound = false := by decide

theorem bound_iff {x : Slot} : x.bound = true ↔ x.pin ≠ pinFree := by simp [Slot.bound]

theorem bound_lt {s : State} {i : Nat} (h : (slotAt s i).bound = true) : i < s.slots.length := by
  by_contra hge
  simp [slotAt_out (Nat.le_of_not_lt hge)] at h

theorem slotAt_setSlot (i j : Nat) (f : Slot → Slot) (s : State) :
    slotAt (setSlot i f s) j = if i = j ∧ j < s.slots.length then f (slotAt s j) else slotAt s j := by
  unfold slotAt
  simp only [setSlot_changes, List.getElem?_modify]
  by_cases hj : j < s.slots.length <;> by_cases hij : i = j <;> simp [hj, hij]

theorem slotAt_setSlot_self {i : Nat} (f : Slot → Slot) {s : State} (h : i < s.slots.length) :
    slotAt (setSlot i f s) i = f (slotAt s i) := by
  simp [slotAt_setSlot, h]

theorem slotAt_setSlot_other {i j : Nat} (f : Slot → Slot) (s : State) (h : i ≠ j) :
    slotAt (setSlot i f s) j = slotAt s j := by
  simp [slotAt_setSlot, h]

@[simp] theorem setSlot_length (i : Nat) (f : Slot → Slot) (s : State) :
    (setSlot i f s).slots.length = s.slots.length := by simp

theorem slotAt_markBoundUndefined (s : State) (j : Nat) :
    slotAt (markBoundUndefined s) j =
      if (slotAt s j).bound then { slotAt s j with undef := true } else slotAt s j := by
  unfold slotAt
  simp only [markBoundUndefined_changes, List.getElem?_map]
  by_cases hj : j < s.slots.length
  · simp [hj]
  · simp [hj]

/-! ### Comparators -/

theorem compAt_setComp (k j : Nat) (f : Comparator → Comparator) (r : TimerRegs) :
    compAt (setComp k f r) j = if k = j ∧ j < r.comps.length then f (compAt r j) else compAt r j := by
  unfold compAt setComp
  simp only [List.getElem?_modify]
  by_cases hj : j < r.comps.length <;> by_cases hkj : k = j <;> simp [hj, hkj]

@[simp] theorem setComp_length (k : Nat) (f : Comparator → Comparator) (r : TimerRegs) :
    (setComp k f r).comps.length = r.comps.length := by simp [setComp]

@[simp] theorem setComp_keeps (k : Nat) (f : Comparator → Comparator) (r : TimerRegs) :
    (setComp k f r).mode = r.mode ∧ (setComp k f r).presc = r.presc ∧ (setComp k f r).bitMode = r.bitMode ∧
    (setComp k f r).run = r.run ∧ (setComp k f r).cnt = r.cnt := by
  refine ⟨rfl, rfl, rfl, rfl, rfl⟩

/-! ### Sorted sets of pins -/

@[simp] theorem mem_insertNat (n m : Nat) (l : List Nat) : m ∈ insertNat n l ↔ m = n ∨ m ∈ l := by
  induction l with
  | nil => simp [insertNat]
  | cons x xs ih =>
    unfold insertNat
    split
    · simp
    · split
      · subst_vars; simp
      · simp [ih]; tauto

@[simp] theorem mem_eraseNat (n m : Nat) (l : List Nat) : m ∈ eraseNat n l ↔ m ∈ l ∧ m ≠ n := by
  simp [eraseNat]

theorem insertNat_rising (n : Nat) {l : List Nat} (h : l.Pairwise (· < ·)) : (insertNat n l).Pairwise (· < ·) := by
  induction l with
  | nil => simp [insertNat]
  | cons x xs ih =>
    rw [List.pairwise_cons] at h
    unfold insertNat
    split
    case isTrue hlt =>
      rw [List.pairwise_cons]
      refine ⟨?_, List.pairwise_cons.mpr h⟩
      intro a ha
      rcases List.mem_cons.mp ha with rfl | ha
      · exact hlt
      · exact Nat.lt_trans hlt (h.1 a ha)
    case isFalse hlt =>
      split
      case isTrue => exact List.pairwise_cons.mpr h
      case isFalse hne =>
        rw [List.pairwise_cons]
        refine ⟨?_, ih h.2⟩
        intro a ha
        rcases (mem_insertNat n a xs).mp ha with rfl | ha
        · omega
        · exact h.1 a ha

theorem eraseNat_rising (n : Nat) {l : List Nat} (h : l.Pairwise (· < ·)) : (eraseNat n l).Pairwise (· < ·) :=
  h.filter _

/-! ### Pins -/

theorem levelOf_eq {s s' : State} (h : s'.gpio = s.gpio) (q : Word) : levelOf s' q = levelOf s q := by
  simp [levelOf, h]

theorem levelOf_setLevel (s : State) (p q : Word) (l : Level) :
    levelOf { s with gpio := setLevel s.gpio p l } q = if q = p then l else levelOf s q := by
  by_cases h : q = p
  · subst h
    cases l <;> simp [levelOf, setLevel]
  · have h' : q.toNat ≠ p.toNat := fun e => h (BitVec.eq_of_toNat_eq e)
    cases l <;> simp [levelOf, setLevel, h, h']

@[simp] theorem levelOf_gpioWrite (p q : Word) (l : Level) (s : State) :
    levelOf (gpioWrite p l s) q = if q = p then l else levelOf s q := by
  rw [← levelOf_setLevel s p q l]
  exact levelOf_eq rfl q

@[simp] theorem isOutput_gpioModeOutput (p q : Word) (s : State) :
    isOutput (gpioModeOutput p s) q = (decide (q = p) || isOutput s q) := by
  by_cases h : q = p
  · subst h; simp [isOutput]
  · have h' : q.toNat ≠ p.toNat := fun e => h (BitVec.eq_of_toNat_eq e)
    simp [isOutput, h, h']

theorem setLevel_rising {g : Gpio} (h : g.high.Pairwise (· < ·)) (p : Word) (l : Level) :
    (setLevel g p l).high.Pairwise (· < ·) := by
  cases l
  · exact eraseNat_rising _ h
  · exact insertNat_rising _ h

@[simp] theorem setLevel_outputs (g : Gpio) (p : Word) (l : Level) : (setLevel g p l).outputs = g.outputs := by
  cases l <;> rfl

/-! ### The command word -/

@[simp] theorem opField_packCommand (op : BitVec 8) (a b : Word) : opField (packCommand op a b) = op := by
  unfold opField packCommand
  ext i hi
  rw [BitVec.getElem_extractLsb', BitVec.getLsbD_append, BitVec.getLsbD_append]
  simp [BitVec.getLsbD_eq_getElem, hi, show ¬ (64 + i < 32) by omega, show ¬ (64 + i - 32 < 32) by omega,
    show 64 + i - 32 - 32 = i by omega]

@[simp] theorem aField_packCommand (op : BitVec 8) (a b : Word) : aField (packCommand op a b) = a := by
  unfold aField packCommand
  ext i hi
  rw [BitVec.getElem_extractLsb', BitVec.getLsbD_append, BitVec.getLsbD_append]
  simp [BitVec.getLsbD_eq_getElem, hi, show ¬ (32 + i < 32) by omega, show 32 + i - 32 = i by omega]

@[simp] theorem bField_packCommand (op : BitVec 8) (a b : Word) : bField (packCommand op a b) = b := by
  unfold bField packCommand
  ext i hi
  rw [BitVec.getElem_extractLsb', BitVec.getLsbD_append]
  simp [BitVec.getLsbD_eq_getElem, hi]

theorem packCommand_fields (w : CommandWord) : packCommand (opField w) (aField w) (bField w) = w := by
  unfold opField aField bField packCommand
  ext i hi
  rw [BitVec.getElem_append]
  split
  · simp [BitVec.getLsbD_eq_getElem, hi]
  · rw [BitVec.getElem_append]
    split
    · simp [show 32 + (i - 32) = i by omega, BitVec.getLsbD_eq_getElem, hi]
    · simp [show 64 + (i - 32 - 32) = i by omega, BitVec.getLsbD_eq_getElem, hi]

@[simp] theorem opField_encode (i : Instr) : opField (encode i) = i.opcode := by simp [encode]

@[simp] theorem aField_encode (i : Instr) : aField (encode i) = i.operandA := by simp [encode]

@[simp] theorem bField_encode (i : Instr) : bField (encode i) = i.operandB := by simp [encode]

end Sys2Proof.Machine
end

