-- ==== Sys2Proof/Laws/Step.lean ====
section
/-! SUPPORT. What one step can do, said once: the inversion of a turn of the foreground sequencer, and what a turn of the
dispatcher, of a timer, of the ADC can change. -/

namespace Sys2Proof.Machine

/-! ### Decoding the latched word -/

@[simp] theorem opField_latchedWord (s : State) : opField (latchedWord s) = s.seq.fgOp := by simp [latchedWord]

@[simp] theorem aField_latchedWord (s : State) : aField (latchedWord s) = s.seq.fgA := by simp [latchedWord]

@[simp] theorem bField_latchedWord (s : State) : bField (latchedWord s) = s.seq.fgB := by simp [latchedWord]

/-- Every command latches its own word. -/
theorem decode_eq_ok {w : CommandWord} {i : Instr} (h : decode w = .ok i) :
    opField w = i.opcode ∧ aField w = i.operandA ∧ bField w = i.operandB := by
  unfold decode decodeFields at h
  split at h
  · cases h; exact ⟨‹_›, rfl, rfl⟩
  · split at h
    · cases h; exact ⟨‹_›, rfl, rfl⟩
    · split at h
      · cases h; exact ⟨‹_›, rfl, rfl⟩
      · split at h
        · cases h; exact ⟨‹_›, rfl, rfl⟩
        · split at h
          · cases h; exact ⟨‹_›, rfl, rfl⟩
          · cases h

theorem decode_eq_error {w : CommandWord} {e : DecodeError} (h : decode w = .error e) :
    e = .reservedOpcode (opField w) ∧ (opField w = 0x00#8 ∨ 6 ≤ (opField w).toNat) := by
  unfold decode decodeFields at h
  split at h
  · cases h
  · split at h
    · cases h
    · split at h
      · cases h
      · split at h
        · cases h
        · split at h
          · cases h
          · refine ⟨by cases h; rfl, ?_⟩
            simp only [← BitVec.toNat_inj, BitVec.toNat_ofNat, Nat.reducePow, Nat.reduceMod] at *
            omega

/-! ### The foreground sequencer -/

/-- The state after command `i` is accepted. -/
def acceptedState (i : Instr) (s : State) : State :=
  match i with
  | .setrres _ _ => accept (encode i) .rr0 s
  | .setref _ _  => accept (encode i) .rf0 s
  | .read _ _    => accept (encode i) (.read .rd0) s
  | .setwres _ _ => acceptSetwres (encode i) s
  | .write _ _   => accept (encode i) (.write .w0) s

theorem exec_idle {i : Instr} {s : State} (h : s.seq.step = .idle) : exec i s = .next (acceptedState i s) := by
  cases i <;> simp [exec, execSetrres, execSetref, execRead, execSetwres, execWrite, h, acceptedState]

/-- One micro-step of the foreground sequencer, whatever the command. -/
inductive MicroStep (s : State) : State → Prop where
  | rr0 (h : s.seq.step = .rr0) : MicroStep s (stepRR0 s)
  | rf0 (h : s.seq.step = .rf0) : MicroStep s (stepRF0 s)
  | sw0 (h : s.seq.step = .sw0) : MicroStep s (stepSW0 s)
  | read (l : ReadStep) (h : s.seq.step = .read l) : MicroStep s (readStep l s)
  | write (l : WriteStep) (s' : State) (h : s.seq.step = .write l) (e : writeStep l s = .next s') : MicroStep s s'
  | reserved (h : s.seq.step = .reserved) : MicroStep s (finish s)

/-- What a turn of the foreground sequencer can do. -/
inductive ForegroundStep (s : State) : State → Prop where
  /-- A handler executes, or there is no command. -/
  | none : ForegroundStep s s
  | accept (w : CommandWord) (rest : List CommandWord) (i : Instr) (hr : Ready s) (hh : s.host = w :: rest)
      (hd : decode w = .ok i) : ForegroundStep s (acceptedState i { s with host := rest })
  | acceptReserved (w : CommandWord) (rest : List CommandWord) (hr : Ready s) (hh : s.host = w :: rest)
      (hd : decode w = .error (.reservedOpcode (opField w))) :
      ForegroundStep s (acceptReserved w { s with host := rest })
  | micro (s' : State) (hn : s.irq.active = none) (hi : s.seq.step ≠ .idle) (hm : MicroStep s s') :
      ForegroundStep s s'

theorem exec_micro {i : Instr} {s s' : State} (hi : s.seq.step ≠ .idle) (h : exec i s = .next s') :
    MicroStep s s' := by
  cases i <;> simp only [exec, execSetrres, execSetref, execRead, execSetwres, execWrite] at h <;>
    split at h <;> first | contradiction | skip
  · cases h; exact .rr0 ‹_›
  · cases h; exact .rf0 ‹_›
  · cases h; exact .read _ ‹_›
  · cases h; exact .sw0 ‹_›
  · exact .write _ _ ‹_› h

theorem foregroundTurn_cases {s s' : State} (h : foregroundTurn s = .next s') : ForegroundStep s s' := by
  unfold foregroundTurn at h
  split at h
  · cases h; exact .none
  · rename_i hn
    split at h
    · rename_i hi
      unfold acceptTurn at h
      split at h
      · cases h; exact .none
      · rename_i w rest hh
        split at h
        · rename_i i hd
          rw [exec_idle (s := { s with host := rest }) hi] at h
          cases h
          exact .accept w rest i ⟨hi, hn⟩ hh hd
        · rename_i e hd
          cases h
          obtain ⟨rfl, -⟩ := decode_eq_error hd
          exact .acceptReserved w rest ⟨hi, hn⟩ hh hd
    · rename_i hi
      refine .micro s' hn hi ?_
      unfold microTurn at h
      split at h
      · exact exec_micro hi h
      · unfold stepReserved at h
        split at h
        · cases h; exact .reserved ‹_›
        · cases h

/-! ### The dispatcher -/

/-- What driving one slot's pin leaves unchanged. -/
@[simp] theorem driveSlot_keeps (i : Nat) (rule : Slot → Option Level) (s : State) :
    (driveSlot i rule s).params = s.params ∧ (driveSlot i rule s).slots = s.slots ∧
    (driveSlot i rule s).arb = s.arb ∧ (driveSlot i rule s).cfg = s.cfg ∧ (driveSlot i rule s).seq = s.seq ∧
    (driveSlot i rule s).irq = s.irq ∧ (driveSlot i rule s).resp = s.resp ∧
    (driveSlot i rule s).timers = s.timers ∧ (driveSlot i rule s).nvic = s.nvic ∧
    (driveSlot i rule s).gpio.outputs = s.gpio.outputs ∧ (driveSlot i rule s).adc = s.adc ∧
    (driveSlot i rule s).host = s.host ∧ (driveSlot i rule s).sched = s.sched ∧
    (driveSlot i rule s).steps = s.steps ∧ (driveSlot i rule s).marks = s.marks := by
  unfold driveSlot
  dsimp only
  split
  · split
    · simp
    · split <;> simp
  · simp

@[simp] theorem foldl_driveSlot_keeps (rule : Slot → Option Level) (l : List Nat) (s : State) :
    (l.foldl (fun s i => driveSlot i rule s) s).params = s.params ∧
    (l.foldl (fun s i => driveSlot i rule s) s).slots = s.slots ∧
    (l.foldl (fun s i => driveSlot i rule s) s).arb = s.arb ∧
    (l.foldl (fun s i => driveSlot i rule s) s).cfg = s.cfg ∧
    (l.foldl (fun s i => driveSlot i rule s) s).seq = s.seq ∧
    (l.foldl (fun s i => driveSlot i rule s) s).irq = s.irq ∧
    (l.foldl (fun s i => driveSlot i rule s) s).resp = s.resp ∧
    (l.foldl (fun s i => driveSlot i rule s) s).timers = s.timers ∧
    (l.foldl (fun s i => driveSlot i rule s) s).nvic = s.nvic ∧
    (l.foldl (fun s i => driveSlot i rule s) s).gpio.outputs = s.gpio.outputs ∧
    (l.foldl (fun s i => driveSlot i rule s) s).adc = s.adc ∧
    (l.foldl (fun s i => driveSlot i rule s) s).host = s.host ∧
    (l.foldl (fun s i => driveSlot i rule s) s).sched = s.sched ∧
    (l.foldl (fun s i => driveSlot i rule s) s).steps = s.steps ∧
    (l.foldl (fun s i => driveSlot i rule s) s).marks = s.marks := by
  induction l generalizing s with
  | nil => simp
  | cons i l ih => simpa using ih (driveSlot i rule s)

/-- The timers after event `k` of timer `t` is serviced: at most the flag of that event is cleared. -/
theorem serviceEvent_timers (t : TimerId) (k : Nat) (s : State) :
    (serviceEvent t k s).timers = s.timers ∨
    (serviceEvent t k s).timers =
      update s.timers t (setComp k (fun c => { c with ev := false }) (lookup s.timers t)) := by
  unfold serviceEvent
  split
  · right
    split
    · subst_vars; simp [driveCycleStart]
    · simp
  · exact .inl rfl

@[simp] theorem serviceEvent_keeps (t : TimerId) (k : Nat) (s : State) :
    (serviceEvent t k s).params = s.params ∧ (serviceEvent t k s).slots = s.slots ∧
    (serviceEvent t k s).arb = s.arb ∧ (serviceEvent t k s).cfg = s.cfg ∧ (serviceEvent t k s).seq = s.seq ∧
    (serviceEvent t k s).irq = s.irq ∧ (serviceEvent t k s).resp = s.resp ∧ (serviceEvent t k s).nvic = s.nvic ∧
    (serviceEvent t k s).gpio.outputs = s.gpio.outputs ∧ (serviceEvent t k s).adc = s.adc ∧
    (serviceEvent t k s).host = s.host ∧ (serviceEvent t k s).sched = s.sched ∧
    (serviceEvent t k s).steps = s.steps ∧ (serviceEvent t k s).marks = s.marks := by
  unfold serviceEvent
  split
  · split <;> simp [driveCycleStart]
  · simp

/-- What a turn of the dispatcher of timer `t` can do. -/
inductive DispatcherStep (t : TimerId) (s : State) : State → Prop where
  | none : DispatcherStep t s s
  | enter (h : entryEnabled s t = true) : DispatcherStep t s (enterHandler t s)
  | service (h : s.irq.active = some t) (hk : s.irq.k ≤ s.params.nCu) :
      DispatcherStep t s (setIrqK (s.irq.k + 1) (serviceEvent t s.irq.k s))
  | leave (h : s.irq.active = some t) (hk : s.params.nCu < s.irq.k) : DispatcherStep t s (leaveHandler s)

theorem dispatcherTurn_cases (t : TimerId) (s : State) : DispatcherStep t s (dispatcherTurn t s) := by
  unfold dispatcherTurn
  split
  · split
    · exact .enter ‹_›
    · exact .none
  · rename_i t' ht
    split
    · rename_i e; subst e
      unfold handlerStep
      split
      · exact .service ht ‹_›
      · exact .leave ht (by omega)
    · exact .none

/-! ### A whole step -/

/-- What one step can do: a turn of one agent on the state with the step begun. -/
inductive AgentStep (s : State) : State → Prop where
  | foreground (s' : State) (h : ForegroundStep s s') : AgentStep s s'
  | dispatcher (t : TimerId) (s' : State) (h : DispatcherStep t s s') : AgentStep s s'
  | tick (t : TimerId) : AgentStep s (tickTurn t s)
  | adcComplete (raw : Word) : AgentStep s (adcCompleteTurn raw s)
  | timerEvent (t : TimerId) (k : Nat) : AgentStep s (timerEventTurn t k s)
  | undefinedPin (i : Nat) (l : Level) : AgentStep s (undefinedPinTurn i l s)

theorem step_cases {s s' : State} (h : step s = .next s') : AgentStep (beginStep s) s' := by
  unfold step takeTurn at h
  split at h
  · exact .foreground _ (foregroundTurn_cases h)
  · cases h; exact .dispatcher _ _ (dispatcherTurn_cases _ _)
  · cases h; exact .tick _
  · cases h; exact .adcComplete _
  · cases h; exact .timerEvent _ _
  · cases h; exact .undefinedPin _ _

end Sys2Proof.Machine
end

