-- ==== Sys2Proof/Laws/Alloc.lean ====
section
/-! SUPPORT. The slot search, the binding of pins and the count of bound slots: the facts about the allocator's tables that
its invariants rest on. -/

namespace Sys2Proof.Machine

/-! ### Slot search -/

theorem boundTo_some {s : State} {p : Word} {i : Nat} (h : boundTo s p = some i) :
    i < s.slots.length ∧ (slotAt s i).pin = p := by
  unfold boundTo at h
  rw [List.findIdx?_eq_some_iff_getElem] at h
  obtain ⟨hi, hp, -⟩ := h
  exact ⟨hi, by simpa [slotAt, hi] using hp⟩

theorem boundTo_none {s : State} {p : Word} (h : boundTo s p = none) : ∀ x ∈ s.slots, x.pin ≠ p := by
  unfold boundTo at h
  rw [List.findIdx?_eq_none_iff] at h
  intro x hx; simpa using h x hx

theorem selectSlot_some {s : State} {p : Word} {i : Nat} (h : selectSlot s p = some i) :
    i < s.slots.length ∧ ((slotAt s i).pin = p ∨ ((slotAt s i).pin = pinFree ∧ ∀ x ∈ s.slots, x.pin ≠ p)) := by
  unfold selectSlot at h
  split at h
  · rename_i j hj
    cases h
    exact ⟨(boundTo_some hj).1, .inl (boundTo_some hj).2⟩
  · rename_i hn
    have := boundTo_some (p := pinFree) h
    exact ⟨this.1, .inr ⟨this.2, boundTo_none hn⟩⟩

theorem selectSlot_none {s : State} {p : Word} (h : selectSlot s p = none) :
    ∀ x ∈ s.slots, x.pin ≠ p ∧ x.bound = true := by
  unfold selectSlot at h
  split at h
  · cases h
  · rename_i hn
    intro x hx
    exact ⟨boundTo_none hn x hx, bound_iff.mpr (boundTo_none (p := pinFree) h x hx)⟩

/-! ### The micro-steps of WRITE, inverted -/

/-- What each micro-step of `WRITE` does; the steps of the allocation path have a slot selected. -/
inductive WriteMove (s : State) : WriteStep → State → Prop where
  | w0 : WriteMove s .w0 (stepW0 s)
  | w1 : WriteMove s .w1 (stepW1 s)
  | w9 : WriteMove s .w9 (finish s)
  | f0 : WriteMove s .f0 (goto (.write .f1) (setScan 0 s))
  | f1 : WriteMove s .f1 (stepF1 s)
  | f2 : WriteMove s .f2 (goto (.write .f3) (freeSlot s.seq.scan s))
  | f3 : WriteMove s .f3 (goto (.write .f4) (countDown (scanTimer s) s))
  | f4 : WriteMove s .f4 (stepF4 s)
  | f5 : WriteMove s .f5 (goto (.write .f1) (setScan (s.seq.scan + 1) s))
  | f6 : WriteMove s .f6 (goto (.write .w9) (gpioWrite s.seq.fgA .low s))
  | s0 : WriteMove s .s0 (stepS0 s)
  | s1 : WriteMove s .s1 (stepS1 s)
  | tp0 : WriteMove s .tp0 (goto (.write .tp1) (nvicDisable (scanTimer s) s))
  | tp1 : WriteMove s .tp1 (goto (.write .tp2) (nvicClearPending (scanTimer s) s))
  | tp2 : WriteMove s .tp2 (goto (.write .tp3) (stopTimer (scanTimer s) s))
  | tp3 : WriteMove s .tp3 (goto (.write .f5) (timerClear (scanTimer s) s))
  | a0 (i : Nat) (hi : s.seq.sel = some i) :
      WriteMove s .a0 (goto (.write .a1) (gpioModeOutput s.seq.fgA s))
  | a1 (i : Nat) (hi : s.seq.sel = some i) :
      WriteMove s .a1 (stepA1 s)
  | a2 (i : Nat) (hi : s.seq.sel = some i) :
      WriteMove s .a2 (goto (.write (afterA2 s)) (setDuty i s.seq.dtmp s))
  | a3 (i : Nat) (hi : s.seq.sel = some i) :
      WriteMove s .a3 (goto (.write (afterA3 s)) (bindSlot i s.seq.fgA s))
  | a4 (i : Nat) (hi : s.seq.sel = some i) :
      WriteMove s .a4 (stepA4 (slotTimer s.params i) s)
  | a5 (i : Nat) (hi : s.seq.sel = some i) :
      WriteMove s .a5 (goto (.write .a6) (timerCc (slotTimer s.params i) (slotEvent s.params i) s.seq.dtmp s))
  | a6 (i : Nat) (hi : s.seq.sel = some i) :
      WriteMove s .a6 (goto (.write .a7) (timerIntenSet (slotTimer s.params i) (slotEvent s.params i) s))
  | a7 (i : Nat) (hi : s.seq.sel = some i) :
      WriteMove s .a7 (stepA7 (slotTimer s.params i) s)
  | ts0 (i : Nat) (hi : s.seq.sel = some i) :
      WriteMove s .ts0 (goto (.write .ts1) (timerMode (slotTimer s.params i) s.params.timerMode s))
  | ts1 (i : Nat) (hi : s.seq.sel = some i) :
      WriteMove s .ts1 (goto (.write .ts2) (timerPrescaler (slotTimer s.params i) s.params.pwmPrescaler s))
  | ts2 (i : Nat) (hi : s.seq.sel = some i) :
      WriteMove s .ts2 (goto (.write .ts3) (timerBitMode (slotTimer s.params i) s.cfg.bitWidth s))
  | ts3 (i : Nat) (hi : s.seq.sel = some i) :
      WriteMove s .ts3 (goto (.write .ts4) (timerCc (slotTimer s.params i) 0 0#32 s))
  | ts4 (i : Nat) (hi : s.seq.sel = some i) :
      WriteMove s .ts4 (goto (.write .ts5) (timerIntenSet (slotTimer s.params i) 0 s))
  | ts5 (i : Nat) (hi : s.seq.sel = some i) :
      WriteMove s .ts5 (goto (.write .ts6) (startTimer (slotTimer s.params i) s))
  | ts6 (i : Nat) (hi : s.seq.sel = some i) :
      WriteMove s .ts6 (goto (.write .ts7) (nvicSetPriority (slotTimer s.params i) s.params.pwmIrqPriority s))
  | ts7 (i : Nat) (hi : s.seq.sel = some i) :
      WriteMove s .ts7 (goto (.write .a5) (nvicEnable (slotTimer s.params i) s))

theorem writeStep_move {l : WriteStep} {s s' : State} (e : writeStep l s = .next s') : WriteMove s l s' := by
  cases l <;> simp only [writeStep, arbiterStep, onSelected] at e <;>
    (try (split at e <;> try contradiction)) <;>
    simp only [allocStep, arbiterStep, Host.Outcome.next.injEq] at e <;> subst e <;>
    constructor <;> assumption

/-! ### Unique binding -/

theorem uniqueBinding_iff {s : State} : UniqueBinding s ↔
    ∀ i j, i < j → j < s.slots.length → (slotAt s i).bound = true → (slotAt s j).bound = true →
      (slotAt s i).pin ≠ (slotAt s j).pin := by
  unfold UniqueBinding
  rw [List.pairwise_iff_getElem]
  constructor
  · intro h i j hij hj
    have hi : i < s.slots.length := by omega
    have := h i j hi hj hij
    simpa [slotAt, hi, hj] using this
  · intro h i j hi hj hij
    have := h i j hij hj
    simpa [slotAt, hi, hj] using this

theorem uniqueBinding_ne {s : State} (h : UniqueBinding s) {i j : Nat} (hij : i ≠ j)
   (bi : (slotAt s i).bound = true) (bj : (slotAt s j).bound = true) : (slotAt s i).pin ≠ (slotAt s j).pin := by
  rw [uniqueBinding_iff] at h
  rcases Nat.lt_or_gt_of_ne hij with hl | hl
  · exact h i j hl (bound_lt bj) bi bj
  · exact fun e => h j i hl (bound_lt bi) bj bi e.symm

/-- The three micro-steps of `WRITE` that store to the slot table (10_state R21, R22). -/
theorem writeStep_slots {l s s'} (hs : s.seq.step = .write l) (e : writeStep l s = .next s') :
   s'.slots = s.slots ∨ (l = .f2 ∧ s'.slots = (freeSlot s.seq.scan s).slots) ∨
   (∃ i, s.seq.sel = some i ∧ ((l = .a2 ∧ s'.slots = (setDuty i s.seq.dtmp s).slots) ∨ (l = .a3 ∧ s'.slots = (bindSlot i s.seq.fgA s).slots))) := by
  cases l <;> simp only [writeStep, arbiterStep, onSelected] at e <;>
   (try (split at e <;> try contradiction)) <;>
   simp only [allocStep, arbiterStep, Host.Outcome.next.injEq] at e <;> subst e <;>
   simp [stepW0, stepW1, stepF1, stepF4, stepS0, stepS1, stepA1, stepA4, stepA7] <;>
   (try (repeat' split)) <;> simp [*]


/-! ### The slots of a timer and their count -/

theorem mem_slotsOf {p : Params} (hp : 1 ≤ p.nCu) {t : TimerId} {i : Nat} :
    i ∈ slotsOf p t ↔ i < p.nSlots ∧ slotTimer p i = t := by
  have key : i / p.nCu = 0 ↔ i < p.nCu := by
    rw [Nat.div_eq_zero_iff]; omega
  cases t <;> simp only [slotsOf, timerNumber, List.mem_range'_1, slotTimer, Params.nSlots, key] <;>
    by_cases h : i < p.nCu <;> simp [h] <;> omega

theorem slotsOf_nodup (p : Params) (t : TimerId) : (slotsOf p t).Nodup := List.nodup_range'

/-- Changing a predicate at one point changes its count over a list without repeats by what it changes there. -/
theorem countP_change_at (i : Nat) (p q : Nat → Bool) (h : ∀ j, j ≠ i → q j = p j) :
    ∀ l : List Nat, l.Nodup →
      l.countP q + (if i ∈ l ∧ p i = true then 1 else 0) = l.countP p + (if i ∈ l ∧ q i = true then 1 else 0)
  | [], _ => by simp
  | a :: l, hn => by
    rw [List.nodup_cons] at hn
    have ih := countP_change_at i p q h l hn.2
    by_cases ha : a = i
    · subst ha
      simp only [hn.1, false_and, if_false, List.countP_cons, List.mem_cons, true_or, true_and] at ih ⊢
      omega
    · have hi : i ∈ a :: l ↔ i ∈ l := by simp [Ne.symm ha]
      simp only [hi, List.countP_cons, h a ha]
      omega

/-- `boundCount` after one row of the slot table changes. -/
theorem boundCount_setSlot {s : State} (hp : 1 ≤ s.params.nCu) (hl : s.slots.length = s.params.nSlots) {i : Nat}
    (hi : i < s.params.nSlots) (f : Slot → Slot) (t : TimerId) :
    boundCount (setSlot i f s) t + (if slotTimer s.params i = t ∧ (slotAt s i).bound = true then 1 else 0) =
      boundCount s t + (if slotTimer s.params i = t ∧ (f (slotAt s i)).bound = true then 1 else 0) := by
  have h := countP_change_at i (fun j => (slotAt s j).bound) (fun j => (slotAt (setSlot i f s) j).bound)
    (fun j hj => by rw [slotAt_setSlot_other f s (Ne.symm hj)]) (slotsOf s.params t) (slotsOf_nodup _ _)
  simp only [mem_slotsOf hp, hi, true_and, slotAt_setSlot_self f (hl ▸ hi : i < s.slots.length)] at h
  exact h

/-- A bound slot of timer `t` makes its count positive. -/
theorem boundCount_pos {s : State} (hp : 1 ≤ s.params.nCu) (hl : s.slots.length = s.params.nSlots) {i : Nat}
    (hb : (slotAt s i).bound = true) : 0 < boundCount s (slotTimer s.params i) := by
  unfold boundCount
  rw [List.countP_pos_iff]
  exact ⟨i, (mem_slotsOf hp).mpr ⟨hl ▸ bound_lt hb, rfl⟩, hb⟩

theorem boundCount_le (s : State) (t : TimerId) : boundCount s t ≤ s.params.nCu := by
  unfold boundCount
  exact Nat.le_trans (List.countP_le_length) (by simp [slotsOf])

theorem boundCount_eq {s s' : State} (hs : s'.slots = s.slots) (hp : s'.params = s.params) (t : TimerId) :
    boundCount s' t = boundCount s t := by
  simp [boundCount, hp, slotAt_eq hs]

end Sys2Proof.Machine
end

