-- ==== Sys2Proof/Laws/Allocator.lean ====
section
/-! SUPPORT. Each micro-step of `WRITE` keeps each part of the allocator's invariant (Safety.lean): one lemma per part. -/

namespace Sys2Proof.Machine

/-! ### Facts about the parameters -/

/-- The sentinel of a free slot is no valid pin (00_scope R13). -/
theorem pinMap_pinFree {p : Params} (h : p.Wf) : pinMap p pinFree = none := by
  have hlen : p.pins.length < 2 ^ 32 - 1 := h.2.1.2
  have hf : pinFree.toNat = 2 ^ 32 - 1 := by decide
  unfold pinMap
  rw [hf, List.getElem?_eq_none (by omega)]

theorem nCu_pos {p : Params} (h : p.Wf) : 1 ≤ p.nCu := h.1.1

theorem nCu_le_four {p : Params} (h : p.Wf) : p.nCu ≤ 4 := by
  have h9 : p.nSlots ≤ 9 := h.1.2
  unfold Params.nSlots at h9
  omega

theorem valid_ne_pinFree {p : Params} (h : p.Wf) {pin : Word} (hv : (pinMap p pin).isSome = true) :
    pin ≠ pinFree := by
  rintro rfl
  simp [pinMap_pinFree h] at hv

/-- A slot is determined by its timer and its event index (10_state R23). -/
theorem slot_of_timer_and_event {p : Params} (hp : 1 ≤ p.nCu) {i j : Nat} (hi : i < p.nSlots) (hj : j < p.nSlots)
    (ht : slotTimer p i = slotTimer p j) (he : slotEvent p i = slotEvent p j) : i = j := by
  unfold slotTimer at ht
  unfold slotEvent slotUnit at he
  have d1 := Nat.div_add_mod i p.nCu
  have d2 := Nat.div_add_mod j p.nCu
  have b1 : i / p.nCu < 2 := by rw [Nat.div_lt_iff_lt_mul (by omega)]; exact hi
  have b2 : j / p.nCu < 2 := by rw [Nat.div_lt_iff_lt_mul (by omega)]; exact hj
  have hq : i / p.nCu = j / p.nCu := by
    generalize i / p.nCu = a at *
    generalize j / p.nCu = b at *
    split at ht <;> split at ht <;> simp at ht <;> omega
  rw [← d1, ← d2, hq]
  omega

theorem slotEvent_pos (p : Params) (i : Nat) : slotEvent p i ≠ 0 := by simp [slotEvent]

theorem slotEvent_le {p : Params} (hp : 1 ≤ p.nCu) (i : Nat) : slotEvent p i ≤ p.nCu := by
  unfold slotEvent slotUnit
  have := Nat.mod_lt i (show 0 < p.nCu by omega)
  omega

theorem comps_length {s : State} (h : ShapeLegal s) (t : TimerId) :
    (lookup s.timers t).comps.length = s.params.nCu + 1 := by
  cases t
  · exact h.2.2.1.1
  · exact h.2.2.1.2

/-! ### Unique binding and valid pins -/

theorem uniqueBinding_write {l : WriteStep} {s s' : State} (hs : s.seq.step = .write l) (h : UniqueBinding s)
    (h4 : selectionSound s = true) (e : writeStep l s = .next s') : UniqueBinding s' := by
  rcases writeStep_slots hs e with h0 | ⟨rfl, h0⟩ | ⟨i, hi, ⟨rfl, h0⟩ | ⟨rfl, h0⟩⟩
  · simpa [UniqueBinding, h0] using h
  all_goals
    rw [uniqueBinding_iff]
    intro j k hjk hk bj bk
    rw [slotAt_eq h0] at bj bk ⊢
    rw [slotAt_eq h0]
    simp only [freeSlot, setDuty, bindSlot, slotAt_setSlot] at bj bk ⊢
    rw [h0] at hk
    simp only [freeSlot_changes, setDuty_changes, bindSlot_changes, List.length_modify] at hk
  · have := @uniqueBinding_ne s h j k (by omega)
    grind [Slot.bound]
  · have := @uniqueBinding_ne s h j k (by omega)
    grind [Slot.bound]
  · have := @uniqueBinding_ne s h j k (by omega)
    have hin : ∀ m < s.slots.length, slotAt s m ∈ s.slots := fun m => slotAt_mem
    simp only [selectionSound, hs, hi] at h4
    simp [beforeBind] at h4
    grind [Slot.bound]

theorem writeStep_params {l : WriteStep} {s s' : State} (e : writeStep l s = .next s') :
    s'.params = s.params ∧ s'.cfg = s.cfg ∧ s'.irq = s.irq ∧ s'.adc = s.adc ∧ s'.host = s.host ∧
    s'.sched = s.sched ∧ s'.steps = s.steps ∧ s'.marks = s.marks ∧ s'.resp.resp = s.resp.resp ∧
    s'.resp.respValid = s.resp.respValid := by
  cases writeStep_move e <;>
    simp [stepW0, stepW1, stepF1, stepF4, stepS0, stepS1, stepA1, stepA4, stepA7] <;>
    (repeat' split) <;> simp

theorem boundPinsValid_write {l : WriteStep} {s s' : State} (hs : s.seq.step = .write l) (h : BoundPinsValid s)
    (hv : writePinValid s = true) (e : writeStep l s = .next s') : BoundPinsValid s' := by
  have key : ∀ j, (slotAt s j).bound = true → (pinMap s.params (slotAt s j).pin).isSome = true :=
    fun j hb => h _ (slotAt_mem (bound_lt hb)) hb
  intro x hx hb
  obtain ⟨j, hj, rfl⟩ := mem_slots_iff.mp hx
  rw [(writeStep_params e).1]
  rcases writeStep_slots hs e with h0 | ⟨rfl, h0⟩ | ⟨i, hi, ⟨rfl, h0⟩ | ⟨rfl, h0⟩⟩
  · rw [slotAt_eq h0] at hb ⊢
    exact key j hb
  all_goals
    rw [slotAt_eq h0] at hb ⊢
    simp only [freeSlot, setDuty, bindSlot, slotAt_setSlot] at hb ⊢
    simp only [writePinValid, hs] at hv
    have := key j
    grind [Slot.bound]

/-! ### COUNT -/

theorem countAgrees_f2 {s : State} (hs : s.seq.step = .write .f2) (t : TimerId) (hcu : 1 ≤ s.params.nCu)
    (hl : s.slots.length = s.params.nSlots) (hin : s.seq.scan < s.params.nSlots)
    (hb : (slotAt s s.seq.scan).bound = true) (h : countAgrees s t = true) :
    countAgrees (goto (.write .f3) (freeSlot s.seq.scan s)) t = true := by
  have := boundCount_setSlot hcu hl (i := s.seq.scan) hin (fun x => { x with pin := pinFree, undef := false }) t
  simp only [countAgrees, hs] at h
  simp [boundNotCounted] at h
  have e2 : boundCount (goto (.write .f3) (freeSlot s.seq.scan s)) t = boundCount (freeSlot s.seq.scan s) t :=
    boundCount_eq (by simp) (by simp) _
  have e3 : scanTimer (goto (.write .f3) (freeSlot s.seq.scan s)) = slotTimer s.params s.seq.scan := rfl
  simp only [countAgrees, goto_changes, goto_keeps, e2, e3, freeSlot_keeps]
  unfold freeSlot
  have hbb : ({ slotAt s s.seq.scan with pin := pinFree, undef := false } : Slot).bound = false := by
    simp [Slot.bound]
  simp only [hb, hbb] at this
  by_cases hst : slotTimer s.params s.seq.scan = t <;> simp_all

theorem countAgrees_f3 {s : State} (hs : s.seq.step = .write .f3) (t : TimerId) (h : countAgrees s t = true) :
    countAgrees (goto (.write .f4) (countDown (scanTimer s) s)) t = true := by
  have hcnt := (lookup s.arb t).count.isLt
  have e2 : boundCount (goto (.write .f4) (countDown (scanTimer s) s)) t = boundCount s t :=
    boundCount_eq (by simp) (by simp) _
  simp only [countAgrees, hs] at h
  simp only [countAgrees, goto_changes, goto_keeps, e2, boundNotCounted, countDown_changes, lookup_update]
  by_cases hst : scanTimer s = t
  · subst hst
    simp at h ⊢
    omega
  · simp_all

theorem countAgrees_a3 {s : State} {i : Nat} (hs : s.seq.step = .write .a3) (hi : s.seq.sel = some i) (t : TimerId)
    (hcu : 1 ≤ s.params.nCu) (hl : s.slots.length = s.params.nSlots) (hin : i < s.params.nSlots)
    (hbA : s.seq.fgA ≠ pinFree) (h4 : selectionSound s = true) (h : countAgrees s t = true) :
    countAgrees (goto (.write (afterA3 s)) (bindSlot i s.seq.fgA s)) t = true := by
  have := boundCount_setSlot hcu hl (i := i) hin (fun x => { x with pin := s.seq.fgA }) t
  have e2 : boundCount (goto (.write (afterA3 s)) (bindSlot i s.seq.fgA s)) t =
      boundCount (bindSlot i s.seq.fgA s) t := boundCount_eq (by simp) (by simp) _
  have hbb : ({ slotAt s i with pin := s.seq.fgA } : Slot).bound = true := by rw [bound_iff]; exact hbA
  simp only [hbb] at this
  simp only [selectionSound, hs, hi] at h4
  simp only [countAgrees, hs] at h
  simp [beforeBind] at h4
  simp [boundNotCounted] at h
  simp only [countAgrees, goto_changes, goto_keeps, e2, bindSlot_keeps]
  unfold bindSlot
  have hsel : selectedOn (goto (.write (afterA3 s)) (setSlot i (fun x => { x with pin := s.seq.fgA }) s)) t =
      (slotTimer s.params i == t) := by simp [selectedOn, hi]
  have hnb : boundNotCounted (goto (.write (afterA3 s)) (setSlot i (fun x => { x with pin := s.seq.fgA }) s))
      (afterA3 s) = s.seq.newBind := by
    cases hbo : s.params.bindOrder <;> simp [afterA3, boundNotCounted, hbo]
  have hbb' : (slotAt s i).bound = !s.seq.newBind := by
    cases hnbv : s.seq.newBind <;> simp [hnbv] at h4 <;> simp [Slot.bound, h4, hbA]
  simp only [hbb'] at this
  cases hbo : s.params.bindOrder <;> simp only [afterA3, hbo] at hsel hnb ⊢ <;> rw [hsel, hnb] <;>
    by_cases hst : slotTimer s.params i = t <;> cases hnbv : s.seq.newBind <;> simp_all

theorem countAgrees_a7 {s : State} {i : Nat} (hs : s.seq.step = .write .a7) (hi : s.seq.sel = some i) (t : TimerId)
    (hle : boundCount s t ≤ 4) (h : countAgrees s t = true) :
    countAgrees (stepA7 (slotTimer s.params i) s) t = true := by
  have hcnt := (lookup s.arb t).count.isLt
  simp only [countAgrees, hs] at h
  simp [boundNotCounted] at h
  have e2 : boundCount (stepA7 (slotTimer s.params i) s) t = boundCount s t := by
    apply boundCount_eq <;> unfold stepA7 <;> split <;> simp
  have e3 : (stepA7 (slotTimer s.params i) s).seq.step = .write .w9 := by unfold stepA7; split <;> simp
  simp only [countAgrees, e3, e2, boundNotCounted]
  unfold stepA7
  simp [selectedOn, hi] at h
  by_cases hst : slotTimer s.params i = t
  · subst hst
    split
    · simp_all; omega
    · simp_all
  · split <;> simp_all

theorem boundCount_setDuty (i : Nat) (v : Word) (s : State) (t : TimerId) :
    boundCount (setDuty i v s) t = boundCount s t := by
  have hbc : (fun j => (slotAt (setDuty i v s) j).bound) = fun j => (slotAt s j).bound := by
    funext j
    unfold setDuty
    rw [slotAt_setSlot]
    split <;> rfl
  unfold boundCount
  rw [hbc]
  simp

theorem countAgrees_write {l : WriteStep} {s s' : State} (hs : s.seq.step = .write l) (hS : ShapeLegal s)
    (hq : SequencerInv s) (t : TimerId) (h : countAgrees s t = true) (h4 : selectionSound s = true)
    (h6 : freeProgress s = true) (hv : writePinValid s = true) (e : writeStep l s = .next s') :
    countAgrees s' t = true := by
  obtain ⟨hp, hl, -, -⟩ := hS
  have hcu := nCu_pos hp
  have hcu4 := nCu_le_four hp
  have hle := boundCount_le s t
  obtain ⟨-, h2⟩ := hq
  simp only [indicesInRange, hs] at h2
  simp only [writePinValid, hs] at hv
  have h := h
  cases writeStep_move e
  case f2 =>
    refine countAgrees_f2 hs t hcu hl (by simpa [onFreedSlot, onAllocPath] using h2) ?_ h
    simp only [freeProgress, hs] at h6
    simp at h6
    rw [bound_iff, h6]
    exact valid_ne_pinFree hp hv
  case f3 => exact countAgrees_f3 hs t h
  case a3 i hi =>
    simp [hi, onFreedSlot, onAllocPath] at h2
    exact countAgrees_a3 hs hi t hcu hl h2 (valid_ne_pinFree hp hv) h4 h
  case a7 i hi => exact countAgrees_a7 hs hi t (by omega) h
  all_goals simp only [countAgrees, hs] at h
  case w0 => unfold stepW0; split <;> simpa [countAgrees, boundNotCounted, boundCount, slotAt] using h
  case w1 => unfold stepW1; split <;> simpa [countAgrees, boundNotCounted, boundCount, slotAt] using h
  case f1 => unfold stepF1; (repeat' split) <;> simpa [countAgrees, boundNotCounted, boundCount, slotAt] using h
  case f4 => unfold stepF4; split <;> simpa [countAgrees, boundNotCounted, boundCount, slotAt] using h
  case s0 => unfold stepS0; split <;> simpa [countAgrees, boundNotCounted, boundCount, slotAt] using h
  case a4 i hi =>
    unfold stepA4; split <;> simpa [countAgrees, boundNotCounted, boundCount, slotAt, selectedOn] using h
  case a1 i hi =>
    unfold stepA1
    cases hbo : s.params.bindOrder <;>
      simpa [countAgrees, boundNotCounted, boundCount, slotAt, selectedOn, afterA1, hbo] using h
  case a2 i hi =>
    have hbc : boundCount (goto (.write (afterA2 s)) (setDuty i s.seq.dtmp s)) t = boundCount s t := by
      rw [← boundCount_setDuty i s.seq.dtmp s t]
      exact boundCount_eq (by simp) (by simp) _
    cases hbo : s.params.bindOrder <;> simp only [countAgrees, hbc] <;>
      simpa [afterA2, boundNotCounted, hbo, selectedOn] using h
  case tp2 =>
    by_cases hst : scanTimer s = t
    · subst hst; simpa [countAgrees, boundNotCounted, boundCount, slotAt, selectedOn] using h
    · simpa [countAgrees, boundNotCounted, boundCount, slotAt, selectedOn, hst] using h
  case ts5 i hi =>
    by_cases hst : slotTimer s.params i = t
    · subst hst; simpa [countAgrees, boundNotCounted, boundCount, slotAt, selectedOn] using h
    · simpa [countAgrees, boundNotCounted, boundCount, slotAt, selectedOn, hst] using h
  all_goals simpa [countAgrees, boundNotCounted, boundCount, slotAt, selectedOn, stepS1] using h

end Sys2Proof.Machine
end

