-- ==== Sys2Proof/Laws/AllocatorPaths.lean ====
section
/-! SUPPORT. Each micro-step of `WRITE` keeps what the allocator's paths know of the pin, the selected slot, the scanned
slot, the timer they start, and the range of the counters. -/

namespace Sys2Proof.Machine

theorem writePinValid_write {l : WriteStep} {s s' : State} (hs : s.seq.step = .write l)
    (h : writePinValid s = true) (e : writeStep l s = .next s') : writePinValid s' = true := by
  simp only [writePinValid, hs] at h
  cases writeStep_move e
  all_goals
    try unfold stepW0
    try unfold stepW1
    try unfold stepF1
    try unfold stepF4
    try unfold stepS0
    try unfold stepS1
    try unfold stepA1
    try unfold stepA4
    try unfold stepA7
    try unfold afterA1
    try unfold afterA2
    try unfold afterA3
    (repeat' split) <;> simp_all [writePinValid]
    try exact Option.isSome_iff_ne_none.mpr ‹_›

theorem freeProgress_write {l : WriteStep} {s s' : State} (hs : s.seq.step = .write l)
    (h : freeProgress s = true) (e : writeStep l s = .next s') : freeProgress s' = true := by
  simp only [freeProgress, hs] at h
  cases writeStep_move e
  all_goals
    try unfold stepW0
    try unfold stepW1
    try unfold stepF1
    try unfold stepF4
    try unfold stepS0
    try unfold stepS1
    try unfold stepA1
    try unfold stepA4
    try unfold stepA7
    try unfold afterA1
    try unfold afterA2
    try unfold afterA3
    (repeat' split) <;> simp_all [freeProgress, scanTimer, slotAt]

theorem startingFirst_write {l : WriteStep} {s s' : State} (hs : s.seq.step = .write l)
    (h : startingFirst s = true) (e : writeStep l s = .next s') : startingFirst s' = true := by
  simp only [startingFirst, hs] at h
  cases writeStep_move e
  all_goals
    try unfold stepW0
    try unfold stepW1
    try unfold stepF1
    try unfold stepF4
    try unfold stepS0
    try unfold stepS1
    try unfold stepA1
    try unfold stepA4
    try unfold stepA7
    try unfold afterA1
    try unfold afterA2
    try unfold afterA3
    (repeat' split) <;> simp_all [startingFirst] <;> grind

theorem startProgress_write {l : WriteStep} {s s' : State} (hs : s.seq.step = .write l) (hS : ShapeLegal s)
    (h : startProgress s = true) (e : writeStep l s = .next s') : startProgress s' = true := by
  simp only [startProgress, hs] at h
  have hlen : ∀ t, 0 < (lookup s.timers t).comps.length := by intro t; rw [comps_length hS t]; omega
  cases writeStep_move e
  case ts3 i hi => simp [startProgress, hi, compAt_setComp, hlen]
  case ts4 i hi => simp_all [startProgress, hi, compAt_setComp, hlen, cycleStartArmed]
  all_goals
    try unfold stepW0
    try unfold stepW1
    try unfold stepF1
    try unfold stepF4
    try unfold stepS0
    try unfold stepS1
    try unfold stepA1
    try unfold stepA4
    try unfold stepA7
    try unfold afterA1
    try unfold afterA2
    try unfold afterA3
    (repeat' split) <;> simp_all [startProgress]

theorem counter_write {l : WriteStep} {s s' : State} (hs : s.seq.step = .write l) (t : TimerId) (h : CounterInv s t)
    (hr : (lookup s.timers t).run = (lookup s.arb t).run) (hr2 : (lookup s.arb t).run = expectedRun s t) (hf : startingFirst s = true)
    (e : writeStep l s = .next s') : CounterInv s' t := by
  obtain ⟨h1, h2⟩ := h
  have h8 : ∀ w, 0 < widthModulus w := by intro w; cases w <;> decide
  cases writeStep_move e
  case ts2 i hi =>
    simp only [startingFirst, hs, hi] at hf
    simp only [expectedRun, hs] at hr2
    unfold CounterInv
    by_cases ht : slotTimer s.params i = t
    · subst ht
      simp_all [aboutToClear]
    · simp_all [aboutToClear]
  case tp2 =>
    unfold CounterInv
    by_cases ht : scanTimer s = t
    · subst ht
      simp_all [aboutToClear, scanTimer]
    · have ht' : ¬ slotTimer s.params s.seq.scan = t := ht
      simp_all [aboutToClear, scanTimer]
  case tp3 =>
    unfold CounterInv
    by_cases ht : scanTimer s = t
    · subst ht
      simp_all [aboutToClear]
    · simp_all [aboutToClear]
  case ts5 i hi =>
    unfold CounterInv
    by_cases ht : slotTimer s.params i = t
    · subst ht
      simp_all [aboutToClear]
    · simp_all [aboutToClear]
  case ts0 i hi =>
    unfold CounterInv
    by_cases ht : slotTimer s.params i = t
    · subst ht
      simp_all [aboutToClear]
    · simp_all [aboutToClear]
  case ts1 i hi =>
    unfold CounterInv
    by_cases ht : slotTimer s.params i = t
    · subst ht
      simp_all [aboutToClear]
    · simp_all [aboutToClear]
  case ts3 i hi =>
    unfold CounterInv
    by_cases ht : slotTimer s.params i = t
    · subst ht
      simp_all [aboutToClear]
    · simp_all [aboutToClear]
  case ts4 i hi =>
    unfold CounterInv
    by_cases ht : slotTimer s.params i = t
    · subst ht
      simp_all [aboutToClear]
    · simp_all [aboutToClear]
  case a5 i hi =>
    unfold CounterInv
    by_cases ht : slotTimer s.params i = t
    · subst ht
      simp_all [aboutToClear]
    · simp_all [aboutToClear]
  case a6 i hi =>
    unfold CounterInv
    by_cases ht : slotTimer s.params i = t
    · subst ht
      simp_all [aboutToClear]
    · simp_all [aboutToClear]
  all_goals
    unfold CounterInv
    try unfold stepW0
    try unfold stepW1
    try unfold stepF1
    try unfold stepF4
    try unfold stepS0
    try unfold stepS1
    try unfold stepA1
    try unfold stepA4
    try unfold stepA7
    try unfold afterA1
    try unfold afterA2
    try unfold afterA3
    (repeat' split) <;> simp_all [aboutToClear]

theorem selectionSound_off {l : WriteStep} {s : State} (hs : s.seq.step = .write l) (hl : onAllocPath l = false) :
    selectionSound s = true := by
  cases hsel : s.seq.sel <;> cases l <;> simp_all [selectionSound, onAllocPath, beforeBind]

theorem allocProgress_off {l : WriteStep} {s : State} (hs : s.seq.step = .write l) (hl : onAllocPath l = false) :
    allocProgress s = true := by
  cases hsel : s.seq.sel <;> cases l <;> simp_all [allocProgress, onAllocPath]

theorem selectionSound_write {l : WriteStep} {s s' : State} (hs : s.seq.step = .write l) (hS : ShapeLegal s)
    (hq : SequencerInv s) (hv : writePinValid s = true) (h : selectionSound s = true) (e : writeStep l s = .next s') : selectionSound s' = true := by
  have hl := hS.2.1
  obtain ⟨-, h2⟩ := hq
  simp only [indicesInRange, hs] at h2
  simp only [selectionSound, hs] at h
  simp only [writePinValid, hs] at hv
  cases writeStep_move e
  case s0 =>
    unfold stepS0
    split
    · simp [selectionSound]
    · rename_i i hi
      have hsel := selectSlot_some hi
      simp only [selectionSound, goto_changes, beforeBind]
      have hne := valid_ne_pinFree hS.1 hv
      simp [slotAt] at hsel ⊢
      grind
  case a1 i hi =>
    cases hbo : s.params.bindOrder <;> simp_all [selectionSound, stepA1, afterA1, beforeBind, slotAt]
  case a2 i hi =>
    have hd : ∀ x ∈ (setDuty i s.seq.dtmp s).slots, ∃ y ∈ s.slots, x.pin = y.pin := by
      intro x hx
      obtain ⟨j, hj, rfl⟩ := mem_slots_iff.mp hx
      unfold setDuty at hj ⊢
      rw [setSlot_length] at hj
      refine ⟨slotAt s j, slotAt_mem hj, ?_⟩
      rw [slotAt_setSlot]; split <;> rfl
    have hp : (slotAt (setDuty i s.seq.dtmp s) i).pin = (slotAt s i).pin := by
      unfold setDuty; rw [slotAt_setSlot]; split <;> rfl
    have hg : ∀ l, slotAt (goto l (setDuty i s.seq.dtmp s)) i = slotAt (setDuty i s.seq.dtmp s) i := fun _ => rfl
    cases hbo : s.params.bindOrder <;> 
      simp only [selectionSound, goto_changes, goto_keeps, setDuty_keeps, hi, afterA2, hbo, beforeBind, hg, hp, onAllocPath] at h ⊢ <;>
      simp at h ⊢
    · split <;> rename_i hn <;> simp [hn] at h ⊢
      · refine ⟨h.1, ?_⟩
        intro x hx
        obtain ⟨y, hy, he⟩ := hd x (by simpa using hx)
        rw [he]; exact h.2 y hy
      · exact h
    · exact h
  case a3 i hi =>
    simp [hi, onAllocPath, onFreedSlot] at h2
    have hp : (slotAt (bindSlot i s.seq.fgA s) i).pin = s.seq.fgA := by
      unfold bindSlot; rw [slotAt_setSlot_self _ (hl ▸ h2)]
    have hg : ∀ l, slotAt (goto l (bindSlot i s.seq.fgA s)) i = slotAt (bindSlot i s.seq.fgA s) i := fun _ => rfl
    cases hbo : s.params.bindOrder <;> 
      simp [selectionSound, hi, afterA3, hbo, beforeBind, hg, hp, onAllocPath]
  case w0 => unfold stepW0; split <;> exact selectionSound_off rfl rfl
  case w1 => unfold stepW1; split <;> exact selectionSound_off rfl rfl
  case f1 => unfold stepF1; (repeat' split) <;> exact selectionSound_off rfl rfl
  case f4 => unfold stepF4; split <;> exact selectionSound_off rfl rfl
  case a7 i hi => unfold stepA7; split <;> exact selectionSound_off rfl rfl
  case a0 i hi => simpa [selectionSound, beforeBind, slotAt, hi] using h
  case a4 i hi => unfold stepA4; split <;> simpa [selectionSound, beforeBind, onAllocPath, slotAt, hi] using h
  case w9 => simp [selectionSound]
  case f0 => exact selectionSound_off rfl rfl
  case f2 => exact selectionSound_off rfl rfl
  case f3 => exact selectionSound_off rfl rfl
  case f5 => exact selectionSound_off rfl rfl
  case f6 => exact selectionSound_off rfl rfl
  case s1 => exact selectionSound_off rfl rfl
  case tp0 => exact selectionSound_off rfl rfl
  case tp1 => exact selectionSound_off rfl rfl
  case tp2 => exact selectionSound_off rfl rfl
  case tp3 => exact selectionSound_off rfl rfl
  all_goals
    rename_i i hi
    simpa [selectionSound, beforeBind, onAllocPath, slotAt, hi] using h

theorem allocProgress_write {l : WriteStep} {s s' : State} (hs : s.seq.step = .write l) (hS : ShapeLegal s)
    (hq : SequencerInv s) (h : allocProgress s = true) (e : writeStep l s = .next s') : allocProgress s' = true := by
  have hl := hS.2.1
  have hlen : ∀ t i, slotEvent s.params i < (lookup s.timers t).comps.length := by
    intro t i; rw [comps_length hS]; have := slotEvent_le (nCu_pos hS.1) i; omega
  obtain ⟨-, h2⟩ := hq
  simp only [indicesInRange, hs] at h2
  simp only [allocProgress, hs] at h
  cases writeStep_move e
  case a1 i hi =>
    cases hbo : s.params.bindOrder <;> simp_all [allocProgress, stepA1, afterA1, slotAt]
  case a2 i hi =>
    simp [hi, onAllocPath, onFreedSlot] at h2
    have hp : (slotAt (setDuty i s.seq.dtmp s) i).duty = s.seq.dtmp := by
      unfold setDuty; rw [slotAt_setSlot_self _ (hl ▸ h2)]
    have hg : ∀ l, slotAt (goto l (setDuty i s.seq.dtmp s)) i = slotAt (setDuty i s.seq.dtmp s) i := fun _ => rfl
    cases hbo : s.params.bindOrder <;> simp [allocProgress, hi, afterA2, hbo, hg, hp]
  case a3 i hi =>
    have hp : (slotAt (bindSlot i s.seq.fgA s) i).duty = (slotAt s i).duty := by
      unfold bindSlot; rw [slotAt_setSlot]; split <;> rfl
    have hg : ∀ l, slotAt (goto l (bindSlot i s.seq.fgA s)) i = slotAt (bindSlot i s.seq.fgA s) i := fun _ => rfl
    cases hbo : s.params.bindOrder <;> simp [allocProgress, hi, afterA3, hbo, hg, hp]
    simpa [hi, hbo] using h
  case a5 i hi => simp_all [allocProgress, compAt_setComp, slotAt]
  case a6 i hi => simp_all [allocProgress, compAt_setComp, slotAt]
  case w0 => unfold stepW0; split <;> exact allocProgress_off rfl rfl
  case w1 => unfold stepW1; split <;> exact allocProgress_off rfl rfl
  case f1 => unfold stepF1; (repeat' split) <;> exact allocProgress_off rfl rfl
  case f4 => unfold stepF4; split <;> exact allocProgress_off rfl rfl
  case a7 i hi => unfold stepA7; split <;> exact allocProgress_off rfl rfl
  case a0 i hi => simp [allocProgress, hi]
  case a4 i hi => unfold stepA4; split <;> simpa [allocProgress, slotAt, hi] using h
  case w9 => simp [allocProgress]
  case f0 => exact allocProgress_off rfl rfl
  case f2 => exact allocProgress_off rfl rfl
  case f3 => exact allocProgress_off rfl rfl
  case f5 => exact allocProgress_off rfl rfl
  case f6 => exact allocProgress_off rfl rfl
  case s1 => exact allocProgress_off rfl rfl
  case tp0 => exact allocProgress_off rfl rfl
  case tp1 => exact allocProgress_off rfl rfl
  case tp2 => exact allocProgress_off rfl rfl
  case tp3 => exact allocProgress_off rfl rfl
  case s0 =>
    unfold stepS0
    split
    · exact allocProgress_off rfl rfl
    · simp [allocProgress]
  all_goals
    rename_i i hi
    simpa [allocProgress, slotAt, hi] using h

end Sys2Proof.Machine
end

