-- ==== Sys2Proof/Laws/AllocatorRun.lean ====
section
/-! SUPPORT. Each micro-step of `WRITE` keeps the arbiter's RUN, T_RUN and NVIC_EN as expected, and the compare units
programmed. -/

namespace Sys2Proof.Machine

/-! ### RUN, T_RUN, NVIC_EN -/

/-- The arbiter's invariant without the count. -/
abbrev RunInv (s : State) (t : TimerId) : Prop :=
  (lookup s.arb t).run = expectedRun s t ∧
  (lookup s.timers t).run = (lookup s.arb t).run ∧ (lookup s.nvic t).en = expectedEnable s t ∧
  ((lookup s.arb t).run = true → cycleStartArmed s t = true)

theorem runInv_write {l : WriteStep} {s s' : State} (hs : s.seq.step = .write l) (hS : ShapeLegal s) (t : TimerId)
    (h : RunInv s t) (hc : countAgrees s t = true) (h3 : startingFirst s = true) (h5 : startProgress s = true)
    (h6 : freeProgress s = true) (h4 : selectionSound s = true) (hv : writePinValid s = true)
    (e : writeStep l s = .next s') : RunInv s' t := by
  have hlen : 0 < (lookup s.timers t).comps.length := by rw [comps_length hS t]; omega
  have hpf := pinMap_pinFree hS.1
  have hp := hS.1
  have hl := hS.2.1
  obtain ⟨r1, r2, r3, r4⟩ := h
  simp only [expectedRun, expectedEnable, hs] at r1 r3
  simp only [startingFirst, hs] at h3
  simp only [startProgress, hs] at h5
  simp only [freeProgress, hs] at h6
  have hm := writeStep_move e
  unfold RunInv
  cases hm
  case w0 => unfold stepW0; split <;> simp_all [expectedRun, expectedEnable, cycleStartArmed]
  case w1 => unfold stepW1; split <;> simp_all [expectedRun, expectedEnable, cycleStartArmed]
  case f1 => unfold stepF1; (repeat' split) <;> simp_all [expectedRun, expectedEnable, cycleStartArmed]
  case s0 => unfold stepS0; split <;> simp_all [expectedRun, expectedEnable, cycleStartArmed]
  case f2 => simp_all [expectedRun, expectedEnable, cycleStartArmed]
  case f3 =>
    have hcnt := (lookup s.arb t).count.isLt
    simp only [countAgrees, hs] at hc
    by_cases hst : scanTimer s = t
    · subst hst; simp_all [expectedRun, expectedEnable, cycleStartArmed, scanTimer]
      intro e; rw [e] at hc; simp at hc
    · have : ¬ slotTimer s.params s.seq.scan = t := hst
      simp_all [expectedRun, expectedEnable, cycleStartArmed, scanTimer]
  case f4 =>
    unfold stepF4; split <;> by_cases hst : scanTimer s = t <;> simp_all [expectedRun, expectedEnable, cycleStartArmed, scanTimer]
  case a4 i hi =>
    unfold stepA4
    simp only [countAgrees, hs] at hc
    simp only [selectionSound, hs, hi] at h4
    simp [boundNotCounted, selectedOn, beforeBind, onAllocPath, hi] at h4 hc
    simp only [writePinValid, hs] at hv
    split 
    · by_cases hst : slotTimer s.params i = t <;> simp_all [expectedRun, expectedEnable, cycleStartArmed, selectedOn]
    · by_cases hst : slotTimer s.params i = t <;> simp_all [expectedRun, expectedEnable, cycleStartArmed, selectedOn]
  case a1 i hi => unfold stepA1 afterA1; split <;> simp_all [expectedRun, expectedEnable, cycleStartArmed]
  case a2 i hi => unfold afterA2; split <;> simp_all [expectedRun, expectedEnable, cycleStartArmed]
  case a3 i hi => unfold afterA3; split <;> simp_all [expectedRun, expectedEnable, cycleStartArmed]
  case a7 i hi =>
    have hcnt := (lookup s.arb t).count.isLt
    have hle := boundCount_le s t
    have hcu4 := nCu_le_four hp
    simp only [countAgrees, hs] at hc
    simp only [selectionSound, hs, hi] at h4
    simp [boundNotCounted, selectedOn, beforeBind, onAllocPath, hi] at h4 hc
    simp only [writePinValid, hs] at hv
    have hb : (slotAt s i).bound = true := by rw [bound_iff, h4]; intro e; rw [e, hpf] at hv; simp at hv
    have hpos := boundCount_pos (nCu_pos hp) hl hb
    unfold stepA7
    split
    · by_cases hst : slotTimer s.params i = t
      · subst hst; simp_all [expectedRun, expectedEnable, cycleStartArmed, selectedOn]
        intro e
        have e' := congrArg BitVec.toNat e
        simp at e'
        omega
      · simp_all [expectedRun, expectedEnable, cycleStartArmed, selectedOn]
    · by_cases hst : slotTimer s.params i = t
      · subst hst; simp_all [expectedRun, expectedEnable, cycleStartArmed, selectedOn]
        intro e; rw [e] at hc; simp at hc; omega
      · simp_all [expectedRun, expectedEnable, cycleStartArmed, selectedOn]
  case ts3 i hi =>
    by_cases hst : slotTimer s.params i = t
    · subst hst; simp_all [expectedRun, expectedEnable, cycleStartArmed, selectedOn]
    · simp_all [expectedRun, expectedEnable, cycleStartArmed, selectedOn]
  case ts4 i hi =>
    by_cases hst : slotTimer s.params i = t
    · subst hst; simp_all [expectedRun, expectedEnable, cycleStartArmed, selectedOn]
    · simp_all [expectedRun, expectedEnable, cycleStartArmed, selectedOn]
  case ts5 i hi =>
    by_cases hst : slotTimer s.params i = t
    · subst hst; simp_all [expectedRun, expectedEnable, cycleStartArmed, selectedOn, compAt]
    · simp_all [expectedRun, expectedEnable, cycleStartArmed, selectedOn]
  case ts6 i hi =>
    by_cases hst : slotTimer s.params i = t
    · subst hst; simp_all [expectedRun, expectedEnable, cycleStartArmed, selectedOn]
    · simp_all [expectedRun, expectedEnable, cycleStartArmed, selectedOn]
  case ts7 i hi =>
    by_cases hst : slotTimer s.params i = t
    · subst hst; simp_all [expectedRun, expectedEnable, cycleStartArmed, selectedOn]
    · simp_all [expectedRun, expectedEnable, cycleStartArmed, selectedOn]
  case ts0 i hi =>
    by_cases hst : slotTimer s.params i = t
    · subst hst; simp_all [expectedRun, expectedEnable, cycleStartArmed, selectedOn, compAt]
    · simp_all [expectedRun, expectedEnable, cycleStartArmed, selectedOn]
  case ts1 i hi =>
    by_cases hst : slotTimer s.params i = t
    · subst hst; simp_all [expectedRun, expectedEnable, cycleStartArmed, selectedOn, compAt]
    · simp_all [expectedRun, expectedEnable, cycleStartArmed, selectedOn]
  case ts2 i hi =>
    by_cases hst : slotTimer s.params i = t
    · subst hst; simp_all [expectedRun, expectedEnable, cycleStartArmed, selectedOn, compAt]
    · simp_all [expectedRun, expectedEnable, cycleStartArmed, selectedOn]
  case a5 i hi =>
    by_cases hst : slotTimer s.params i = t
    · subst hst; simp_all [expectedRun, expectedEnable, cycleStartArmed, selectedOn, compAt_setComp, slotEvent]
    · simp_all [expectedRun, expectedEnable, cycleStartArmed, selectedOn]
  case a6 i hi =>
    by_cases hst : slotTimer s.params i = t
    · subst hst; simp_all [expectedRun, expectedEnable, cycleStartArmed, selectedOn, compAt_setComp, slotEvent]
    · simp_all [expectedRun, expectedEnable, cycleStartArmed, selectedOn]
  case tp0 =>
    by_cases hst : scanTimer s = t
    · subst hst; simp_all [expectedRun, expectedEnable, cycleStartArmed, scanTimer]
    · have hst' : ¬ slotTimer s.params s.seq.scan = t := hst
      simp_all [expectedRun, expectedEnable, cycleStartArmed, scanTimer]
  case tp1 =>
    by_cases hst : scanTimer s = t
    · subst hst; simp_all [expectedRun, expectedEnable, cycleStartArmed, scanTimer]
    · have hst' : ¬ slotTimer s.params s.seq.scan = t := hst
      simp_all [expectedRun, expectedEnable, cycleStartArmed, scanTimer]
  case tp2 =>
    by_cases hst : scanTimer s = t
    · subst hst; simp_all [expectedRun, expectedEnable, cycleStartArmed, scanTimer]
    · have hst' : ¬ slotTimer s.params s.seq.scan = t := hst
      simp_all [expectedRun, expectedEnable, cycleStartArmed, scanTimer]
  case tp3 =>
    by_cases hst : scanTimer s = t
    · subst hst; simp_all [expectedRun, expectedEnable, cycleStartArmed, scanTimer, compAt]
    · have hst' : ¬ slotTimer s.params s.seq.scan = t := hst
      simp_all [expectedRun, expectedEnable, cycleStartArmed, scanTimer]
  all_goals
     simp_all [expectedRun, expectedEnable, cycleStartArmed, selectedOn, stepS1]

/-! ### Compare units -/

theorem compareProgrammed_congr {s s' : State} {j : Nat} (hp : s'.params = s.params)
    (hd : (slotAt s' j).duty = (slotAt s j).duty)
    (hc : compAt (lookup s'.timers (slotTimer s.params j)) (slotEvent s.params j) =
      compAt (lookup s.timers (slotTimer s.params j)) (slotEvent s.params j))
    (h : compareProgrammed s j = true) : compareProgrammed s' j = true := by
  simpa [compareProgrammed, hp, hd, hc] using h

theorem not_beingProgrammed {s : State} {l : WriteStep} (hs : s.seq.step = .write l) {j : Nat}
    (h : onAllocPath l = true → l ≠ .a7 → s.seq.sel ≠ some j) : beingProgrammed s j = false := by
  simp only [beingProgrammed, hs]
  cases hl : onAllocPath l
  · simp
  · cases h7 : (l == WriteStep.a7)
    · have := h hl (by simpa using h7)
      simp [this]
    · simp

/-- A comparator that no store of this step reaches. -/
theorem compAt_other {s : State} (hcu : 1 ≤ s.params.nCu) {i j : Nat} (hi : i < s.params.nSlots)
    (hj : j < s.params.nSlots) (hij : j ≠ i) (f : Comparator → Comparator) :
    compAt (lookup (update s.timers (slotTimer s.params i)
      (setComp (slotEvent s.params i) f (lookup s.timers (slotTimer s.params i)))) (slotTimer s.params j))
      (slotEvent s.params j) = compAt (lookup s.timers (slotTimer s.params j)) (slotEvent s.params j) := by
  rw [lookup_update]
  split
  · rename_i ht
    rw [compAt_setComp, ← ht]
    have hk : slotEvent s.params i ≠ slotEvent s.params j :=
      fun he => hij (slot_of_timer_and_event hcu hi hj ht he).symm
    simp [hk]
  · rfl

theorem compAt_zero_store {s : State} (t : TimerId) (f : Comparator → Comparator) (j : Nat) :
    compAt (lookup (update s.timers t (setComp 0 f (lookup s.timers t))) (slotTimer s.params j))
      (slotEvent s.params j) = compAt (lookup s.timers (slotTimer s.params j)) (slotEvent s.params j) := by
  rw [lookup_update]
  split
  · rename_i ht
    rw [compAt_setComp, ← ht]
    simp [Ne.symm (slotEvent_pos s.params j)]
  · rfl

theorem compareInv_write {l : WriteStep} {s s' : State} (hs : s.seq.step = .write l) (hS : ShapeLegal s)
    (hq : SequencerInv s) (h : CompareInv s) (h3 : allocProgress s = true) (e : writeStep l s = .next s') :
    CompareInv s' := by
  have hcu := nCu_pos hS.1
  have hl := hS.2.1
  have hpar := (writeStep_params e).1
  obtain ⟨-, h2⟩ := hq
  simp only [indicesInRange, hs] at h2
  simp only [allocProgress, hs] at h3
  intro j hj hb hbp
  rw [hpar] at hj
  rw [List.mem_range] at hj
  have hj' := h j (List.mem_range.mpr hj)
  cases writeStep_move e
  case f2 =>
    have hsl : slotAt (goto (.write .f3) (freeSlot s.seq.scan s)) j = slotAt (freeSlot s.seq.scan s) j := rfl
    rw [hsl] at hb
    unfold freeSlot at hb hsl
    rw [slotAt_setSlot] at hb hsl
    split at hb
    · simp [Slot.bound] at hb
    · rename_i hn
      rw [if_neg hn] at hsl
      refine compareProgrammed_congr (by simp) (by rw [← hsl]; rfl) (by simp) (hj' hb ?_)
      exact not_beingProgrammed hs (by simp [onAllocPath])
  case a7 i hi =>
    simp [hi] at h3
    have hb' : (slotAt s j).bound = true := by
      revert hb; unfold stepA7; split <;> exact id
    refine compareProgrammed_congr (s := s) ?_ ?_ ?_ ?_
    · unfold stepA7; split <;> simp
    · unfold stepA7; split <;> rfl
    · unfold stepA7; split <;> rfl
    · by_cases hij : j = i
      · subst hij
        simp [compareProgrammed, h3]
      · exact hj' hb' (not_beingProgrammed hs (by simp))
  case a6 i hi =>
    simp [hi] at h3
    simp [hi, onAllocPath, onFreedSlot] at h2
    by_cases hij : j = i
    · subst hij
      have hlen : slotEvent s.params j < (lookup s.timers (slotTimer s.params j)).comps.length := by
        rw [comps_length hS]; have := slotEvent_le hcu j; omega
      have hsl : slotAt (goto (.write .a7) (timerIntenSet (slotTimer s.params j) (slotEvent s.params j) s)) j =
        slotAt s j := rfl
      simp only [compareProgrammed, hsl]
      simp [compAt_setComp, hlen, h3]
    · refine compareProgrammed_congr (s := s) (by simp) rfl ?_ (hj' hb (not_beingProgrammed hs (by simp [hi, Ne.symm hij])))
      exact compAt_other hcu h2 hj hij _
  case a5 i hi =>
    simp [hi, onAllocPath, onFreedSlot] at h2
    have hij : j ≠ i := by
      rintro rfl
      simp [beingProgrammed, onAllocPath, hi] at hbp
    refine compareProgrammed_congr (s := s) (by simp) rfl ?_ (hj' hb (not_beingProgrammed hs (by simp [hi, Ne.symm hij])))
    exact compAt_other hcu h2 hj hij _
  case a2 i hi =>
    have hij : j ≠ i := by
      rintro rfl
      cases hbo : s.params.bindOrder <;> simp [beingProgrammed, onAllocPath, hi, afterA2, hbo] at hbp
    have hsl : slotAt (goto (.write (afterA2 s)) (setDuty i s.seq.dtmp s)) j = slotAt s j :=
      slotAt_setSlot_other _ s (Ne.symm hij)
    rw [hsl] at hb
    exact compareProgrammed_congr (by simp) (by rw [hsl]) (by simp)
      (hj' hb (not_beingProgrammed hs (by simp [hi, Ne.symm hij])))
  case a3 i hi =>
    have hij : j ≠ i := by
      rintro rfl
      cases hbo : s.params.bindOrder <;> simp [beingProgrammed, onAllocPath, hi, afterA3, hbo] at hbp
    have hsl : slotAt (goto (.write (afterA3 s)) (bindSlot i s.seq.fgA s)) j = slotAt s j :=
      slotAt_setSlot_other _ s (Ne.symm hij)
    rw [hsl] at hb
    exact compareProgrammed_congr (by simp) (by rw [hsl]) (by simp)
      (hj' hb (not_beingProgrammed hs (by simp [hi, Ne.symm hij])))
  case ts3 i hi =>
    have hij : j ≠ i := by
      rintro rfl
      simp [beingProgrammed, onAllocPath, hi] at hbp
    refine compareProgrammed_congr (s := s) (by simp) rfl ?_ (hj' hb (not_beingProgrammed hs (by simp [hi, Ne.symm hij])))
    exact compAt_zero_store _ _ j
  case ts4 i hi =>
    have hij : j ≠ i := by
      rintro rfl
      simp [beingProgrammed, onAllocPath, hi] at hbp
    refine compareProgrammed_congr (s := s) (by simp) rfl ?_ (hj' hb (not_beingProgrammed hs (by simp [hi, Ne.symm hij])))
    exact compAt_zero_store _ _ j
  case w0 =>
    revert hb; unfold stepW0
    split <;> exact fun hb => hj' hb (not_beingProgrammed hs (by simp [onAllocPath]))
  case w1 =>
    revert hb; unfold stepW1
    split <;> exact fun hb => hj' hb (not_beingProgrammed hs (by simp [onAllocPath]))
  case f1 =>
    revert hb; unfold stepF1
    split
    · exact fun hb => hj' hb (not_beingProgrammed hs (by simp [onAllocPath]))
    · split <;> exact fun hb => hj' hb (not_beingProgrammed hs (by simp [onAllocPath]))
  case f4 =>
    revert hb; unfold stepF4
    split <;> exact fun hb => hj' hb (not_beingProgrammed hs (by simp [onAllocPath]))
  case s0 =>
    revert hb; unfold stepS0
    split <;> exact fun hb => hj' hb (not_beingProgrammed hs (by simp [onAllocPath]))
  case a4 i hi =>
    have hij : i ≠ j := by
      rintro rfl
      revert hbp; unfold stepA4; split <;> simp [beingProgrammed, onAllocPath, hi]
    revert hb; unfold stepA4
    split <;> exact fun hb => hj' hb (not_beingProgrammed hs (by simp [hi, hij]))
  case a1 i hi =>
    have hij : i ≠ j := by
      rintro rfl
      cases hbo : s.params.bindOrder <;> simp [stepA1, beingProgrammed, onAllocPath, hi, afterA1, hbo] at hbp
    exact hj' hb (not_beingProgrammed hs (by simp [hi, hij]))
  case tp2 =>
    refine compareProgrammed_congr (s := s) (by simp) rfl ?_ (hj' hb (not_beingProgrammed hs (by simp [onAllocPath])))
    simp; split <;> simp_all [compAt]
  case tp3 =>
    refine compareProgrammed_congr (s := s) (by simp) rfl ?_ (hj' hb (not_beingProgrammed hs (by simp [onAllocPath])))
    simp; split <;> simp_all [compAt]
  case w9 => exact hj' hb (not_beingProgrammed hs (by simp [onAllocPath]))
  case f0 => exact hj' hb (not_beingProgrammed hs (by simp [onAllocPath]))
  case f3 => exact hj' hb (not_beingProgrammed hs (by simp [onAllocPath]))
  case f5 => exact hj' hb (not_beingProgrammed hs (by simp [onAllocPath]))
  case f6 => exact hj' hb (not_beingProgrammed hs (by simp [onAllocPath]))
  case s1 => exact hj' hb (not_beingProgrammed hs (by simp [onAllocPath]))
  case tp0 => exact hj' hb (not_beingProgrammed hs (by simp [onAllocPath]))
  case tp1 => exact hj' hb (not_beingProgrammed hs (by simp [onAllocPath]))
  all_goals
    rename_i i hi
    have hij : i ≠ j := by
      rintro rfl
      simp [beingProgrammed, onAllocPath, hi] at hbp
    refine compareProgrammed_congr (s := s) (by simp) rfl ?_ (hj' hb (not_beingProgrammed hs (by simp [hi, hij])))
    simp [compAt]
    try split <;> simp_all

end Sys2Proof.Machine
end

