-- ==== Sys2Proof/Laws/Tables.lean ====
section
/-! SUPPORT. What the allocator's invariant depends on: a step that leaves the tables alone keeps it; a micro-step of
`WRITE` keeps it. -/

namespace Sys2Proof.Machine

/-- A label at which no `WRITE` is under way. -/
def quietStep : FgStep → Bool
  | .write .w0 => true
  | .write _   => false
  | _          => true

/-- What the allocator's invariant reads beside the sequencer is the same in both states. -/
structure SameTables (s s' : State) : Prop where
  params : s'.params = s.params
  length : s'.slots.length = s.slots.length
  slots  : ∀ j, (slotAt s' j).pin = (slotAt s j).pin ∧ (slotAt s' j).duty = (slotAt s j).duty
  arb    : s'.arb = s.arb
  nvic   : s'.nvic = s.nvic
  run    : ∀ t, (lookup s'.timers t).run = (lookup s.timers t).run
  comps  : ∀ t k, (compAt (lookup s'.timers t) k).cc = (compAt (lookup s.timers t) k).cc ∧
    (compAt (lookup s'.timers t) k).inten = (compAt (lookup s.timers t) k).inten

theorem SameTables.bound {s s' : State} (h : SameTables s s') (j : Nat) : (slotAt s' j).bound = (slotAt s j).bound := by
  simp [Slot.bound, (h.slots j).1]

theorem SameTables.boundCount {s s' : State} (h : SameTables s s') (t : TimerId) :
    boundCount s' t = boundCount s t := by
  simp [Machine.boundCount, h.params, h.bound]

theorem SameTables.allPins {s s' : State} (h : SameTables s s') (f : Word → Bool) :
    s'.slots.all (fun x => f x.pin) = s.slots.all (fun x => f x.pin) := by
  rw [Bool.eq_iff_iff, List.all_eq_true, List.all_eq_true]
  constructor
  · intro H x hx
    obtain ⟨i, hi, rfl⟩ := mem_slots_iff.mp hx
    rw [← (h.slots i).1]
    exact H _ (slotAt_mem (h.length ▸ hi))
  · intro H x hx
    obtain ⟨i, hi, rfl⟩ := mem_slots_iff.mp hx
    rw [(h.slots i).1]
    exact H _ (slotAt_mem (h.length ▸ hi))

theorem SameTables.cycleStartArmed {s s' : State} (h : SameTables s s') (t : TimerId) :
    cycleStartArmed s' t = cycleStartArmed s t := by
  simp [Machine.cycleStartArmed, h.comps]

theorem SameTables.compareProgrammed {s s' : State} (h : SameTables s s') (i : Nat) :
    compareProgrammed s' i = compareProgrammed s i := by
  simp [Machine.compareProgrammed, h.comps, h.slots, h.params]

theorem SameTables.uniqueBinding {s s' : State} (h : SameTables s s') (u : UniqueBinding s) : UniqueBinding s' := by
  rw [uniqueBinding_iff] at u ⊢
  simpa [h.bound, h.slots, h.length] using u

theorem SameTables.boundPinsValid {s s' : State} (h : SameTables s s') (u : BoundPinsValid s) : BoundPinsValid s' := by
  intro x hx hb
  obtain ⟨i, hi, rfl⟩ := mem_slots_iff.mp hx
  rw [h.bound] at hb
  rw [(h.slots i).1, h.params]
  exact u _ (slotAt_mem (h.length ▸ hi)) hb

/-- The allocator's invariant depends on nothing but the tables and the sequencer. -/
theorem SameTables.allocatorInv {s s' : State} (h : SameTables s s') (hq : s'.seq = s.seq) (u : AllocatorInv s) :
    AllocatorInv s' := by
  obtain ⟨u1, u2, ⟨⟨c0, r0, q0, e0, a0⟩, ⟨c1, r1, q1, e1, a1⟩⟩, u4, u5, u6, u7, u8, u9, u10⟩ := u
  have hsel : ∀ t, selectedOn s' t = selectedOn s t := by intro t; simp [selectedOn, hq, h.params]
  have hscan : scanTimer s' = scanTimer s := by simp [scanTimer, hq, h.params]
  have hbnc : ∀ l, boundNotCounted s' l = boundNotCounted s l := by intro l; simp [boundNotCounted, hq, h.params]
  have hca : ∀ t, countAgrees s' t = countAgrees s t := by
    intro t; simp [countAgrees, hq, h.arb, h.boundCount, hsel, hscan, hbnc]
  have hbb : ∀ l, beforeBind s' l = beforeBind s l := by intro l; simp [beforeBind, h.params]
  have her : ∀ t, expectedRun s' t = expectedRun s t := by
    intro t; simp [expectedRun, hq, h.arb, hsel, hscan]
  have hee : ∀ t, expectedEnable s' t = expectedEnable s t := by
    intro t; simp [expectedEnable, hq, h.arb, hsel, hscan]
  have har : ∀ t, ArbiterInv s t → ArbiterInv s' t := by
    rintro t ⟨c, r, q, e, a⟩
    exact ⟨hca t ▸ c, by rw [h.arb, her]; exact r, by rw [h.run, h.arb]; exact q, by rw [h.nvic, hee]; exact e,
      by rw [h.arb, h.cycleStartArmed]; exact a⟩
  refine ⟨h.uniqueBinding u1, h.boundPinsValid u2, ⟨har .t0 ⟨c0, r0, q0, e0, a0⟩, har .t1 ⟨c1, r1, q1, e1, a1⟩⟩, ?_, ?_, ?_, ?_, ?_, ?_, ?_⟩
  · intro i hi hb hp
    rw [h.compareProgrammed]
    rw [h.params] at hi
    exact u4 i hi (h.bound i ▸ hb) (by simpa [beingProgrammed, hq] using hp)
  · simpa [writePinValid, hq, h.params] using u5
  · have := h.allPins (fun p => p != s.seq.fgA)
    simpa [selectionSound, hq, hbb, h.slots, this] using u6
  · simpa [allocProgress, hq, h.slots, h.comps, h.params] using u7
  · simpa [startingFirst, hq, h.arb, h.params] using u8
  · simpa [startProgress, hq, h.comps, h.params, h.cycleStartArmed] using u9
  · simpa [freeProgress, hq, h.slots, h.arb, hscan] using u10

/-- Outside a `WRITE` the allocator's invariant does not depend on the position of the sequencer. -/
theorem SameTables.allocatorInv_quiet {s s' : State} (h : SameTables s s') (hq : quietStep s.seq.step = true)
    (hq' : quietStep s'.seq.step = true) (u : AllocatorInv s) : AllocatorInv s' := by
  have key : ∀ x : State, quietStep x.seq.step = true →
      (∀ t, countAgrees x t = ((lookup x.arb t).count.toNat == Machine.boundCount x t)) ∧
      (∀ t, expectedRun x t = ((lookup x.arb t).count != 0#4)) ∧
      (∀ t, expectedEnable x t = (lookup x.arb t).run) ∧
      (∀ i, beingProgrammed x i = false) ∧
      writePinValid x = true ∧ selectionSound x = true ∧ allocProgress x = true ∧ startingFirst x = true ∧
      startProgress x = true ∧ freeProgress x = true := by
    intro x hx
    cases hs : x.seq.step with
    | write l =>
      cases l <;> simp [hs, quietStep] at hx
      cases hsel : x.seq.sel <;>
      simp [countAgrees, expectedRun, expectedEnable, beingProgrammed, writePinValid, selectionSound, allocProgress,
        startingFirst, startProgress, freeProgress, hs, boundNotCounted, onAllocPath, beforeBind, hsel]
    | _ => simp [countAgrees, expectedRun, expectedEnable, beingProgrammed, writePinValid, selectionSound, allocProgress,
        startingFirst, startProgress, freeProgress, hs]
  obtain ⟨k1, k2, k3, k4, -⟩ := key s hq
  obtain ⟨k1', k2', k3', k4', k5⟩ := key s' hq'
  obtain ⟨u1, u2, ⟨⟨c0, r0, q0, e0, a0⟩, ⟨c1, r1, q1, e1, a1⟩⟩, u4, -⟩ := u
  have har : ∀ t, ArbiterInv s t → ArbiterInv s' t := by
    rintro t ⟨c, r, q, e, a⟩
    refine ⟨?_, ?_, ?_, ?_, ?_⟩
    · rw [k1', h.arb, h.boundCount]; rw [k1] at c; exact c
    · rw [k2', h.arb]; rw [k2] at r; exact r
    · rw [h.run, h.arb]; exact q
    · rw [k3', h.arb, h.nvic]; rw [k3] at e; exact e
    · rw [h.arb, h.cycleStartArmed]; exact a
  refine ⟨h.uniqueBinding u1, h.boundPinsValid u2, ⟨har .t0 ⟨c0, r0, q0, e0, a0⟩, har .t1 ⟨c1, r1, q1, e1, a1⟩⟩, ?_, k5⟩
  intro i hi hb hp
  rw [h.compareProgrammed]
  rw [h.params] at hi
  exact u4 i hi (h.bound i ▸ hb) (k4 i)

/-- A micro-step of `WRITE` keeps the allocator's invariant. -/
theorem allocatorInv_write {l : WriteStep} {s s' : State} (hs : s.seq.step = .write l) (hS : ShapeLegal s)
    (hq : SequencerInv s) (h : AllocatorInv s) (e : writeStep l s = .next s') : AllocatorInv s' := by
  obtain ⟨u1, u2, ⟨⟨c0, a0⟩, ⟨c1, a1⟩⟩, u4, u5, u6, u7, u8, u9, u10⟩ := h
  exact ⟨uniqueBinding_write hs u1 u6 e, boundPinsValid_write hs u2 u5 e,
    ⟨⟨countAgrees_write hs hS hq .t0 c0 u6 u10 u5 e, runInv_write hs hS .t0 a0 c0 u8 u9 u10 u6 u5 e⟩,
      ⟨countAgrees_write hs hS hq .t1 c1 u6 u10 u5 e, runInv_write hs hS .t1 a1 c1 u8 u9 u10 u6 u5 e⟩⟩,
    compareInv_write hs hS hq u4 u7 e, writePinValid_write hs u5 e, selectionSound_write hs hS hq u5 u6 e,
    allocProgress_write hs hS hq u7 e, startingFirst_write hs u8 e, startProgress_write hs hS u9 e,
    freeProgress_write hs u10 e⟩

end Sys2Proof.Machine
end

