-- ==== Sys2Proof/Laws/Environment.lean ====
section
/-! SUPPORT. What the dispatcher and the devices leave unchanged, and which parts of the invariant they keep. -/

namespace Sys2Proof.Machine

/-- What a step of another agent than the foreground sequencer leaves unchanged. -/
structure EnvFrame (s s' : State) : Prop where
  params  : s'.params = s.params
  slots   : s'.slots = s.slots
  arb     : s'.arb = s.arb
  cfg     : s'.cfg = s.cfg
  seq     : s'.seq = s.seq
  resp    : s'.resp = s.resp
  nvic    : s'.nvic = s.nvic
  outputs : s'.gpio.outputs = s.gpio.outputs
  host    : s'.host = s.host
  marks   : s'.marks = s.marks
  regs    : ∀ t, (lookup s'.timers t).run = (lookup s.timers t).run ∧
    (lookup s'.timers t).mode = (lookup s.timers t).mode ∧ (lookup s'.timers t).presc = (lookup s.timers t).presc ∧
    (lookup s'.timers t).bitMode = (lookup s.timers t).bitMode ∧
    (lookup s'.timers t).comps.length = (lookup s.timers t).comps.length
  comps   : ∀ t k, (compAt (lookup s'.timers t) k).cc = (compAt (lookup s.timers t) k).cc ∧
    (compAt (lookup s'.timers t) k).inten = (compAt (lookup s.timers t) k).inten

theorem EnvFrame.rfl {s : State} : EnvFrame s s := by
  constructor <;> simp

theorem EnvFrame.sameTables {s s' : State} (h : EnvFrame s s') : SameTables s s' where
  params := h.params
  length := by rw [h.slots]
  slots j := by rw [slotAt_eq h.slots]; exact ⟨Eq.refl _, Eq.refl _⟩
  arb := h.arb
  nvic := h.nvic
  run t := (h.regs t).1
  comps := h.comps

/-- A frame for a step that changes the timers by one update of one register set. -/
theorem EnvFrame.ofTimer {s s' : State} (t : TimerId) (f : TimerRegs → TimerRegs)
    (h : s'.timers = update s.timers t (f (lookup s.timers t)))
    (hf : ∀ r, (f r).run = r.run ∧ (f r).mode = r.mode ∧ (f r).presc = r.presc ∧ (f r).bitMode = r.bitMode ∧
      (f r).comps.length = r.comps.length)
    (hc : ∀ r k, (compAt (f r) k).cc = (compAt r k).cc ∧ (compAt (f r) k).inten = (compAt r k).inten)
    (h1 : s'.params = s.params) (h2 : s'.slots = s.slots) (h3 : s'.arb = s.arb) (h4 : s'.cfg = s.cfg)
    (h5 : s'.seq = s.seq) (h6 : s'.resp = s.resp) (h7 : s'.nvic = s.nvic)
    (h8 : s'.gpio.outputs = s.gpio.outputs) (h9 : s'.host = s.host) (h10 : s'.marks = s.marks) : EnvFrame s s' where
  params := h1
  slots := h2
  arb := h3
  cfg := h4
  seq := h5
  resp := h6
  nvic := h7
  outputs := h8
  host := h9
  marks := h10
  regs t' := by
    rw [h, lookup_update]
    split
    · rename_i e; subst e; exact hf _
    · exact ⟨Eq.refl _, Eq.refl _, Eq.refl _, Eq.refl _, Eq.refl _⟩
  comps t' k := by
    rw [h, lookup_update]
    split
    · rename_i e; subst e; exact hc _ _
    · exact ⟨Eq.refl _, Eq.refl _⟩

theorem compAt_setComp_ev (k j : Nat) (b : Bool) (r : TimerRegs) :
    (compAt (setComp k (fun c => { c with ev := b }) r) j).cc = (compAt r j).cc ∧
    (compAt (setComp k (fun c => { c with ev := b }) r) j).inten = (compAt r j).inten := by
  rw [compAt_setComp]; split <;> simp

theorem serviceEvent_frame (t : TimerId) (k : Nat) (s : State) : EnvFrame s (serviceEvent t k s) := by
  rcases serviceEvent_timers t k s with h | h
  · constructor <;> simp [h]
  · exact EnvFrame.ofTimer t _ h (by simp) (fun r j => compAt_setComp_ev k j false r) (by simp) (by simp) (by simp)
      (by simp) (by simp) (by simp) (by simp) (by simp) (by simp) (by simp)

theorem dispatcher_frame {t : TimerId} {s s' : State} (h : DispatcherStep t s s') : EnvFrame s s' := by
  cases h with
  | none => exact EnvFrame.rfl
  | enter h => constructor <;> simp
  | leave h hk => constructor <;> simp
  | service h hk =>
    obtain ⟨a1, a2, a3, a4, a5, a6, a7, a8, a9, a10, a11, a12⟩ := serviceEvent_frame t s.irq.k s
    constructor <;> simp_all

theorem compAt_tickRegs (r : TimerRegs) (k : Nat) :
    (compAt (tickRegs r) k).cc = (compAt r k).cc ∧ (compAt (tickRegs r) k).inten = (compAt r k).inten := by
  unfold compAt tickRegs
  simp only [List.getElem?_map]
  by_cases hk : k < r.comps.length
  · simp [hk, raiseMatches]; split <;> simp
  · simp [hk]

theorem tick_frame (t : TimerId) (s : State) : EnvFrame s (tickTurn t s) := by
  unfold tickTurn
  split
  · exact EnvFrame.ofTimer t _ rfl (by simp [tickRegs]) compAt_tickRegs rfl rfl rfl rfl rfl rfl rfl rfl rfl rfl
  · exact EnvFrame.rfl

theorem adcComplete_frame (raw : Word) (s : State) : EnvFrame s (adcCompleteTurn raw s) := by
  unfold adcCompleteTurn
  split
  · constructor <;> simp
  · exact EnvFrame.rfl

theorem timerEvent_frame (t : TimerId) (k : Nat) (s : State) : EnvFrame s (timerEventTurn t k s) := by
  unfold timerEventTurn
  split
  · exact EnvFrame.rfl
  · split
    · exact EnvFrame.ofTimer t _ rfl (by simp [raiseEvent]) (fun r j => compAt_setComp_ev k j true r)
        rfl rfl rfl rfl rfl rfl rfl rfl rfl rfl
    · exact EnvFrame.rfl

theorem undefinedPin_frame (i : Nat) (l : Level) (s : State) : EnvFrame s (undefinedPinTurn i l s) := by
  unfold undefinedPinTurn
  dsimp only
  split
  · constructor <;> simp
  · exact EnvFrame.rfl

/-! ### Counters -/

theorem widthModulus_pos (w : CounterWidth) : 0 < widthModulus w := by cases w <;> decide

theorem widthModulus_le (w : CounterWidth) : widthModulus w ≤ 65536 := by cases w <;> decide

theorem nextCount_lt (r : TimerRegs) : (nextCount r).toNat < widthModulus r.bitMode := by
  unfold nextCount
  have h1 := Nat.mod_lt (r.cnt.toNat + 1) (widthModulus_pos r.bitMode)
  have h2 := widthModulus_le r.bitMode
  rw [BitVec.toNat_ofNat, Nat.mod_eq_of_lt (by omega)]
  exact h1

theorem counters_of_eq {s s' : State} (hp : s'.params = s.params) (hq : s'.seq = s.seq)
    (ht : ∀ t, (lookup s'.timers t).cnt = (lookup s.timers t).cnt ∧
      (lookup s'.timers t).bitMode = (lookup s.timers t).bitMode ∧
      (lookup s'.timers t).run = (lookup s.timers t).run) (t : TimerId) (h : CounterInv s t) : CounterInv s' t := by
  obtain ⟨e1, e2, e3⟩ := ht t
  simpa [CounterInv, e1, e2, e3, aboutToClear, scanTimer, hq, hp] using h

theorem tick_counters (t t' : TimerId) (s : State) (h : CounterInv s t') : CounterInv (tickTurn t s) t' := by
  unfold tickTurn
  split
  · rename_i hr
    by_cases e : t = t'
    · subst e
      simp [CounterInv, tickRegs, nextCount_lt, hr]
    · simpa [CounterInv, e, aboutToClear, scanTimer] using h
  · exact h

theorem dispatcher_counters {t : TimerId} {s s' : State} (h : DispatcherStep t s s') (t' : TimerId)
    (hc : CounterInv s t') : CounterInv s' t' := by
  have hf := dispatcher_frame h
  refine counters_of_eq hf.params hf.seq (fun u => ⟨?_, (hf.regs u).2.2.2.1, (hf.regs u).1⟩) t' hc
  cases h with
  | none => rfl
  | enter h => rfl
  | leave h hk => rfl
  | service h hk =>
    rcases serviceEvent_timers t s.irq.k s with e | e
    · simp [e]
    · simp only [setIrqK_keeps, e, lookup_update]
      split
      · rename_i e; subst e; rfl
      · rfl

theorem timerEvent_counters (t : TimerId) (k : Nat) (s : State) (t' : TimerId) (h : CounterInv s t') :
    CounterInv (timerEventTurn t k s) t' := by
  refine counters_of_eq (timerEvent_frame t k s).params (timerEvent_frame t k s).seq
    (fun u => ⟨?_, ((timerEvent_frame t k s).regs u).2.2.2.1, ((timerEvent_frame t k s).regs u).1⟩) t' h
  unfold timerEventTurn
  split
  · rfl
  · split
    · simp only [setTimer_changes, lookup_update]
      split
      · rename_i e; subst e; rfl
      · rfl
    · rfl

/-! ### The sampler -/

theorem sampler_of_eq {s s' : State} (hp : s'.params = s.params) (hq : s'.seq = s.seq) (ha : s'.adc = s.adc)
    (h : SamplerInv s) : SamplerInv s' := by
  simpa [SamplerInv, hp, hq, ha, readProgress, nativeSupported, nativeConfigured, isSample] using h

/-- The resolution coded by a supported resolution's code is that resolution: `RESCODE` is injective (00_scope R14). -/
theorem resOfCode_resCode {p : Params} (hp : p.Wf) {n : Word} (h : p.adcRes.any (fun e => e.bits == n) = true) :
    resOfCode p (resCode p n) = some n := by
  obtain ⟨-, -, ⟨-, -, hb, hc⟩, -⟩ := hp
  rw [List.any_eq_true] at h
  obtain ⟨e, he, hn⟩ := h
  have hsome : ∃ e', p.adcRes.find? (fun e => e.bits == n) = some e' := by
    rw [← Option.isSome_iff_exists, List.find?_isSome]
    exact ⟨e, he, hn⟩
  obtain ⟨e', he'⟩ := hsome
  have hm := List.mem_of_find?_eq_some he'
  have hb' : e'.bits = n := by simpa using List.find?_some he'
  have hsome2 : ∃ e'', p.adcRes.find? (fun x => x.code == e'.code) = some e'' := by
    rw [← Option.isSome_iff_exists, List.find?_isSome]
    exact ⟨e', hm, by simp⟩
  obtain ⟨e'', he''⟩ := hsome2
  have hm2 := List.mem_of_find?_eq_some he''
  have hc' : e''.code = e'.code := by simpa using List.find?_some he''
  have : e'' = e' := List.inj_on_of_nodup_map hc hm2 hm hc'
  simp [resOfCode, resCode, he', he'', this, hb']

/-- The analog input of a pin is one of the platform's. -/
theorem analogSel_mem {p : Params} {pin a : Word} (h : analogSel p pin = some a) : a ∈ p.analogInputs := by
  unfold analogSel at h
  split at h
  · rename_i e he
    exact List.mem_filterMap.mpr ⟨e, List.mem_of_getElem? he, h⟩
  · cases h

/-- A configuration word codes the triple it was packed from: `ADC_CFG_PACK` is injective (00_scope R14). -/
theorem unpackConfig_adcCfgPack {p : Params} (hp : p.Wf) {a f : Word} {e : ResEntry} (ha : a ∈ p.analogInputs)
    (he : e ∈ p.adcRes) (hf : f ∈ p.refBits) : unpackConfig p (adcCfgPack p a e.code f) = some ⟨a, e.code, f⟩ := by
  obtain ⟨-, -, -, -, -, hn, ht⟩ := hp
  simp only [Params.packTotal, List.all_eq_true] at ht
  obtain ⟨r, hr⟩ := Option.isSome_iff_exists.mp (ht a ha e he f hf)
  have hm := List.mem_of_find?_eq_some hr
  have hk := List.find?_some hr
  simp only [Bool.and_eq_true, beq_iff_eq] at hk
  have hsome : ∃ r', p.adcPack.find? (fun x => x.word == r.word) = some r' := by
    rw [← Option.isSome_iff_exists, List.find?_isSome]
    exact ⟨r, hm, by simp⟩
  obtain ⟨r', hr'⟩ := hsome
  have hw : r'.word = r.word := by simpa using List.find?_some hr'
  have : r' = r := List.inj_on_of_nodup_map hn (List.mem_of_find?_eq_some hr') hm hw
  simp [unpackConfig, adcCfgPack, hr, hr', this, hk]

/-- The resolution coded in a word packed for a supported resolution is that resolution. -/
theorem configuredResolution_adcCfgPack {p : Params} (hp : p.Wf) {a f n : Word} (ha : a ∈ p.analogInputs)
    (hn : p.adcRes.any (fun e => e.bits == n) = true) (hf : f ∈ p.refBits) :
    configuredResolution p (adcCfgPack p a (resCode p n) f) = some n := by
  obtain ⟨e, he, hc⟩ : ∃ e ∈ p.adcRes, e.code = resCode p n := by
    obtain ⟨e, he⟩ := Option.isSome_iff_exists.mp
      (List.find?_isSome.mpr (by simpa [List.any_eq_true] using hn) : (p.adcRes.find? (fun e => e.bits == n)).isSome)
    exact ⟨e, List.mem_of_find?_eq_some he, by simp [resCode, he]⟩
  rw [configuredResolution, ← hc, unpackConfig_adcCfgPack hp ha he hf]
  simp [hc, resOfCode_resCode hp hn]

/-- The reference bits of a mode 0 to 4 are one of the platform's five (00_scope R14). -/
theorem refBitsOf_mem {p : Params} (hp : p.Wf) {m : BitVec 3} (hm : m.toNat ≤ 4) : refBitsOf p m ∈ p.refBits := by
  have hl : m.toNat < p.refBits.length := by have := hp.2.2.2.1.1; omega
  simp [refBitsOf, List.getElem?_eq_getElem hl]

theorem drawBelow_lt (n raw : Word) : (drawBelow n raw).toNat < 2 ^ n.toNat := by
  unfold drawBelow
  rw [BitVec.toNat_ofNat]
  exact Nat.lt_of_le_of_lt (Nat.mod_le _ _) (Nat.mod_lt _ (Nat.two_pow_pos _))

theorem adcComplete_sampler {s : State} (raw : Word) (h : SamplerInv s) :
    SamplerInv (adcCompleteTurn raw s) := by
  obtain ⟨h1, h2, h3⟩ := h
  unfold adcCompleteTurn
  split
  · rename_i hb
    have hs := h2 hb
    simp only [readProgress, hs] at h3
    simp only [Bool.and_eq_true, nativeSupported, nativeConfigured, beq_iff_eq] at h3
    refine ⟨h1, by simp, ?_⟩
    simp only [readProgress, hs]
    simp [nativeSupported, nativeConfigured, h3.1.1.1, h3.1.1.2, isSample, conversionResult, drawBelow_lt]
  · exact ⟨h1, h2, h3⟩

theorem dispatcher_adc {t : TimerId} {s s' : State} (h : DispatcherStep t s s') : s'.adc = s.adc := by
  cases h <;> simp

/-! ### Pins, shape -/

theorem driveSlot_rising (i : Nat) (rule : Slot → Option Level) {s : State} (h : s.gpio.high.Pairwise (· < ·)) :
    (driveSlot i rule s).gpio.high.Pairwise (· < ·) := by
  unfold driveSlot
  dsimp only
  split
  · split
    · exact setLevel_rising h _ _
    · split
      · exact setLevel_rising h _ _
      · exact h
  · exact h

theorem driveCycleStart_rising (t : TimerId) {s : State} (h : s.gpio.high.Pairwise (· < ·)) :
    (driveCycleStart t s).gpio.high.Pairwise (· < ·) := by
  unfold driveCycleStart
  generalize slotsOf s.params t = l
  induction l generalizing s with
  | nil => exact h
  | cons i l ih => exact ih (driveSlot_rising i _ h)

theorem dispatcher_rising {t : TimerId} {s s' : State} (h : DispatcherStep t s s')
    (hr : s.gpio.high.Pairwise (· < ·)) : s'.gpio.high.Pairwise (· < ·) := by
  cases h with
  | none => exact hr
  | enter h => exact hr
  | leave h hk => exact hr
  | service h hk =>
    show (serviceEvent t s.irq.k s).gpio.high.Pairwise (· < ·)
    unfold serviceEvent
    split
    · split
      · exact driveCycleStart_rising t hr
      · exact driveSlot_rising _ _ hr
    · exact hr

theorem dispatcher_position {t : TimerId} {s s' : State} (h : DispatcherStep t s s')
    (hk : s.irq.k ≤ s.params.nCu + 1) : s'.irq.k ≤ s.params.nCu + 1 := by
  cases h with
  | none => exact hk
  | enter h => simp
  | leave h _ => exact hk
  | service h hk' => simp; omega

theorem EnvFrame.shape {s s' : State} (h : EnvFrame s s') (hk : s'.irq.k ≤ s.params.nCu + 1) (u : ShapeLegal s) :
    ShapeLegal s' := by
  obtain ⟨u1, u2, ⟨u3, u4⟩, -⟩ := u
  have e0 := (h.regs .t0).2.2.2.2
  have e1 := (h.regs .t1).2.2.2.2
  simp only [lookup] at e0 e1
  exact ⟨h.params ▸ u1, by rw [h.slots, h.params]; exact u2, by rw [e0, e1, h.params]; exact ⟨u3, u4⟩,
    h.params ▸ hk⟩

theorem EnvFrame.sequencer {s s' : State} (h : EnvFrame s s') (u : SequencerInv s) : SequencerInv s' := by
  simpa [SequencerInv, stepMatchesOp, indicesInRange, h.seq, h.params] using u

/-- A step of another agent than the foreground sequencer keeps the invariant, given the parts it may touch. -/
theorem EnvFrame.inv {s s' : State} (h : EnvFrame s s') (u : Inv s) (hk : s'.irq.k ≤ s.params.nCu + 1)
    (hg : s'.gpio.high.Pairwise (· < ·)) (hc : CountersInv s') (ha : SamplerInv s') : Inv s' := by
  obtain ⟨u1, u2, u3, u4, u5, -, -, u8, u9⟩ := u
  refine ⟨h.shape hk u1, ?_, ⟨hg, h.outputs ▸ u3.2⟩, h.sequencer u4, h.sameTables.allocatorInv h.seq u5, hc, ha, ?_,
    by rw [UndefInv, h.slots]; exact u9⟩
  · simpa [ConfigLegal, h.cfg] using u2
  · simpa [PortInv, h.resp, h.seq] using u8

end Sys2Proof.Machine
end

