-- ==== Sys2Proof/Laws/Foreground.lean ====
section
/-! SUPPORT. What a turn of the foreground sequencer keeps of the invariant. -/

namespace Sys2Proof.Machine

/-! ### WRITE -/

theorem writeStep_keeps {l : WriteStep} {s s' : State} (e : writeStep l s = .next s') :
    s'.params = s.params ∧ s'.cfg = s.cfg ∧ s'.irq = s.irq ∧ s'.adc = s.adc ∧ s'.host = s.host ∧
    s'.marks = s.marks ∧ s'.sched = s.sched ∧ s'.steps = s.steps ∧ s'.seq.fgOp = s.seq.fgOp ∧
    s'.seq.fgA = s.seq.fgA ∧ s'.seq.fgB = s.seq.fgB := by
  cases writeStep_move e
  case w0 => unfold stepW0; split <;> simp
  case w1 => unfold stepW1; split <;> simp
  case f1 => unfold stepF1; (repeat' split) <;> simp
  case f4 => unfold stepF4; split <;> simp
  case s0 => unfold stepS0; split <;> simp
  case s1 => simp [stepS1]
  case a1 => simp [stepA1]
  case a4 => unfold stepA4; split <;> simp
  case a7 => unfold stepA7; split <;> simp
  all_goals simp

theorem writeStep_resp {l : WriteStep} {s s' : State} (e : writeStep l s = .next s') :
    s'.resp = s.resp ∨ (s'.resp = { s.resp with done := true } ∧ s'.seq.step = .idle) := by
  cases writeStep_move e
  case w0 => unfold stepW0; split <;> simp
  case w1 => unfold stepW1; split <;> simp
  case f1 => unfold stepF1; (repeat' split) <;> simp
  case f4 => unfold stepF4; split <;> simp
  case s0 => unfold stepS0; split <;> simp
  case s1 => simp [stepS1]
  case a1 => simp [stepA1]
  case a4 => unfold stepA4; split <;> simp
  case a7 => unfold stepA7; split <;> simp
  all_goals simp

theorem writeStep_shape {l : WriteStep} {s s' : State} (e : writeStep l s = .next s') :
    s'.slots.length = s.slots.length ∧
    ∀ t, (lookup s'.timers t).comps.length = (lookup s.timers t).comps.length := by
  cases writeStep_move e
  case w0 => unfold stepW0; split <;> simp
  case w1 => unfold stepW1; split <;> simp
  case f1 => unfold stepF1; (repeat' split) <;> simp
  case f4 => unfold stepF4; split <;> simp
  case s0 => unfold stepS0; split <;> simp
  case s1 => simp [stepS1]
  case a1 => simp [stepA1]
  case a4 => unfold stepA4; split <;> simp
  case a7 => unfold stepA7; split <;> simp
  all_goals
    refine ⟨by simp, fun t => ?_⟩
    simp
    try (split <;> simp_all)

theorem writeStep_gpio {l : WriteStep} {s s' : State} (h : GpioCanonical s) (e : writeStep l s = .next s') :
    GpioCanonical s' := by
  cases writeStep_move e
  case w0 => unfold stepW0; split <;> simpa [GpioCanonical] using h
  case w1 => unfold stepW1; split <;> simpa [GpioCanonical] using h
  case f1 => unfold stepF1; (repeat' split) <;> simpa [GpioCanonical] using h
  case f4 => unfold stepF4; split <;> simpa [GpioCanonical] using h
  case s0 => unfold stepS0; split <;> simpa [GpioCanonical] using h
  case a4 => unfold stepA4; split <;> simpa [GpioCanonical] using h
  case a7 => unfold stepA7; split <;> simpa [GpioCanonical] using h
  case f6 => exact ⟨setLevel_rising h.1 _ _, h.2⟩
  case s1 => exact ⟨setLevel_rising h.1 _ _, by simpa [stepS1] using h.2⟩
  case a0 => exact ⟨h.1, insertNat_rising _ h.2⟩
  all_goals simpa [GpioCanonical, stepA1] using h

theorem sequencer_write {l : WriteStep} {s s' : State} (hl : s.slots.length = s.params.nSlots)
    (hs : s.seq.step = .write l) (h : SequencerInv s) (e : writeStep l s = .next s') : SequencerInv s' := by
  obtain ⟨h1, h2⟩ := h
  simp only [stepMatchesOp, hs] at h1
  simp only [indicesInRange, hs] at h2
  cases writeStep_move e
  case w0 => unfold stepW0; split <;> simp_all [SequencerInv, stepMatchesOp, indicesInRange, onAllocPath, onFreedSlot]
  case w1 => unfold stepW1; split <;> simp_all [SequencerInv, stepMatchesOp, indicesInRange, onAllocPath, onFreedSlot]
  case f1 =>
    unfold stepF1; (repeat' split) <;>
      simp_all [SequencerInv, stepMatchesOp, indicesInRange, onAllocPath, onFreedSlot]
    all_goals omega
  case f5 =>
    simp_all [SequencerInv, stepMatchesOp, indicesInRange, onAllocPath, onFreedSlot]
  case f4 => unfold stepF4; split <;> simp_all [SequencerInv, stepMatchesOp, indicesInRange, onAllocPath, onFreedSlot]
  case s0 =>
    unfold stepS0; split
    · simp_all [SequencerInv, stepMatchesOp, indicesInRange, onAllocPath, onFreedSlot]
    · rename_i i hi
      have := (selectSlot_some hi).1
      simp_all [SequencerInv, stepMatchesOp, indicesInRange, onAllocPath, onFreedSlot]
  case a1 =>
    unfold stepA1 afterA1
    cases s.params.bindOrder <;> simp_all [SequencerInv, stepMatchesOp, indicesInRange, onAllocPath, onFreedSlot]
  case a2 =>
    unfold afterA2
    cases s.params.bindOrder <;> simp_all [SequencerInv, stepMatchesOp, indicesInRange, onAllocPath, onFreedSlot]
  case a3 =>
    unfold afterA3
    cases s.params.bindOrder <;> simp_all [SequencerInv, stepMatchesOp, indicesInRange, onAllocPath, onFreedSlot]
  case a4 => unfold stepA4; split <;> simp_all [SequencerInv, stepMatchesOp, indicesInRange, onAllocPath, onFreedSlot]
  case a7 => unfold stepA7; split <;> simp_all [SequencerInv, stepMatchesOp, indicesInRange, onAllocPath, onFreedSlot]
  all_goals simp_all [SequencerInv, stepMatchesOp, indicesInRange, onAllocPath, onFreedSlot, stepS1]

/-- `WRITE` never leaves the labels of `WRITE` but to end. -/
theorem writeStep_label {l : WriteStep} {s s' : State} (e : writeStep l s = .next s') :
    s'.seq.step = .idle ∨ ∃ l', s'.seq.step = .write l' := by
  cases writeStep_move e
  case w0 => unfold stepW0; split <;> simp
  case w1 => unfold stepW1; split <;> simp
  case f1 => unfold stepF1; (repeat' split) <;> simp
  case f4 => unfold stepF4; split <;> simp
  case s0 => unfold stepS0; split <;> simp
  case s1 => simp [stepS1]
  case a1 => simp [stepA1]
  case a4 => unfold stepA4; split <;> simp
  case a7 => unfold stepA7; split <;> simp
  all_goals simp

theorem undefInv_write {l : WriteStep} {s s' : State} (hs : s.seq.step = .write l) (hp : s.params.Wf)
    (h : UndefInv s) (hv : writePinValid s = true) (e : writeStep l s = .next s') : UndefInv s' := by
  have key : ∀ j, (slotAt s j).bound = false → (slotAt s j).undef = false := by
    intro j hj
    by_cases hl : j < s.slots.length
    · exact h _ (slotAt_mem hl) hj
    · simp [slotAt_out (Nat.le_of_not_lt hl), Slot.free]
  intro x hx hb
  obtain ⟨j, hj, rfl⟩ := mem_slots_iff.mp hx
  rcases writeStep_slots hs e with h0 | ⟨rfl, h0⟩ | ⟨i, hi, ⟨rfl, h0⟩ | ⟨rfl, h0⟩⟩
  · rw [slotAt_eq h0] at hb ⊢; exact key j hb
  · rw [slotAt_eq h0] at hb ⊢
    unfold freeSlot at hb ⊢
    rw [slotAt_setSlot] at hb ⊢
    split
    · rfl
    · rename_i hn; rw [if_neg hn] at hb; exact key j hb
  · rw [slotAt_eq h0] at hb ⊢
    unfold setDuty at hb ⊢
    rw [slotAt_setSlot] at hb ⊢
    split
    · rename_i hn; rw [if_pos hn] at hb; exact key j hb
    · rename_i hn; rw [if_neg hn] at hb; exact key j hb
  · rw [slotAt_eq h0] at hb ⊢
    unfold bindSlot at hb ⊢
    rw [slotAt_setSlot] at hb ⊢
    split
    · rename_i hn
      rw [if_pos hn] at hb
      simp only [writePinValid, hs] at hv
      exact absurd (valid_ne_pinFree hp hv) (by simpa [Slot.bound] using hb)
    · rename_i hn; rw [if_neg hn] at hb; exact key j hb

/-- A micro-step of `WRITE` keeps the whole invariant. -/
theorem inv_write {l : WriteStep} {s s' : State} (hs : s.seq.step = .write l) (u : Inv s)
    (e : writeStep l s = .next s') : Inv s' := by
  obtain ⟨u1, u2, u3, u4, u5, ⟨u60, u61⟩, u7, u8, u9⟩ := u
  obtain ⟨k1, k2, k3, k4, -⟩ := writeStep_keeps e
  obtain ⟨l1, l2⟩ := writeStep_shape e
  have l20 := l2 .t0
  have l21 := l2 .t1
  simp only [lookup] at l20 l21
  have hlab := writeStep_label e
  refine ⟨?_, ?_, writeStep_gpio u3 e, sequencer_write u1.2.1 hs u4 e, allocatorInv_write hs u1 u4 u5 e, ⟨?_, ?_⟩, ?_, ?_,
    undefInv_write hs u1.1 u9 u5.2.2.2.2.1 e⟩
  · exact ⟨k1 ▸ u1.1, by rw [l1, k1]; exact u1.2.1, by rw [l20, l21, k1]; exact u1.2.2.1,
      by rw [k3, k1]; exact u1.2.2.2⟩
  · simpa [ConfigLegal, k2] using u2
  · exact counter_write hs .t0 u60 u5.2.2.1.1.2.2.1 u5.2.2.1.1.2.1 u5.2.2.2.2.2.2.2.1 e
  · exact counter_write hs .t1 u61 u5.2.2.1.2.2.2.1 u5.2.2.1.2.2.1 u5.2.2.2.2.2.2.2.1 e
  · obtain ⟨v1, v2, -⟩ := u7
    rw [hs] at v1 v2
    rcases hlab with h | ⟨l', h⟩ <;> refine ⟨?_, ?_, ?_⟩ <;> simp_all [readEnabled, readProgress]
  · unfold PortInv at u8
    rw [hs] at u8
    rcases writeStep_resp e with h | ⟨h, h'⟩
    · rw [PortInv, h]
      exact ⟨u8.1, fun hd => absurd (u8.2 hd) (by simp)⟩
    · rw [PortInv, h, h']
      simp

/-! ### The other commands -/

/-- A step of the foreground sequencer outside `WRITE` keeps the invariant, given what it may touch. -/
theorem inv_quiet {s s' : State} (u : Inv s) (hq : quietStep s.seq.step = true) (hq' : quietStep s'.seq.step = true)
    (h : SameTables s s') (ht : s'.timers = s.timers) (hg : s'.gpio = s.gpio) (hi : s'.irq = s.irq)
    (hc : ConfigLegal s') (hs : SequencerInv s') (ha : SamplerInv s') (hp : PortInv s') (hu : UndefInv s') :
    Inv s' := by
  obtain ⟨u1, u2, u3, u4, u5, u6, -, -, -⟩ := u
  refine ⟨?_, hc, ?_, hs, h.allocatorInv_quiet hq hq' u5, ?_, ha, hp, hu⟩
  · exact ⟨h.params ▸ u1.1, by rw [h.length, h.params]; exact u1.2.1, by rw [ht, h.params]; exact u1.2.2.1,
      by rw [hi, h.params]; exact u1.2.2.2⟩
  · simpa [GpioCanonical, hg] using u3
  · have key : ∀ t, CounterInv s t → CounterInv s' t := by
      intro t ⟨c1, c2⟩
      have e1 : aboutToClear s t = false := by
        unfold aboutToClear; split
        · rename_i e; simp [e, quietStep] at hq
        · rfl
      rw [CounterInv, ht]
      exact ⟨c1, fun hr _ => c2 hr e1⟩
    exact ⟨key .t0 u6.1, key .t1 u6.2⟩

theorem sameTables_of_eq {s s' : State} (h1 : s'.params = s.params) (h2 : s'.slots = s.slots) (h3 : s'.arb = s.arb)
    (h4 : s'.nvic = s.nvic) (h5 : s'.timers = s.timers) : SameTables s s' where
  params := h1
  length := by rw [h2]
  slots j := by rw [slotAt_eq h2]; exact ⟨rfl, rfl⟩
  arb := h3
  nvic := h4
  run t := by rw [h5]
  comps t k := by rw [h5]; exact ⟨rfl, rfl⟩

theorem sameTables_markBoundUndefined {s s' : State} (h1 : s'.params = s.params)
    (h2 : s'.slots = (markBoundUndefined s).slots) (h3 : s'.arb = s.arb)
    (h4 : s'.nvic = s.nvic) (h5 : s'.timers = s.timers) : SameTables s s' where
  params := h1
  length := by rw [h2]; simp
  slots j := by
    rw [slotAt_eq h2, slotAt_markBoundUndefined]; split <;> exact ⟨rfl, rfl⟩
  arb := h3
  nvic := h4
  run t := by rw [h5]
  comps t k := by rw [h5]; exact ⟨rfl, rfl⟩

theorem readStep_keeps (l : ReadStep) (s : State) :
    (readStep l s).params = s.params ∧ (readStep l s).slots = s.slots ∧ (readStep l s).arb = s.arb ∧
    (readStep l s).cfg = s.cfg ∧ (readStep l s).irq = s.irq ∧ (readStep l s).timers = s.timers ∧
    (readStep l s).nvic = s.nvic ∧ (readStep l s).gpio = s.gpio ∧ (readStep l s).host = s.host ∧
    (readStep l s).sched = s.sched ∧ (readStep l s).steps = s.steps ∧ (readStep l s).marks = s.marks ∧
    (readStep l s).seq.fgOp = s.seq.fgOp ∧ (readStep l s).seq.fgA = s.seq.fgA ∧
    (readStep l s).seq.fgB = s.seq.fgB := by
  cases l
  case rd0 => simp only [readStep, stepRD0]; split <;> simp
  case rd4 => simp only [readStep, stepRD4]; split <;> simp
  all_goals simp [readStep]

/-- The native resolution is a supported one: 10 is supported (00_scope R11). -/
theorem nativeResolution_supported {p : Params} (hp : p.Wf) (b : Word) :
    p.adcRes.any (fun e => e.bits == nativeResolution p b) = true := by
  have key : ∀ (l : List ResEntry) (best : Option Word),
      (match l.foldl (betterResolution b) best with
        | some r => best = some r ∨ ∃ e ∈ l, e.bits = r
        | none => True) := by
    intro l
    induction l with
    | nil => intro best; cases best <;> simp
    | cons x xs ih =>
      intro best
      simp only [List.foldl_cons]
      have h := ih (betterResolution b best x)
      split
      · rename_i r hr
        rw [hr] at h
        rcases h with h | ⟨e, he, hb⟩
        · unfold betterResolution at h
          split at h
          · split at h
            · exact .inr ⟨x, by simp, by simpa using h⟩
            · split at h
              · exact .inr ⟨x, by simp, by simpa using h⟩
              · exact .inl h
          · exact .inl h
        · exact .inr ⟨e, by simp [he], hb⟩
      · trivial
  have h := key p.adcRes none
  unfold nativeResolution
  rw [List.any_eq_true]
  split
  · rename_i r hr
    rw [hr] at h
    rcases h with h | ⟨e, he, hb⟩
    · cases h
    · exact ⟨e, he, by simpa using hb⟩
  · obtain ⟨-, -, ⟨h10, -⟩, -⟩ := hp
    obtain ⟨e, he, hb⟩ := List.mem_map.mp h10
    exact ⟨e, he, by simpa using hb⟩

/-- RD2 writes a word that codes the native resolution (40_sampler R106). -/
theorem readConfigWord_configured {s : State} (hp : s.params.Wf) (hc : s.cfg.adcRef.toNat ≤ 4)
    (hn : nativeSupported s = true) (ha : (analogSel s.params s.seq.fgA).isSome = true) :
    configuredResolution s.params (readConfigWord s) = some s.seq.native := by
  obtain ⟨a, ha⟩ := Option.isSome_iff_exists.mp ha
  rw [readConfigWord, ha]
  exact configuredResolution_adcCfgPack hp (analogSel_mem ha) hn (refBitsOf_mem hp hc)

theorem readStep_sampler {l : ReadStep} {s : State} (hp : s.params.Wf) (hc : s.cfg.adcRef.toNat ≤ 4)
    (hs : s.seq.step = .read l) (h : SamplerInv s) : SamplerInv (readStep l s) := by
  obtain ⟨h1, h2, h3⟩ := h
  simp only [readProgress, hs] at h3
  rw [hs] at h1 h2
  cases l
  case rd0 =>
    simp only [readStep, stepRD0]
    split
    · simp_all [SamplerInv, readEnabled, readProgress]
    · simp_all [SamplerInv, readEnabled, readProgress, nativeSupported]
      simpa using nativeResolution_supported hp s.cfg.readRes
  case rd2 =>
    simp only [Bool.and_eq_true] at h3
    have hw := readConfigWord_configured hp hc h3.1 h3.2
    simp_all [SamplerInv, readEnabled, readProgress, nativeSupported, nativeConfigured, readStep]
  case rd4 =>
    simp only [readStep, stepRD4]
    split <;> simp_all [SamplerInv, readEnabled, readProgress, nativeSupported, nativeConfigured, isSample]
  all_goals
    simp_all [SamplerInv, readEnabled, readProgress, nativeSupported, nativeConfigured, isSample, readStep]

theorem readStep_port {l : ReadStep} {s : State} (hs : s.seq.step = .read l) (h : PortInv s) :
    PortInv (readStep l s) := by
  rw [PortInv, hs] at h
  have hd : s.resp.done = false := by
    cases e : s.resp.done
    · rfl
    · exact absurd (h.2 e) (by simp)
  have hv : s.resp.respValid = false := by
    cases e : s.resp.respValid
    · rfl
    · exact absurd (h.1 e) (by simp [hd])
  cases l
  case rd0 => simp only [readStep, stepRD0]; split <;> simp [PortInv, hd, hv]
  case rd4 => simp only [readStep, stepRD4]; split <;> simp [PortInv, hd, hv]
  all_goals simp [PortInv, readStep, hd, hv]

theorem readStep_sequencer {l : ReadStep} {s : State} (hs : s.seq.step = .read l) (h : SequencerInv s) :
    SequencerInv (readStep l s) := by
  obtain ⟨h1, -⟩ := h
  simp only [stepMatchesOp, hs] at h1
  cases l
  case rd0 => simp only [readStep, stepRD0]; split <;> simpa [SequencerInv, stepMatchesOp, indicesInRange] using h1
  case rd4 => simp only [readStep, stepRD4]; split <;> simp_all [SequencerInv, stepMatchesOp, indicesInRange]
  all_goals simp_all [SequencerInv, stepMatchesOp, indicesInRange, readStep]

theorem readStep_quiet {l : ReadStep} {s : State} (hs : s.seq.step = .read l) :
    quietStep (readStep l s).seq.step = true := by
  cases l
  case rd0 => simp only [readStep, stepRD0]; split <;> simp [quietStep]
  case rd4 => simp only [readStep, stepRD4]; split <;> simp [quietStep, hs]
  all_goals simp [readStep, quietStep]

theorem writeResolution_idem (b : Word) : writeResolution (writeResolution b).1 = writeResolution b := by
  unfold writeResolution
  split <;> simp_all
  split <;> simp_all <;> omega

theorem referenceMode_le (m : Word) : (referenceMode m).toNat ≤ 4 := by
  unfold referenceMode
  split
  · simp; omega
  · simp

/-- The end of a command other than `READ` and `WRITE`. -/
theorem inv_finish {s s' : State} (u : Inv s) (hq : quietStep s.seq.step = true) (h : SameTables s s')
    (hr : ∀ l, s.seq.step ≠ .read l) (ht : s'.timers = s.timers) (hg : s'.gpio = s.gpio) (hi : s'.irq = s.irq)
    (ha : s'.adc = s.adc) (hc : ConfigLegal s') (hs : s'.seq.step = .idle) (hd : s'.resp.done = true)
    (hu : UndefInv s') : Inv s' := by
  obtain ⟨v1, v2, -⟩ := u.2.2.2.2.2.2.1
  have hne : s.seq.step ≠ .read .rd4 := hr _
  refine inv_quiet u hq (by rw [hs]; rfl) h ht hg hi hc ?_ ?_ ?_ hu
  · simp [SequencerInv, stepMatchesOp, indicesInRange, hs]
  · refine ⟨?_, ?_, ?_⟩
    · rw [ha, v1, hs]
      unfold readEnabled
      split
      all_goals first | (exfalso; exact hr _ ‹_›) | rfl
    · intro hb; rw [ha] at hb; exact absurd (v2 hb) hne
    · simp [readProgress, hs]
  · exact ⟨fun _ => hd, fun _ => hs⟩

/-- A micro-step of the foreground sequencer keeps the invariant. -/
theorem inv_micro {s s' : State} (u : Inv s) (m : MicroStep s s') : Inv s' := by
  have hc : ConfigLegal s := u.2.1
  have hu : UndefInv s := u.2.2.2.2.2.2.2.2
  cases m with
  | rr0 h =>
    exact inv_finish u (by rw [h]; rfl) (sameTables_of_eq rfl rfl rfl rfl rfl) (by simp [h]) rfl rfl rfl rfl hc rfl rfl hu
  | rf0 h =>
    exact inv_finish u (by rw [h]; rfl) (sameTables_of_eq rfl rfl rfl rfl rfl) (by simp [h]) rfl rfl rfl rfl
      ⟨hc.1, referenceMode_le _⟩ rfl rfl hu
  | sw0 h =>
    have hc' : ∀ x : State, x.cfg = (storeWriteResolution s.seq.fgA s).cfg → ConfigLegal x := by
      intro x hx
      rw [ConfigLegal, hx]
      refine ⟨?_, hc.2⟩
      simp [writeResolution_idem]
    unfold stepSW0
    split
    · exact inv_finish u (by rw [h]; rfl) (sameTables_of_eq rfl rfl rfl rfl rfl) (by simp [h]) rfl rfl rfl rfl
        (hc' _ rfl) rfl rfl hu
    · refine inv_finish u (by rw [h]; rfl) (sameTables_markBoundUndefined rfl rfl rfl rfl rfl) (by simp [h]) rfl rfl rfl
        rfl (hc' _ rfl) rfl rfl ?_
      intro x hx hb
      simp only [finish_keeps, markBoundUndefined_changes, storeWriteResolution_keeps, List.mem_map] at hx
      obtain ⟨y, hy, rfl⟩ := hx
      split at hb
      · rename_i hyb; simp [Slot.bound] at hb hyb; exact absurd hb hyb
      · rename_i hyb; rw [if_neg hyb]; exact hu y hy hb
  | read l h =>
    obtain ⟨k1, k2, k3, k4, k5, k6, k7, k8, -⟩ := readStep_keeps l s
    refine inv_quiet u (by rw [h]; rfl) (readStep_quiet h) (sameTables_of_eq k1 k2 k3 k7 k6) k6 k8 k5 ?_
      (readStep_sequencer h u.2.2.2.1) (readStep_sampler u.1.1 hc.2 h u.2.2.2.2.2.2.1) (readStep_port h u.2.2.2.2.2.2.2.1) ?_
    · rw [ConfigLegal, k4]; exact hc
    · rw [UndefInv, k2]; exact hu
  | write l s' h e => exact inv_write h u e
  | reserved h =>
    exact inv_finish u (by rw [h]; rfl) (sameTables_of_eq rfl rfl rfl rfl rfl) (by simp [h]) rfl rfl rfl rfl hc rfl rfl hu

/-- Accepting a command touches the sequencer and, for a `SETWRES`, the run's mark. -/
theorem acceptedState_keeps (i : Instr) (s : State) :
    (acceptedState i s).params = s.params ∧ (acceptedState i s).slots = s.slots ∧ (acceptedState i s).arb = s.arb ∧
    (acceptedState i s).cfg = s.cfg ∧ (acceptedState i s).irq = s.irq ∧ (acceptedState i s).resp = s.resp ∧
    (acceptedState i s).timers = s.timers ∧ (acceptedState i s).nvic = s.nvic ∧ (acceptedState i s).gpio = s.gpio ∧
    (acceptedState i s).adc = s.adc ∧ (acceptedState i s).host = s.host ∧ (acceptedState i s).sched = s.sched ∧
    (acceptedState i s).steps = s.steps ∧ (acceptedState i s).trace = s.trace ∧
    (acceptedState i s).seq = { s.seq with fgOp := i.opcode, fgA := i.operandA, fgB := i.operandB, step := firstLabel i } := by
  cases i with
  | setwres b x => unfold acceptedState acceptSetwres; dsimp only; split <;> simp [firstLabel]
  | _ => simp [acceptedState, firstLabel]

/-- Accepting a command, or a reserved one, keeps the invariant: the machine was ready, and only the sequencer moves. -/
theorem inv_accepted {s s' : State} (u : Inv s) (hr : Ready s) (hd : s.resp.done = false)
    (h1 : s'.params = s.params) (h2 : s'.slots = s.slots) (h3 : s'.arb = s.arb) (h4 : s'.cfg = s.cfg)
    (h5 : s'.irq = s.irq) (h6 : s'.resp = s.resp) (h7 : s'.timers = s.timers) (h8 : s'.nvic = s.nvic)
    (h9 : s'.gpio = s.gpio) (h10 : s'.adc = s.adc) (hq : quietStep s'.seq.step = true)
    (hs : SequencerInv s') (he : readEnabled s'.seq.step = false) (hp : readProgress s' = true) : Inv s' := by
  obtain ⟨v1, v2, -⟩ := u.2.2.2.2.2.2.1
  rw [hr.1] at v1 v2
  refine inv_quiet u (by rw [hr.1]; rfl) hq (sameTables_of_eq h1 h2 h3 h8 h7) h7 h9 h5 ?_ hs ?_ ?_
    (by rw [UndefInv, h2]; exact u.2.2.2.2.2.2.2.2)
  · rw [ConfigLegal, h4]; exact u.2.1
  · refine ⟨by rw [h10, v1, he]; rfl, ?_, hp⟩
    intro hb; rw [h10] at hb; exact absurd (v2 hb) (by simp)
  · have hv : s.resp.respValid = false := by
      cases e : s.resp.respValid
      · rfl
      · exact absurd (u.2.2.2.2.2.2.2.1.1 e) (by simp [hd])
    rw [PortInv, h6]; simp [hd, hv]

theorem inv_host {s : State} (u : Inv s) (rest : List CommandWord) : Inv { s with host := rest } := u

/-- A turn of the foreground sequencer keeps the invariant. -/
theorem inv_foreground {s s' : State} (u : Inv s) (hd : s.resp.done = false) (h : ForegroundStep s s') : Inv s' := by
  cases h with
  | none => exact u
  | accept w rest i hr hh hdec =>
    obtain ⟨k1, k2, k3, k4, k5, k6, k7, k8, k9, k10, -, -, -, -, k15⟩ := acceptedState_keeps i { s with host := rest }
    refine inv_accepted (s := { s with host := rest }) u hr hd k1 k2 k3 k4 k5 k6 k7 k8 k9 k10 ?_ ?_ ?_ ?_
    · rw [k15]; cases i <;> rfl
    · cases i <;> simp [SequencerInv, stepMatchesOp, indicesInRange, k15, firstLabel, onAllocPath, onFreedSlot, Instr.opcode]
    · rw [k15]; cases i <;> rfl
    · cases i <;> simp [readProgress, k15, firstLabel]
  | acceptReserved w rest hr hh hdec =>
    refine inv_accepted (s := { s with host := rest }) u hr hd rfl rfl rfl rfl rfl rfl rfl rfl rfl rfl rfl ?_ rfl rfl
    obtain ⟨-, h⟩ := decode_eq_error hdec
    refine ⟨?_, rfl⟩
    simpa [stepMatchesOp, acceptReserved] using h
  | micro s' hn hi hm => exact inv_micro u hm

/-- Beginning a step keeps the invariant. -/
theorem inv_beginStep {s : State} (u : Inv s) : Inv (beginStep s) := by
  obtain ⟨u1, u2, u3, u4, u5, u6, u7, -, u9⟩ := u
  exact ⟨u1, u2, u3, u4, u5, u6, u7, by simp [PortInv], u9⟩

/-- A turn of the dispatcher keeps the invariant. -/
theorem inv_dispatcher {t : TimerId} {s s' : State} (u : Inv s) (h : DispatcherStep t s s') : Inv s' := by
  have hf := dispatcher_frame h
  exact hf.inv u (dispatcher_position h u.1.2.2.2) (dispatcher_rising h u.2.2.1.1)
    ⟨dispatcher_counters h .t0 u.2.2.2.2.2.1.1, dispatcher_counters h .t1 u.2.2.2.2.2.1.2⟩
    (sampler_of_eq hf.params hf.seq (dispatcher_adc h) u.2.2.2.2.2.2.1)

/-- A tick keeps the invariant. -/
theorem inv_tick (t : TimerId) {s : State} (u : Inv s) : Inv (tickTurn t s) := by
  have hf := tick_frame t s
  have e : (tickTurn t s).irq = s.irq ∧ (tickTurn t s).gpio = s.gpio ∧ (tickTurn t s).adc = s.adc := by
    unfold tickTurn; split <;> simp
  exact hf.inv u (e.1 ▸ u.1.2.2.2) (e.2.1 ▸ u.2.2.1.1)
    ⟨tick_counters t .t0 s u.2.2.2.2.2.1.1, tick_counters t .t1 s u.2.2.2.2.2.1.2⟩
    (sampler_of_eq hf.params hf.seq e.2.2 u.2.2.2.2.2.2.1)

/-- The completion of a conversion keeps the invariant. -/
theorem inv_adcComplete (raw : Word) {s : State} (u : Inv s) : Inv (adcCompleteTurn raw s) := by
  have hf := adcComplete_frame raw s
  have e : (adcCompleteTurn raw s).irq = s.irq ∧ (adcCompleteTurn raw s).gpio = s.gpio ∧
      (adcCompleteTurn raw s).timers = s.timers := by
    unfold adcCompleteTurn; split <;> simp
  refine hf.inv u (e.1 ▸ u.1.2.2.2) (e.2.1 ▸ u.2.2.1.1) ⟨?_, ?_⟩ (adcComplete_sampler raw u.2.2.2.2.2.2.1)
  · exact counters_of_eq hf.params hf.seq (fun t => by rw [e.2.2]; exact ⟨rfl, rfl, rfl⟩) .t0 u.2.2.2.2.2.1.1
  · exact counters_of_eq hf.params hf.seq (fun t => by rw [e.2.2]; exact ⟨rfl, rfl, rfl⟩) .t1 u.2.2.2.2.2.1.2

/-- An event of the OPEN timer model keeps the invariant. -/
theorem inv_timerEvent (t : TimerId) (k : Nat) {s : State} (u : Inv s) : Inv (timerEventTurn t k s) := by
  have hf := timerEvent_frame t k s
  have e : (timerEventTurn t k s).irq = s.irq ∧ (timerEventTurn t k s).gpio = s.gpio ∧
      (timerEventTurn t k s).adc = s.adc := by
    unfold timerEventTurn; split
    · simp
    · split <;> simp
  exact hf.inv u (e.1 ▸ u.1.2.2.2) (e.2.1 ▸ u.2.2.1.1)
    ⟨timerEvent_counters t k s .t0 u.2.2.2.2.2.1.1, timerEvent_counters t k s .t1 u.2.2.2.2.2.1.2⟩
    (sampler_of_eq hf.params hf.seq e.2.2 u.2.2.2.2.2.2.1)

/-- A free level of an undefined pin keeps the invariant. -/
theorem inv_undefinedPin (i : Nat) (l : Level) {s : State} (u : Inv s) : Inv (undefinedPinTurn i l s) := by
  have hf := undefinedPin_frame i l s
  have e : (undefinedPinTurn i l s).irq = s.irq ∧ (undefinedPinTurn i l s).timers = s.timers ∧
      (undefinedPinTurn i l s).adc = s.adc := by
    unfold undefinedPinTurn; dsimp only; split <;> simp
  have hg : (undefinedPinTurn i l s).gpio.high.Pairwise (· < ·) := by
    unfold undefinedPinTurn; dsimp only; split
    · exact setLevel_rising u.2.2.1.1 _ _
    · exact u.2.2.1.1
  refine hf.inv u (e.1 ▸ u.1.2.2.2) hg ⟨?_, ?_⟩ (sampler_of_eq hf.params hf.seq e.2.2 u.2.2.2.2.2.2.1)
  · exact counters_of_eq hf.params hf.seq (fun t => by rw [e.2.1]; exact ⟨rfl, rfl, rfl⟩) .t0 u.2.2.2.2.2.1.1
  · exact counters_of_eq hf.params hf.seq (fun t => by rw [e.2.1]; exact ⟨rfl, rfl, rfl⟩) .t1 u.2.2.2.2.2.1.2

/-! ### A step, by agent -/

/-- A step is a turn of the foreground sequencer, or leaves everything of PMX but the pins alone. -/
theorem step_agent {s t : State} (h : step s = .next t) :
    (nextTurn s = .foreground ∧ ForegroundStep (beginStep s) t) ∨
    (nextTurn s ≠ .foreground ∧ EnvFrame (beginStep s) t) := by
  unfold step takeTurn at h
  split at h
  · left; rename_i e; exact ⟨e, foregroundTurn_cases h⟩
  all_goals
    right; rename_i e; refine ⟨by rw [e]; simp, ?_⟩; cases h
  · exact dispatcher_frame (dispatcherTurn_cases _ _)
  · exact tick_frame _ _
  · exact adcComplete_frame _ _
  · exact timerEvent_frame _ _ _
  · exact undefinedPin_frame _ _ _

/-- Of the turns of the foreground sequencer only a micro-step of `WRITE` touches a timer, its row of the timer resource table
or its interrupt line, or comes to a label of `WRITE` other than W0. -/
theorem foregroundStep_tables {s t : State} (h : ForegroundStep s t) :
    (t.timers = s.timers ∧ t.arb = s.arb ∧ t.nvic = s.nvic ∧
      (t.seq.step = s.seq.step ∨ ∀ l, t.seq.step = .write l → l = .w0)) ∨
    ∃ l, s.seq.step = .write l ∧ writeStep l s = .next t := by
  cases h with
  | none => left; simp
  | accept w rest i hr hh hd =>
    left
    obtain ⟨-, -, k3, -, -, -, k7, k8, -, -, -, -, -, -, k15⟩ := acceptedState_keeps i { s with host := rest }
    refine ⟨k7, k3, k8, .inr ?_⟩
    intro l hl; rw [k15] at hl; cases i <;> simp [firstLabel] at hl; exact hl.symm
  | acceptReserved w rest hr hh hd => left; simp [acceptReserved]
  | micro s' hn hi hm =>
    cases hm with
    | rr0 h => left; simp [stepRR0]
    | rf0 h => left; simp [stepRF0]
    | sw0 h => left; unfold stepSW0; split <;> simp
    | read l h =>
      left
      obtain ⟨k1, k2, k3, k4, k5, k6, k7, k8, -⟩ := readStep_keeps l s
      refine ⟨k6, k3, k7, .inr ?_⟩
      intro l' hl'
      have := readStep_quiet h
      rw [hl'] at this; cases l' <;> simp [quietStep] at this; rfl
    | write l s' h e => right; exact ⟨l, h, e⟩
    | reserved h => left; simp

end Sys2Proof.Machine
end

