-- ==== Sys2Proof/Laws/PerInstr.lean ====
section
/-! SUPPORT. What holds of every command as syntax, one lemma per constructor. -/

namespace Sys2Proof.Laws.Coding

/-- A command is well formed; its operation code is one of the five that are not reserved (30_encoding R83, R84); its word
carries that code and both operand fields whole (R81); and the word decodes to it. -/
def Statement (i : Instr) : Prop :=
  i.wellFormed = true ∧ (1 ≤ i.opcode.toNat ∧ i.opcode.toNat ≤ 5) ∧
  opField (encode i) = i.opcode ∧ aField (encode i) = i.operandA ∧ bField (encode i) = i.operandB ∧
  decodeFields i.opcode i.operandA i.operandB = .ok i

theorem setrres (bits ignored : Word) : Statement (.setrres bits ignored) := by
  refine ⟨rfl, ?_, by simp, by simp, by simp, rfl⟩
  simp [Instr.opcode]

theorem setref (mode ignored : Word) : Statement (.setref mode ignored) := by
  refine ⟨rfl, ?_, by simp, by simp, by simp, rfl⟩
  simp [Instr.opcode]

theorem read (pin ignored : Word) : Statement (.read pin ignored) := by
  refine ⟨rfl, ?_, by simp, by simp, by simp, rfl⟩
  simp [Instr.opcode]

theorem setwres (bits ignored : Word) : Statement (.setwres bits ignored) := by
  refine ⟨rfl, ?_, by simp, by simp, by simp, rfl⟩
  simp [Instr.opcode]

theorem write (pin value : Word) : Statement (.write pin value) := by
  refine ⟨rfl, ?_, by simp, by simp, by simp, rfl⟩
  simp [Instr.opcode]

end Sys2Proof.Laws.Coding
end

