-- ==== Sys2Proof/Tests/Slice0.lean ====
section
/-! SUPPORT. The model's own tests: ill-formed terms that the checks refuse, words and results from 95_test_vectors of the
spec, and for each statement with hypotheses a concrete state that meets them. -/

namespace Sys2Proof.Tests

open Sys2Proof Sys2Proof.Machine

/-! ### WellFormed: an ill-formed term for each check -/

theorem test_illFormed_operand : operandFits (2 ^ 32) = false := by decide

theorem test_illFormed_reference : (RefOperand.number (2 ^ 32)).wellFormed = false := by decide

theorem test_illFormed_calls :
    (SourceCall.setReadResolution (2 ^ 32)).wellFormed = false ∧
    (SourceCall.setReference (.number (2 ^ 32))).wellFormed = false ∧
    (SourceCall.read (2 ^ 32)).wellFormed = false ∧
    (SourceCall.setWriteResolution (2 ^ 32)).wellFormed = false ∧
    (SourceCall.write (2 ^ 32) 0).wellFormed = false ∧ (SourceCall.write 0 (2 ^ 32)).wellFormed = false := by decide

theorem test_illFormed_words :
    commandNumberOk (2 ^ 72) = false ∧ commandNumberOk 0 = false ∧ commandNumberOk 0x060000000500000040 = false ∧
    commandNumberOk 0x050000000500000040 = true := by decide

theorem test_illFormed_not_assembled :
    assembleLine "write(4294967296, 0)".toList = none ∧ assembleLine "read(-1)".toList = none ∧
    assembleLine "setReference(external-2)".toList = none ∧ assembleLine "write(5)".toList = none := by decide

/-! ### Decode: words written out from 30_encoding R81, R83 and 95_test_vectors 2.9 -/

/-- The bit pattern of `write(5, 64)` as 95_test_vectors 2.9 gives it, bit 71 first. -/
theorem test_decode_write :
    decode 0b000001010000000000000000000000000000010100000000000000000000000001000000#72 =
      .ok (.write 5#32 64#32) := by decide

theorem test_decode_setrres :
    decode 0b000000010000000000000000000000000000110000000000000000000000000000000000#72 =
      .ok (.setrres 12#32 0#32) := by decide

theorem test_decode_setref :
    decode 0b000000100000000000000000000000000000000100000000000000000000000000000000#72 =
      .ok (.setref 1#32 0#32) := by decide

theorem test_decode_read :
    decode 0b000000110000000000000000000000000001100011111111111111111111111111111111#72 =
      .ok (.read 24#32 0xFFFFFFFF#32) := by decide

theorem test_decode_setwres :
    decode 0b000001000000000000000000000000000001000000000000000000000000000000000000#72 =
      .ok (.setwres 16#32 0#32) := by decide

theorem test_decode_reserved :
    decode 0#72 = .error (.reservedOpcode 0#8) ∧
    decode 0x060000000500000040#72 = .error (.reservedOpcode 6#8) ∧
    decode 0xFFFFFFFFFFFFFFFFFF#72 = .error (.reservedOpcode 255#8) := by decide

theorem test_decode_table_word :
    decodeTableWord 72 0x030000001800000000 = some (.read 24#32 0#32) ∧ decodeTableWord 72 0 = none ∧
    decodeTableWord 73 0x030000001800000000 = none := by decide

/-! ### Values: 95_test_vectors 2.1 and 2.2 -/

theorem test_mapResolution_vectors :
    mapResolution 0x3FF#32 10#32 12#32 = 0xFFC#32 ∧ mapResolution 0x3FF#32 10#32 6#32 = 0x3F#32 ∧
    mapResolution 1#32 10#32 41#32 = 0x80000000#32 ∧ mapResolution 1#32 10#32 42#32 = 0#32 ∧
    mapResolution 0xFFFFFFFF#32 40#32 8#32 = 0#32 ∧ mapResolution 300#32 8#32 8#32 = 300#32 ∧
    mapResolution 0x80000000#32 8#32 9#32 = 0#32 := by decide

theorem test_native_vectors :
    [0, 1, 7, 8, 9, 10, 11, 42].map (fun b => (nativeResolution Config.testPlatform (BitVec.ofNat 32 b)).toNat) =
      [10, 10, 10, 8, 9, 10, 10, 10] := by decide

/-! ### States -/

/-- The reset state with command `i` latched and the sequencer at label `l`. -/
def atLabel (l : FgStep) (i : Instr) : State :=
  { State.reset with seq := { State.reset.seq with
      step := l, fgOp := i.opcode, fgA := i.operandA, fgB := i.operandB } }

/-- The state with slot `j` selected, newly bound or not. -/
def selecting (j : Nat) (new : Bool) (s : State) : State :=
  { s with seq := { s.seq with sel := some j, newBind := new } }

/-- The state with a command waiting at the port. -/
def waiting (i : Instr) (s : State) : State := { s with host := [encode i] }

/-- The state with one turn scheduled. -/
def turning (turn : Turn) (s : State) : State := { s with sched := [turn] }

/-- The state with the given slot rows first. -/
def withSlots (rows : List Slot) (s : State) : State := { s with slots := rows ++ s.slots.drop rows.length }

/-- Timer 0 as it runs after `write(5, 64)` (95_test_vectors P1), at a counter value and with the given flags 0 and 1. -/
def timerOfP1 (cnt : Nat) (e0 e1 : Bool) : TimerRegs :=
  { TimerRegs.launch Config.testPlatform with
    run := true, cnt := BitVec.ofNat 16 cnt
    comps := [⟨0#32, true, e0⟩, ⟨64#32, true, e1⟩, Comparator.launch, Comparator.launch] }

/-- The end state of program P1's command, at a counter value and with the given flags 0 and 1 of timer 0. -/
def endOfP1 (cnt : Nat) (e0 e1 : Bool) : State :=
  { withSlots [⟨5#32, 64#32, false⟩] State.reset with
    arb := ⟨⟨1#4, true⟩, ⟨0#4, false⟩⟩
    timers := ⟨timerOfP1 cnt e0 e1, TimerRegs.launch Config.testPlatform⟩
    nvic := ⟨⟨true, 0x203#32⟩, ⟨false, 0#32⟩⟩
    gpio := ⟨[], [5]⟩ }

/-- All six slots bound to the pins 1 to 6 (95_test_vectors 2.5, fallback vectors). -/
def allBound : State :=
  withSlots [⟨1#32, 10#32, false⟩, ⟨2#32, 20#32, false⟩, ⟨3#32, 30#32, false⟩, ⟨4#32, 40#32, false⟩,
    ⟨5#32, 50#32, false⟩, ⟨6#32, 60#32, false⟩] State.reset

/-- The state a step gives. -/
def after (s : State) : State :=
  match step s with
  | .next t    => t
  | .refused _ => s

/-- The state a command's step gives. -/
def afterExec (i : Instr) (s : State) : State :=
  match exec i s with
  | .next t    => t
  | .refused _ => s

/-- What a test looks at in an outcome. -/
def look {α : Type} (o : Host.Outcome State Fault Refusal) (f : State → α) : Option α :=
  match o with
  | .next t    => some (f t)
  | .refused _ => none

/-! ### One step of each command: 95_test_vectors 2.3 to 2.7 -/

/-- RR4. -/
theorem test_setrres_stores_any :
    look (exec (.setrres 0xFFFFFFFF#32 0#32) (atLabel .rr0 (.setrres 0xFFFFFFFF#32 0#32)))
      (fun t => (t.cfg.readRes, t.resp.done)) = some (0xFFFFFFFF#32, true) := by decide

/-- RF3, RF5. -/
theorem test_setref_stores :
    look (exec (.setref 3#32 0#32) (atLabel .rf0 (.setref 3#32 0#32))) (fun t => t.cfg.adcRef) = some 3#3 ∧
    look (exec (.setref 5#32 0#32) (atLabel .rf0 (.setref 5#32 0#32))) (fun t => t.cfg.adcRef) = some 4#3 := by decide

/-- The configuration word of RD1. -/
theorem test_read_configures :
    look (exec (.read 24#32 0#32)
      { atLabel (.read .rd2) (.read 24#32 0#32) with
        seq := { (atLabel (.read .rd2) (.read 24#32 0#32)).seq with native := 10#32 } }) (fun t => t.adc.cfg) =
      some 0xA00400#32 := by decide

/-- The test platform meets the constraints of its parameters. -/
theorem testPlatform_wf : Config.testPlatform.Wf := by decide +kernel

/-- RD2: the rescaled answer. -/
theorem test_read_rescales :
    look (exec (.read 24#32 0#32)
      { atLabel (.read .rd7) (.read 24#32 0#32) with
        cfg := { ResConfig.reset with readRes := 12#32 }
        seq := { (atLabel (.read .rd7) (.read 24#32 0#32)).seq with native := 10#32, raw := 0x3FF#32 } })
      (fun t => t.resp.resp) = some 0xFFC#32 := by decide

/-- S8-4 and the edges of 2.4. -/
theorem test_setwres_stores :
    [0, 1, 2, 8, 9, 16, 17].map (fun b => look
      (exec (.setwres (BitVec.ofNat 32 b) 0#32) (atLabel .sw0 (.setwres (BitVec.ofNat 32 b) 0#32)))
      (fun t => (t.cfg.writeRes.toNat, t.cfg.halfScale.toNat))) =
    [some (8, 128), some (8, 128), some (2, 128), some (8, 128), some (9, 32768), some (16, 32768),
      some (8, 128)] := by decide

/-- SW-U1: the update is made, and the pin of the bound slot is undefined from then on. -/
theorem test_setwres_while_bound :
    look (exec (.setwres 16#32 0#32)
      { endOfP1 0 false false with seq := (atLabel .sw0 (.setwres 16#32 0#32)).seq })
      (fun t => (t.cfg.halfScale, (slotAt t 0).undef, (slotAt t 1).undef)) = some (32768#32, true, false) := by decide

/-- A3: the slot bound to the pin wins over a free one at a lower index. -/
theorem test_write_search :
    look (exec (.write 7#32 10#32) (withSlots [Slot.free, ⟨7#32, 0#32, false⟩]
      (atLabel (.write .s0) (.write 7#32 10#32)))) (fun t => (t.seq.sel, t.seq.newBind)) =
      some (some 1, false) := by decide

/-- B2, B3: at or above half-scale is HIGH. -/
theorem test_write_fallback :
    look (exec (.write 7#32 128#32) (atLabel (.write .s1) (.write 7#32 128#32))) (fun t => levelOf t 7#32) =
      some .high ∧
    look (exec (.write 7#32 127#32) (atLabel (.write .s1) (.write 7#32 127#32))) (fun t => levelOf t 7#32) =
      some .low := by decide

/-- H5: a bound slot with duty 0 is not driven HIGH; H1: one with duty 64 is. -/
theorem test_handler_cycle_start :
    look (step (turning (.dispatcher .t0) { endOfP1 0 true false with irq := ⟨some .t0, 0⟩ }))
      (fun t => (levelOf t 5#32, eventFlag t .t0 0, t.irq.k)) = some (.high, false, 1) ∧
    look (step (turning (.dispatcher .t0) { withSlots [⟨5#32, 0#32, false⟩] (endOfP1 0 true false) with
      irq := ⟨some .t0, 0⟩ })) (fun t => levelOf t 5#32) = some .low := by decide

/-- 2.8: 300 matches at 44 in an 8-bit counter. -/
theorem test_timer_matches_low_bits :
    look (step (turning (.tick .t0) { State.reset with timers := ⟨{ timerOfP1 43 false false with
      comps := [⟨0#32, true, false⟩, ⟨64#32, true, false⟩, ⟨300#32, false, false⟩, ⟨255#32, false, false⟩] },
      TimerRegs.launch Config.testPlatform⟩ }))
      (fun t => (List.range 4).map (eventFlag t .t0)) = some [false, false, true, false] := by decide

/-- The first step after reset runs the word presented (log entry 7). -/
theorem test_first_step :
    look (step (State.reset.withFetchWord 72 0x050000000500000040)) (fun t => (t.seq.step, t.seq.fgA, t.seq.fgB)) =
      some (.write .w0, 5#32, 64#32) := by decide

/-! ### The hypotheses of the statements are met -/

theorem witness_EncodeOfDecode : decode 0x050000000500000040#72 = .ok (.write 5#32 64#32) := by decide

theorem witness_CallsAssemble : (5 < 2 ^ 32 ∧ 64 < 2 ^ 32) ∧ 2 ^ 32 ≤ 4294967296 := by decide

theorem witness_StepRunsTheCommand :
    (let s := waiting (.read 24#32 0#32) State.reset
     nextTurn s = .foreground ∧ Ready s ∧ s.host = [encode (.read 24#32 0#32)] ∧
      decode (encode (.read 24#32 0#32)) = .ok (.read 24#32 0#32)) ∧
    (let s := atLabel (.write .w1) (.write 5#32 0#32)
     nextTurn s = .foreground ∧ s.irq.active = none ∧ s.seq.step ≠ .idle ∧
      decode (latchedWord s) = .ok (.write 5#32 0#32)) ∧
    (let s := turning .foreground { State.reset with irq := ⟨some .t1, 2⟩ }
     nextTurn s = .foreground ∧ s.irq.active ≠ none) ∧
    (nextTurn State.reset = .foreground ∧ State.reset.seq.step = .idle ∧ State.reset.host = []) := by decide

theorem witness_AcceptLatches : State.reset.seq.step = .idle := by decide

theorem witness_ReservedIsNoOp :
    Ready State.reset ∧ opField 0#72 = 0x00#8 ∧ 6 ≤ (opField 0x060000000500000040#72).toNat ∧
    6 ≤ (opField 0xFFFFFFFFFFFFFFFFFF#72).toNat := by decide

theorem witness_IgnoredFieldNeverRead :
    (atLabel .rr0 (.setrres 12#32 3#32)).seq.step ≠ .idle ∧ (Instr.setrres 12#32 3#32).opcode ≠ 0x05#8 ∧
    exec (.setrres 12#32 3#32) (atLabel .rr0 (.setrres 12#32 3#32)) =
      .next (afterExec (.setrres 12#32 3#32) (atLabel .rr0 (.setrres 12#32 3#32))) := ⟨by decide, by decide, rfl⟩

theorem witness_SetrresStores :
    (atLabel .rr0 (.setrres 12#32 3#32)).seq.step = .rr0 ∧
    Latched (.setrres 12#32 3#32) (atLabel .rr0 (.setrres 12#32 3#32)) ∧ Config.testPlatform.Wf ∧
    42 ≤ (42#32).toNat ∧ (0x3FF#32).toNat < 2 ^ (nativeResolution Config.testPlatform 0#32).toNat ∧
    (0x3FF#32).toNat < 2 ^ (nativeResolution Config.testPlatform 42#32).toNat :=
  ⟨by decide, by decide, testPlatform_wf, by decide⟩

theorem witness_SetrefStores : ∀ n ∈ [4, 5], let m := BitVec.ofNat 32 n
    (atLabel .rf0 (.setref m 0#32)).seq.step = .rf0 ∧ Latched (.setref m 0#32) (atLabel .rf0 (.setref m 0#32)) ∧
    (m.toNat ≤ 4 ∨ 4 < m.toNat) := by decide

theorem witness_SetwresStores : ∀ n ∈ [1, 2, 8, 9, 16, 17], let b := BitVec.ofNat 32 n
    (atLabel .sw0 (.setwres b 0#32)).seq.step = .sw0 ∧ Latched (.setwres b 0#32) (atLabel .sw0 (.setwres b 0#32)) ∧
    ((2 ≤ b.toNat ∧ b.toNat ≤ 8) ∨ (9 ≤ b.toNat ∧ b.toNat ≤ 16) ∨ b.toNat < 2 ∨ 16 < b.toNat) := by decide

/-- The latched `SETWRES` of the next witness, with slot 0 bound. -/
def setwresBound (b : Word) : State :=
  { endOfP1 0 false false with seq := (atLabel .sw0 (.setwres b 0#32)).seq }

theorem witness_SetwresUndefinesBound :
    ((setwresBound 8#32).seq.step = .sw0 ∧ Latched (.setwres 8#32 0#32) (setwresBound 8#32) ∧
      (afterExec (.setwres 8#32 0#32) (setwresBound 8#32)).cfg.writeRes = (setwresBound 8#32).cfg.writeRes) ∧
    ((setwresBound 16#32).seq.step = .sw0 ∧ Latched (.setwres 16#32 0#32) (setwresBound 16#32) ∧
      (afterExec (.setwres 16#32 0#32) (setwresBound 16#32)).cfg.writeRes ≠ (setwresBound 16#32).cfg.writeRes) ∧
    exec (.setwres 16#32 0#32) (setwresBound 16#32) = .next (afterExec (.setwres 16#32 0#32) (setwresBound 16#32)) ∧
    exec (.setwres 8#32 0#32) (setwresBound 8#32) = .next (afterExec (.setwres 8#32 0#32) (setwresBound 8#32)) :=
  ⟨by decide, by decide, rfl, rfl⟩

theorem witness_ReadMicroSteps :
    (∀ l ∈ [ReadStep.rd0, .rd1, .rd2, .rd3, .rd4, .rd5, .rd6, .rd7, .rd8],
      (atLabel (.read l) (.read 24#32 0#32)).seq.step = .read l ∧
      Latched (.read 24#32 0#32) (atLabel (.read l) (.read 24#32 0#32))) ∧
    Latched (.read 23#32 0#32) (atLabel (.read .rd0) (.read 23#32 0#32)) ∧
    analogSel State.reset.params 23#32 = none ∧ analogSel State.reset.params 24#32 = some 0#32 ∧
    State.reset.adc.ended = false ∧ ({ State.reset.adc with ended := true } : Adc).ended = true := by decide

theorem witness_ReadReturnsRescaledSample :
    Ready (waiting (.read 24#32 0#32) State.reset) ∧ (waiting (.read 24#32 0#32) State.reset).params.Wf ∧
    (waiting (.read 24#32 0#32) State.reset).host = [encode (.read 24#32 0#32)] ∧
    analogSel (waiting (.read 24#32 0#32) State.reset).params 24#32 = some 0#32 ∧
    (0x3FF#32).toNat < 2 ^ (nativeResolution State.reset.params State.reset.cfg.readRes).toNat ∧
    State.reset.cfg.adcRef.toNat ≤ 4 :=
  ⟨by decide, testPlatform_wf, by decide, by decide, by decide, by decide⟩

theorem witness_ReadReturnsZero : ∀ n ∈ [23, 32, 0xFFFFFFFF], let p := BitVec.ofNat 32 n
    Ready (waiting (.read p 0#32) State.reset) ∧ (waiting (.read p 0#32) State.reset).host = [encode (.read p 0#32)] ∧
    analogSel State.reset.params p = none := by decide

theorem witness_ReadFrame :
    (atLabel (.read .rd7) (.read 24#32 0#32)).seq.step ≠ .idle ∧
    exec (.read 24#32 0#32) (atLabel (.read .rd7) (.read 24#32 0#32)) =
      .next (afterExec (.read 24#32 0#32) (atLabel (.read .rd7) (.read 24#32 0#32))) := ⟨by decide, rfl⟩

theorem witness_ReadWaitsForTheAdc :
    (turning .foreground (atLabel (.read .rd4) (.read 24#32 0#32))).seq.fgOp = 0x03#8 ∧
    (turning .foreground (atLabel (.read .rd4) (.read 24#32 0#32))).seq.step = .read .rd4 ∧
    (turning .foreground (atLabel (.read .rd4) (.read 24#32 0#32))).adc.ended = false ∧
    ∀ raw, nextTurn (turning .foreground (atLabel (.read .rd4) (.read 24#32 0#32))) ≠ .adcComplete raw :=
  ⟨by decide, by decide, by decide, fun _ h => nomatch h⟩

theorem witness_WriteEntry :
    (∀ l ∈ [WriteStep.w0, .w1, .w9], Latched (.write 31#32 0#32) (atLabel (.write l) (.write 31#32 0#32)) ∧
      (atLabel (.write l) (.write 31#32 0#32)).seq.step = .write l) ∧
    Latched (.write 32#32 1#32) (atLabel (.write .w0) (.write 32#32 1#32)) ∧
    pinMap State.reset.params 32#32 = none ∧ pinMap State.reset.params 31#32 ≠ none := by decide

theorem witness_WriteInvalidPinIsNoOp : ∀ n ∈ [32, 0xFFFFFFFF], let p := BitVec.ofNat 32 n
    Ready (waiting (.write p 0#32) State.reset) ∧ (waiting (.write p 0#32) State.reset).host = [encode (.write p 0#32)] ∧
    pinMap State.reset.params p = none := by decide

theorem witness_WriteFreeSteps :
    (∀ l ∈ [WriteStep.f0, .f1, .f2, .f3, .f4, .f5, .f6], Latched (.write 5#32 0#32) (atLabel (.write l) (.write 5#32 0#32)) ∧
      (atLabel (.write l) (.write 5#32 0#32)).seq.step = .write l) ∧
    (let s := atLabel (.write .f1) (.write 5#32 0#32)
     s.seq.scan < s.params.nSlots ∧ (slotAt s s.seq.scan).pin ≠ 5#32 ∧
      (slotAt (withSlots [⟨5#32, 64#32, false⟩] s) s.seq.scan).pin = 5#32 ∧
      ({ s.seq with scan := 6 } : Sequencer).scan = s.params.nSlots ∧ (lookup s.arb .t0).count = 0#4 ∧
      (lookup (endOfP1 0 false false).arb .t0).count ≠ 0#4) := by decide

theorem witness_WriteSearch :
    (let s := withSlots [⟨1#32, 0#32, false⟩, ⟨7#32, 0#32, false⟩] (atLabel (.write .s0) (.write 7#32 9#32))
     Latched (.write 7#32 9#32) s ∧ s.seq.step = .write .s0 ∧ 7#32 ≠ pinFree ∧ 1 < s.slots.length ∧
      (slotAt s 1).pin = 7#32 ∧ ∀ j ∈ List.range 1, (slotAt s j).pin ≠ 7#32) ∧
    (let s := withSlots [⟨1#32, 0#32, false⟩] (atLabel (.write .s0) (.write 7#32 9#32))
     Latched (.write 7#32 9#32) s ∧ s.seq.step = .write .s0 ∧ (∀ c ∈ s.slots, c.pin ≠ 7#32) ∧ 1 < s.slots.length ∧
      (slotAt s 1).pin = pinFree ∧ ∀ j ∈ List.range 1, (slotAt s j).pin ≠ pinFree) ∧
    (let s := { allBound with seq := (atLabel (.write .s0) (.write 7#32 9#32)).seq }
     Latched (.write 7#32 9#32) s ∧ s.seq.step = .write .s0 ∧ ∀ c ∈ s.slots, c.pin ≠ 7#32 ∧ c.pin ≠ pinFree) := by
  decide

theorem witness_WriteFallback :
    Latched (.write 7#32 200#32) (atLabel (.write .s1) (.write 7#32 200#32)) ∧
    (atLabel (.write .s1) (.write 7#32 200#32)).seq.step = .write .s1 ∧
    (atLabel (.write .s1) (.write 7#32 200#32)).params.fallbackCmp = .raw ∧
    ({ Config.testPlatform with fallbackCmp := .rescaled } : Params).fallbackCmp = .rescaled := by decide

theorem witness_WriteAllocateSteps :
    (∀ l ∈ [WriteStep.a0, .a1, .a2, .a3, .a4, .a5, .a6, .a7],
      (let s := selecting 0 true (atLabel (.write l) (.write 5#32 64#32))
       Latched (.write 5#32 64#32) s ∧ s.seq.sel = some 0 ∧ 0 < s.params.nSlots ∧ s.seq.step = .write l)) ∧
    ShapeLegal (selecting 0 true (atLabel (.write .a0) (.write 5#32 64#32))) :=
  ⟨by decide, testPlatform_wf, by decide⟩

theorem witness_TimerStartSteps :
    (∀ l ∈ [WriteStep.ts0, .ts1, .ts2, .ts3, .ts4, .ts5, .ts6, .ts7],
      (let s := selecting 3 true (atLabel (.write l) (.write 5#32 64#32))
       s.seq.sel = some 3 ∧ s.seq.step = .write l)) ∧
    ShapeLegal (selecting 3 true (atLabel (.write .ts0) (.write 5#32 64#32))) :=
  ⟨by decide, testPlatform_wf, by decide⟩

theorem witness_TimerStopSteps : ∀ l ∈ [WriteStep.tp0, .tp1, .tp2, .tp3],
    (atLabel (.write l) (.write 5#32 0#32)).seq.step = .write l := by decide

theorem witness_WriteFrame :
    (atLabel (.write .f6) (.write 5#32 0#32)).seq.step ≠ .idle ∧
    exec (.write 5#32 0#32) (atLabel (.write .f6) (.write 5#32 0#32)) =
      .next (afterExec (.write 5#32 0#32) (atLabel (.write .f6) (.write 5#32 0#32))) := ⟨by decide, rfl⟩

theorem witness_inv_P1 : Inv (endOfP1 0 false false) :=
  ⟨⟨testPlatform_wf, by decide⟩, by decide, by decide, by decide,
    ⟨by decide, by decide, ⟨by decide, by decide⟩, by decide, by decide, by decide, by decide, by decide, by decide,
      by decide⟩, by decide, by decide, by decide, by decide⟩

theorem witness_inv_endOfP1 (i : Instr) : Inv (waiting i (endOfP1 0 false false)) := witness_inv_P1

/-- The end of P1's command, with `write(9, 1)` under way at W1. -/
def otherWrite : State :=
  { endOfP1 0 false false with seq := (atLabel (.write .w1) (.write 9#32 1#32)).seq }

theorem witness_WriteKeepsOtherBindings :
    Inv otherWrite ∧ Latched (.write 9#32 1#32) otherWrite ∧ otherWrite.seq.step ≠ .idle ∧
    exec (.write 9#32 1#32) otherWrite = .next (afterExec (.write 9#32 1#32) otherWrite) ∧
    (slotAt otherWrite 0).bound = true ∧ (slotAt otherWrite 0).pin ≠ 9#32 :=
  ⟨⟨⟨testPlatform_wf, by decide⟩, by decide, by decide, by decide,
    ⟨by decide, by decide, ⟨by decide, by decide⟩, by decide, by decide, by decide, by decide, by decide, by decide,
      by decide⟩, by decide, by decide, by decide, by decide⟩, by decide, by decide, rfl, by decide, by decide⟩

theorem witness_WriteZeroFrees :
    Inv (waiting (.write 5#32 0#32) (endOfP1 0 false false)) ∧
    Ready (waiting (.write 5#32 0#32) (endOfP1 0 false false)) ∧
    (waiting (.write 5#32 0#32) (endOfP1 0 false false)).host = [encode (.write 5#32 0#32)] ∧
    pinMap (endOfP1 0 false false).params 5#32 ≠ none := ⟨witness_inv_endOfP1 _, by decide, rfl, by decide⟩

theorem witness_WriteAllocates :
    Inv (waiting (.write 9#32 77#32) (endOfP1 0 false false)) ∧
    Ready (waiting (.write 9#32 77#32) (endOfP1 0 false false)) ∧
    (waiting (.write 9#32 77#32) (endOfP1 0 false false)).host = [encode (.write 9#32 77#32)] ∧
    pinMap (endOfP1 0 false false).params 9#32 ≠ none ∧ 77#32 ≠ 0#32 ∧
    selectSlot (waiting (.write 9#32 77#32) (endOfP1 0 false false)) 9#32 = some 1 :=
  ⟨witness_inv_endOfP1 _, by decide, rfl, by decide, by decide, by decide⟩

/-- The other two cases of an allocation: the first channel of a timer, and a rewrite of a bound pin. -/
theorem witness_WriteAllocatesFirstAndAgain :
    (Inv (waiting (.write 9#32 77#32) State.reset) ∧ Ready (waiting (.write 9#32 77#32) State.reset) ∧
      selectSlot (waiting (.write 9#32 77#32) State.reset) 9#32 = some 0 ∧ (lookup State.reset.arb .t0).count = 0#4) ∧
    (Inv (waiting (.write 5#32 77#32) (endOfP1 0 false false)) ∧
      Ready (waiting (.write 5#32 77#32) (endOfP1 0 false false)) ∧ pinMap (endOfP1 0 false false).params 5#32 ≠ none ∧
      selectSlot (waiting (.write 5#32 77#32) (endOfP1 0 false false)) 5#32 = some 0 ∧
      (slotAt (endOfP1 0 false false) 0).bound = true) :=
  ⟨⟨⟨⟨testPlatform_wf, by decide⟩, by decide, by decide, by decide,
      ⟨by decide, by decide, ⟨by decide, by decide⟩, by decide, by decide, by decide, by decide, by decide, by decide,
        by decide⟩, by decide, by decide, by decide, by decide⟩, by decide, by decide, by decide⟩,
    witness_inv_endOfP1 _, by decide, by decide, by decide, by decide⟩

theorem witness_WriteFallsBack :
    Ready (waiting (.write 7#32 200#32) allBound) ∧
    (waiting (.write 7#32 200#32) allBound).host = [encode (.write 7#32 200#32)] ∧
    pinMap allBound.params 7#32 ≠ none ∧ 200#32 ≠ 0#32 ∧
    (∀ c ∈ allBound.slots, c.bound = true ∧ c.pin ≠ 7#32) ∧ allBound.params.fallbackCmp = .raw ∧
    ({ allBound.params with fallbackCmp := .rescaled } : Params).fallbackCmp = .rescaled := by decide

theorem witness_QuietPinStaysQuiet :
    PinQuiet (waiting (.write 9#32 77#32) (endOfP1 0 false false)) 6#32 ∧
    step (waiting (.write 9#32 77#32) (endOfP1 0 false false)) =
      .next (after (waiting (.write 9#32 77#32) (endOfP1 0 false false))) := ⟨by decide, rfl⟩

theorem witness_OnlyTstartStarts :
    (let s := selecting 0 true (atLabel (.write .ts5) (.write 5#32 64#32))
     step s = .next (after s) ∧ (lookup s.timers .t0).run = false ∧ (lookup (after s).timers .t0).run = true ∧
      (lookup s.arb .t0).run = false ∧ (lookup (after s).arb .t0).run = true) :=
  ⟨rfl, by decide, by decide, by decide, by decide⟩

/-- The teardown of timer 0 at TP2. -/
def tearingDown : State := { endOfP1 0 false false with seq := (atLabel (.write .tp2) (.write 5#32 0#32)).seq }

theorem witness_OnlyTheFreePathStops :
    step tearingDown = .next (after tearingDown) ∧ (lookup tearingDown.timers .t0).run = true ∧
    (lookup (after tearingDown).timers .t0).run = false ∧ (after tearingDown).seq.step = .write .tp3 ∧
    (after tearingDown).seq.step ≠ tearingDown.seq.step := ⟨rfl, by decide, by decide, by decide, by decide⟩

/-- TS2 in 16-bit mode. -/
def settingWidth : State :=
  { selecting 0 true (atLabel (.write .ts2) (.write 5#32 64#32)) with
    cfg := { ResConfig.reset with writeRes := 16#32, bitWidth := .w16, halfScale := 32768#32 } }

theorem witness_CounterWidthFixedAtStart :
    step settingWidth = .next (after settingWidth) ∧
    (lookup (after settingWidth).timers .t0).bitMode ≠ (lookup settingWidth.timers .t0).bitMode :=
  ⟨rfl, by decide⟩

/-- A cycle-start event pending on timer 0, the dispatcher's turn. -/
def pendingStart : State := turning (.dispatcher .t0) (endOfP1 0 true false)

/-- The handler of timer 0 at event `k` with its flags 0 and 1 set or not. -/
def inHandler (k : Nat) (e : Bool) : State :=
  turning (.dispatcher .t0) { endOfP1 0 e e with irq := ⟨some .t0, k⟩ }

theorem witness_HandlerEntry :
    (nextTurn pendingStart = .dispatcher .t0 ∧ pendingStart.irq.active = none ∧
      (lookup pendingStart.nvic .t0).en = true ∧ eventFlag pendingStart .t0 0 = true ∧
      eventEnabled pendingStart .t0 0 = true) ∧
    (let s := turning (.dispatcher .t1) State.reset
     nextTurn s = .dispatcher .t1 ∧ s.irq.active = none ∧ (lookup s.nvic .t1).en = false) ∧
    (let s := turning (.dispatcher .t0) (endOfP1 0 false false)
     nextTurn s = .dispatcher .t0 ∧ s.irq.active = none ∧ (lookup s.nvic .t0).en = true ∧
      ∀ k ∈ List.range (s.params.nCu + 1), eventFlag s .t0 k = false) ∧
    (let s := turning (.dispatcher .t0) { endOfP1 0 true false with irq := ⟨some .t1, 1⟩ }
     nextTurn s = .dispatcher .t0 ∧ s.irq.active = some .t1 ∧ TimerId.t1 ≠ .t0) := by decide

theorem witness_CycleStartStep : ∀ e ∈ [true, false],
    nextTurn (inHandler 0 e) = .dispatcher .t0 ∧ (inHandler 0 e).irq = ⟨some .t0, 0⟩ ∧
    eventFlag (inHandler 0 e) .t0 0 = e ∧ cycleStartSlots (inHandler 0 e) .t0 = [0] ∧
    undefinedOn (inHandler 0 e) .t0 5#32 = false := by decide

theorem witness_CompareStep :
    (∀ e ∈ [true, false], nextTurn (inHandler 1 e) = .dispatcher .t0 ∧ (inHandler 1 e).irq = ⟨some .t0, 1⟩ ∧
      1 ≤ (inHandler 1 e).params.nCu ∧ eventFlag (inHandler 1 e) .t0 1 = e) ∧
    (let c := slotAt (inHandler 1 true) 0
     c.bound = true ∧ c.undef = false ∧ c.duty ≠ 2#32 * (inHandler 1 true).cfg.halfScale - 1#32) ∧
    (slotAt (withSlots [Slot.free] (inHandler 1 true)) 0).bound = false ∧
    (slotAt (withSlots [⟨5#32, 255#32, false⟩] (inHandler 1 true)) 0).duty =
      2#32 * (inHandler 1 true).cfg.halfScale - 1#32 ∧ ConfigLegal (inHandler 1 true) := by decide

theorem witness_HandlerReturn :
    nextTurn (inHandler 4 false) = .dispatcher .t0 ∧ (inHandler 4 false).irq.active = some .t0 ∧
    (inHandler 4 false).params.nCu < (inHandler 4 false).irq.k := by decide

theorem witness_HandlerFrame :
    nextTurn (inHandler 0 true) = .dispatcher .t0 ∧ step (inHandler 0 true) = .next (after (inHandler 0 true)) :=
  ⟨by decide, rfl⟩

theorem witness_HandlerCompletes :
    ShapeLegal pendingStart ∧ entryEnabled pendingStart .t0 = true ∧ 0 < 5 ∧ 5 < pendingStart.params.nCu + 3 :=
  ⟨⟨testPlatform_wf, by decide⟩, by decide⟩

/-- Both flags set at entry, slot 0 bound with duty `d`. -/
def lateHandler (d : Word) : State := withSlots [⟨5#32, d, false⟩] (endOfP1 3 true true)

theorem witness_LateHandlerEndsLow :
    (ShapeLegal (lateHandler 0#32) ∧ ShapeLegal (lateHandler 64#32) ∧ ShapeLegal (lateHandler 255#32)) ∧
    (∀ d ∈ [0, 64, 255], let s := lateHandler (BitVec.ofNat 32 d)
      UniqueBinding s ∧ entryEnabled s .t0 = true ∧ 0 < s.params.nSlots ∧ slotTimer s.params 0 = .t0 ∧
      (slotAt s 0).bound = true ∧ (slotAt s 0).undef = false ∧ eventFlag s .t0 0 = true ∧
      eventFlag s .t0 (slotEvent s.params 0) = true) ∧
    (slotAt (lateHandler 255#32) 0).duty = 2#32 * (lateHandler 255#32).cfg.halfScale - 1#32 :=
  ⟨⟨⟨testPlatform_wf, by decide⟩, ⟨testPlatform_wf, by decide⟩, ⟨testPlatform_wf, by decide⟩⟩, by decide, by decide⟩

/-- TS4, A6, TS7 on slot 0 from reset. -/
def enabling (l : WriteStep) : State := selecting 0 true (atLabel (.write l) (.write 5#32 64#32))

theorem witness_InterruptEnables :
    (step (enabling .ts4) = .next (after (enabling .ts4)) ∧ step (enabling .a6) = .next (after (enabling .a6)) ∧
      step (enabling .ts7) = .next (after (enabling .ts7))) ∧
    (eventEnabled (enabling .ts4) .t0 0 = false ∧ eventEnabled (after (enabling .ts4)) .t0 0 = true) ∧
    (eventEnabled (enabling .a6) .t0 1 = false ∧ eventEnabled (after (enabling .a6)) .t0 1 = true) ∧
    ((lookup (enabling .ts7).nvic .t0).en = false ∧ (lookup (after (enabling .ts7)).nvic .t0).en = true) ∧
    (let s := { endOfP1 0 false false with seq := (atLabel (.write .tp0) (.write 5#32 0#32)).seq }
     (lookup s.nvic .t0).en = true ∧ (lookup (after s).nvic .t0).en = false ∧ eventEnabled s .t0 0 = true ∧
      nextTurn s = .foreground ∧ s.irq.active = none ∧ s.seq.fgOp = 0x05#8 ∧ scanTimer s = .t0) ∧
    (∀ l ∈ [WriteStep.ts4, .a6, .ts7], nextTurn (enabling l) = .foreground ∧ (enabling l).irq.active = none ∧
      (enabling l).seq.fgOp = 0x05#8 ∧ (enabling l).seq.sel = some 0 ∧ slotTimer (enabling l).params 0 = .t0) ∧
    ShapeLegal (enabling .ts4) ∧
    (step pendingStart = .next (after pendingStart) ∧ nextTurn pendingStart = .dispatcher .t0 ∧
      pendingStart.irq.active = none ∧ pending pendingStart .t0 = true) :=
  ⟨⟨rfl, rfl, rfl⟩, by decide, by decide, by decide, by decide, by decide, ⟨testPlatform_wf, by decide⟩, rfl, by decide,
    by decide, by decide⟩

/-- Timer 0 about to reach the compare value 64. -/
def beforeMatch : State := turning (.tick .t0) (endOfP1 63 false false)

theorem witness_EventFlags :
    (step beforeMatch = .next (after beforeMatch) ∧ beforeMatch.params.eventModel = .reference ∧
      eventFlag beforeMatch .t0 1 = false ∧ eventFlag (after beforeMatch) .t0 1 = true ∧
      nextTurn beforeMatch = .tick .t0 ∧ (lookup beforeMatch.timers .t0).run = true ∧
      1 < (lookup beforeMatch.timers .t0).comps.length ∧ (lookup (after beforeMatch).timers .t0).cnt.toNat =
        (compAt (lookup beforeMatch.timers .t0) 1).cc.toNat % widthModulus (lookup beforeMatch.timers .t0).bitMode) ∧
    (step (inHandler 1 true) = .next (after (inHandler 1 true)) ∧ eventFlag (inHandler 1 true) .t0 1 = true ∧
      eventFlag (after (inHandler 1 true)) .t0 1 = false ∧ nextTurn (inHandler 1 true) = .dispatcher .t0 ∧
      (inHandler 1 true).irq = ⟨some .t0, 1⟩) :=
  ⟨⟨rfl, by decide, by decide, by decide, by decide, by decide, by decide, by decide⟩,
    ⟨rfl, by decide, by decide, by decide, by decide⟩⟩

theorem witness_TimerTick :
    (nextTurn beforeMatch = .tick .t0 ∧ (lookup beforeMatch.timers .t0).run = true ∧
      3 < (lookup beforeMatch.timers .t0).comps.length) ∧
    (nextTurn (turning (.tick .t1) State.reset) = .tick .t1 ∧ (lookup State.reset.timers .t1).run = false) := by decide

theorem witness_AdcCompletes : ∀ b ∈ [true, false],
    (let s := { turning (.adcComplete 0x7FF#32) State.reset with adc := ⟨true, 0x900001#32, b, false, 0#32⟩ }
     nextTurn s = .adcComplete 0x7FF#32 ∧ s.params.Wf ∧ 9#32 ∈ s.params.adcRes.map (·.bits) ∧
      1#32 ∈ s.params.analogInputs ∧ 0x100#32 ∈ s.params.refBits ∧
      s.adc.cfg = adcCfgPack s.params 1#32 (resCode s.params 9#32) 0x100#32 ∧ s.adc.busy = b) :=
  fun _ _ => ⟨rfl, testPlatform_wf, (by decide : 9#32 ∈ Config.testPlatform.adcRes.map (·.bits)),
    (by decide : 1#32 ∈ Config.testPlatform.analogInputs), (by decide : 0x100#32 ∈ Config.testPlatform.refBits),
    (by decide : 0x900001#32 = adcCfgPack Config.testPlatform 1#32 (resCode Config.testPlatform 9#32) 0x100#32), rfl⟩

theorem witness_PwmTick :
    PwmReady (endOfP1 255 false false) 0 .t0 ∧
    levelOf (endOfP1 255 false false) (slotAt (endOfP1 255 false false) 0).pin =
      waveLevel (endOfP1 255 false false) 0 .t0 :=
  ⟨⟨⟨⟨testPlatform_wf, by decide⟩, by decide⟩, by decide⟩, by decide⟩

/-- The state after the first cycle start of P1: counter 0, pin 5 HIGH. -/
def cycleStarted : State := { endOfP1 0 false false with gpio := ⟨[5], [5]⟩ }

theorem witness_PwmWaveform :
    PwmReady cycleStarted 0 .t0 ∧ (lookup cycleStarted.timers .t0).cnt.toNat = 0 ∧
    levelOf cycleStarted (slotAt cycleStarted 0).pin = .high :=
  ⟨⟨⟨⟨testPlatform_wf, by decide⟩, by decide⟩, by decide⟩, by decide⟩

theorem witness_MapResolutionLaws :
    ((8#32).toNat ≤ (32#32).toNat ∧ (32#32).toNat ≤ 32 ∧ (0xFF#32).toNat < 2 ^ (8#32).toNat) ∧
    ((8#32).toNat < (10#32).toNat ∧ (10#32).toNat ≤ 32 ∧ (0x155#32).toNat < 2 ^ (10#32).toNat) ∧
    ((10#32).toNat < (42#32).toNat ∧ 1#32 ≠ 0#32) := by decide

theorem witness_NativeResolution :
    (let rs := Config.testPlatform.adcRes.map (·.bits)
     (∃ r ∈ rs, r.toNat ≤ (8#32).toNat) ∧ (∀ r ∈ rs, (7#32).toNat < r.toNat) ∧ Config.testPlatform.Wf ∧
      10 ≤ (10#32).toNat) := by
  refine ⟨⟨8#32, by decide, by decide⟩, fun r h => ?_, testPlatform_wf, by decide⟩
  have h' : r.toNat ∈ [8, 9, 10] := List.mem_map_of_mem (f := BitVec.toNat) h
  simp at h' ⊢
  omega

theorem witness_SlotConstants : 1 ≤ Config.testPlatform.nCu ∧ 3 ≤ Config.testPlatform.nCu ∧ 5 < Config.testPlatform.nSlots := by
  decide

theorem witness_ResetMeetsInv :
    Config.testPlatform.Wf ∧ ({ Config.testPlatform with
      nCu := 1, pins := [⟨some 7#32, some 1#32⟩], adcRes := [⟨10#32, 0xA0#32⟩] } : Params).Wf ∧
    ({ Config.testPlatform with nCu := 4, pins := [⟨some 7#32, none⟩], adcPack := [] } : Params).Wf :=
  ⟨testPlatform_wf, by decide +kernel, by decide⟩

theorem witness_invariants :
    Inv otherWrite ∧ step otherWrite = .next (after otherWrite) ∧
    AtBoundary (waiting (.read 24#32 0#32) (endOfP1 0 false false)) ∧
    Inv (waiting (.read 24#32 0#32) (endOfP1 0 false false)) :=
  ⟨witness_WriteKeepsOtherBindings.1, rfl, by decide, witness_inv_endOfP1 _⟩

end Sys2Proof.Tests
end

section
/-! SUPPORT. No step changes the parameters or the sizes of the tables (00_scope R9, 10_state R21, R39), and the dispatcher's
position stays in range (10_state R42). -/

namespace Sys2Proof.Machine

/-- Two states have the same parameters and tables of the same sizes. -/
structure SameSizes (s s' : State) : Prop where
  params : s'.params = s.params
  slots  : s'.slots.length = s.slots.length
  comps  : ∀ t, (lookup s'.timers t).comps.length = (lookup s.timers t).comps.length

theorem SameSizes.shapeLegal {s s' : State} (h : SameSizes s s') (hk : s'.irq.k ≤ s.params.nCu + 1)
    (u : ShapeLegal s) : ShapeLegal s' := by
  obtain ⟨hwf, hslots, ⟨hcomps0, hcomps1⟩, -⟩ := u
  refine ⟨h.params ▸ hwf, ?_, ⟨?_, ?_⟩, h.params ▸ hk⟩
  · rw [h.slots, h.params, hslots]
  · rw [h.params, ← hcomps0]; exact h.comps .t0
  · rw [h.params, ← hcomps1]; exact h.comps .t1

theorem sameSizes_of_eq {s s' : State} (hp : s'.params = s.params) (hs : s'.slots = s.slots)
    (ht : s'.timers = s.timers) : SameSizes s s' :=
  ⟨hp, by rw [hs], fun t => by rw [ht]⟩

theorem EnvFrame.sameSizes {s s' : State} (h : EnvFrame s s') : SameSizes s s' where
  params := h.params
  slots := by rw [h.slots]
  comps t := by
    obtain ⟨-, -, -, -, hlen⟩ := h.regs t
    exact hlen

/-! ### The foreground sequencer -/

/-- SW0 rewrites the slot table at most by marking the bound slots, so it keeps its size (70_reset_and_hazards R235). -/
theorem stepSW0_sameSizes (s : State) : SameSizes s (stepSW0 s) ∧ (stepSW0 s).irq = s.irq := by
  unfold stepSW0
  split
  · exact ⟨sameSizes_of_eq rfl rfl rfl, rfl⟩
  · exact ⟨⟨rfl, by simp, fun _ => rfl⟩, rfl⟩

theorem microStep_sameSizes {s s' : State} (h : MicroStep s s') : SameSizes s s' ∧ s'.irq = s.irq := by
  cases h with
  | rr0 | rf0 | reserved => exact ⟨sameSizes_of_eq rfl rfl rfl, rfl⟩
  | sw0 => exact stepSW0_sameSizes s
  | read l =>
    obtain ⟨hparams, hslots, -, -, hirq, htimers, -⟩ := readStep_keeps l s
    exact ⟨sameSizes_of_eq hparams hslots htimers, hirq⟩
  | write l s' _ e =>
    obtain ⟨hparams, -, hirq, -⟩ := writeStep_keeps e
    obtain ⟨hslots, hcomps⟩ := writeStep_shape e
    exact ⟨⟨hparams, hslots, hcomps⟩, hirq⟩

theorem foregroundStep_sameSizes {s s' : State} (h : ForegroundStep s s') : SameSizes s s' ∧ s'.irq = s.irq := by
  cases h with
  | none | acceptReserved => exact ⟨sameSizes_of_eq rfl rfl rfl, rfl⟩
  | accept w rest i =>
    obtain ⟨hparams, hslots, -, -, hirq, -, htimers, -⟩ := acceptedState_keeps i { s with host := rest }
    exact ⟨sameSizes_of_eq hparams hslots htimers, hirq⟩
  | micro s' _ _ hm => exact microStep_sameSizes hm

/-! ### The devices: the dispatcher is untouched -/

theorem tickTurn_irq (t : TimerId) (s : State) : (tickTurn t s).irq = s.irq := by
  unfold tickTurn
  split <;> simp

theorem adcCompleteTurn_irq (raw : Word) (s : State) : (adcCompleteTurn raw s).irq = s.irq := by
  unfold adcCompleteTurn
  split <;> simp

theorem timerEventTurn_irq (t : TimerId) (k : Nat) (s : State) : (timerEventTurn t k s).irq = s.irq := by
  unfold timerEventTurn
  split
  · rfl
  · split <;> simp

theorem undefinedPinTurn_irq (i : Nat) (l : Level) (s : State) : (undefinedPinTurn i l s).irq = s.irq := by
  unfold undefinedPinTurn
  dsimp only
  split <;> simp

/-! ### Every agent -/

/-- A turn of any agent keeps the parameters and the sizes of the tables. -/
theorem AgentStep.sameSizes {s s' : State} (h : AgentStep s s') : SameSizes s s' := by
  cases h with
  | foreground s' h => exact (foregroundStep_sameSizes h).1
  | dispatcher t s' h => exact (dispatcher_frame h).sameSizes
  | tick t => exact (tick_frame t s).sameSizes
  | adcComplete raw => exact (adcComplete_frame raw s).sameSizes
  | timerEvent t k => exact (timerEvent_frame t k s).sameSizes
  | undefinedPin i l => exact (undefinedPin_frame i l s).sameSizes

/-- Only the dispatcher moves its position, and it leaves the handler once past `N_CU` (60_exceptions R193). -/
theorem AgentStep.position {s s' : State} (h : AgentStep s s') (hk : s.irq.k ≤ s.params.nCu + 1) :
    s'.irq.k ≤ s.params.nCu + 1 := by
  cases h with
  | foreground s' h => rw [(foregroundStep_sameSizes h).2]; exact hk
  | dispatcher t s' h => exact dispatcher_position h hk
  | tick t => rw [tickTurn_irq]; exact hk
  | adcComplete raw => rw [adcCompleteTurn_irq]; exact hk
  | timerEvent t k => rw [timerEventTurn_irq]; exact hk
  | undefinedPin i l => rw [undefinedPinTurn_irq]; exact hk

/-- Settles O57: the step begun has the shape of the state, and a turn of any agent keeps the sizes and the range of the
dispatcher's position. -/
theorem stepKeepsShape : Obligations.StepKeepsShape := by
  intro s t hs hstep
  have hagent : AgentStep (beginStep s) t := step_cases hstep
  have hbegin : ShapeLegal (beginStep s) := hs
  have ⟨_, _, _, hk⟩ := hbegin
  exact ⟨hagent.sameSizes.shapeLegal (hagent.position hk) hbegin, hagent.sameSizes.params⟩

end Sys2Proof.Machine
end

section
/-! SUPPORT. The whole invariant is kept by every step (10_state R24, R26, R29, 42_timer_arbiter R164). -/

namespace Sys2Proof.Machine

/-- A turn of any agent keeps the invariant, from a state in which the strobes of the step before have ended. -/
theorem AgentStep.inv {s s' : State} (h : AgentStep s s') (u : Inv s) (hdone : s.resp.done = false) : Inv s' := by
  cases h with
  | foreground s' h => exact inv_foreground u hdone h
  | dispatcher t s' h => exact inv_dispatcher u h
  | tick t => exact inv_tick t u
  | adcComplete raw => exact inv_adcComplete raw u
  | timerEvent t k => exact inv_timerEvent t k u
  | undefinedPin i l => exact inv_undefinedPin i l u

/-- Settles O59: beginning the step keeps the invariant and ends the strobes, and a turn of any agent keeps it from
there. -/
theorem stepKeepsInv : Obligations.StepKeepsInv := by
  intro s t hinv hstep
  have hagent : AgentStep (beginStep s) t := step_cases hstep
  exact hagent.inv (inv_beginStep hinv) (by simp)

end Sys2Proof.Machine
end

section
/-! SUPPORT. The frame of `WRITE` at every micro-step: what it may store to the timers and to the pins (10_state R25,
R26, 41_pwm_alloc R131 to R136). -/

namespace Sys2Proof.Machine

theorem exec_write_micro {pin value : Word} {s t : State} (hi : s.seq.step ≠ .idle)
    (e : exec (.write pin value) s = .next t) : ∃ l, s.seq.step = .write l ∧ writeStep l s = .next t := by
  simp only [exec, execWrite] at e
  split at e
  · contradiction
  · exact ⟨_, ‹_›, e⟩
  · cases e

/-! ### Stores to a timer -/

/-- What the micro-step `l` of `WRITE` may do to the timers: nothing, or one update of one register set that leaves
every event flag, and but for TP3 the counter. -/
inductive TimerStore (l : WriteStep) (s s' : State) : Prop where
  | none (h : s'.timers = s.timers)
  | store (t : TimerId) (r : TimerRegs) (h : s'.timers = update s.timers t r)
      (hev : ∀ k, (compAt r k).ev = (compAt (lookup s.timers t) k).ev)
      (hcnt : l ≠ .tp3 → r.cnt = (lookup s.timers t).cnt)

theorem compAt_setComp_keepsEv (k j : Nat) {f : Comparator → Comparator} (hf : ∀ c, (f c).ev = c.ev)
    (r : TimerRegs) : (compAt (setComp k f r) j).ev = (compAt r j).ev := by
  rw [compAt_setComp]
  split
  · exact hf _
  · rfl

/-- A store to one comparator that leaves its event flag. -/
theorem TimerStore.ofComp {l : WriteStep} {s s' : State} (t : TimerId) (k : Nat) {f : Comparator → Comparator}
    (h : s'.timers = update s.timers t (setComp k f (lookup s.timers t))) (hf : ∀ c, (f c).ev = c.ev) :
    TimerStore l s s' :=
  .store t _ h (fun j => compAt_setComp_keepsEv k j hf _) (fun _ => rfl)

/-- A store to the registers of one timer that leaves its comparators and its counter. -/
theorem TimerStore.ofRegs {l : WriteStep} {s s' : State} (t : TimerId) {r : TimerRegs}
    (h : s'.timers = update s.timers t r) (hcomps : r.comps = (lookup s.timers t).comps)
    (hcnt : r.cnt = (lookup s.timers t).cnt) : TimerStore l s s' :=
  .store t r h (fun k => by simp [compAt, hcomps]) (fun _ => hcnt)

theorem TimerStore.eventFlag {l : WriteStep} {s s' : State} (h : TimerStore l s s') (t : TimerId) (k : Nat) :
    eventFlag s' t k = eventFlag s t k := by
  unfold Machine.eventFlag
  cases h with
  | none h => rw [h]
  | store u r h hev _ =>
    rw [h, lookup_update]
    split
    case isTrue hut => subst hut; exact hev k
    case isFalse => rfl

theorem TimerStore.cnt {l : WriteStep} {s s' : State} (h : TimerStore l s s') (hl : l ≠ .tp3) (t : TimerId) :
    (lookup s'.timers t).cnt = (lookup s.timers t).cnt := by
  cases h with
  | none h => rw [h]
  | store u r h _ hcnt =>
    rw [h, lookup_update]
    split
    case isTrue hut => subst hut; exact hcnt hl
    case isFalse => rfl

/-! ### Stores to a pin -/

/-- What a micro-step of `WRITE` may do to the pins: nothing, or set the level or the direction of its operand. -/
inductive PinStore (s s' : State) : Prop where
  | none (h : s'.gpio = s.gpio)
  | level (v : Level) (h : s'.gpio = (gpioWrite s.seq.fgA v s).gpio)
  | output (h : s'.gpio = (gpioModeOutput s.seq.fgA s).gpio)

theorem isOutput_eq {s s' : State} (h : s'.gpio.outputs = s.gpio.outputs) (q : Word) :
    isOutput s' q = isOutput s q := by
  simp [isOutput, h]

theorem PinStore.otherPin {s s' : State} (h : PinStore s s') {q : Word} (hq : q ≠ s.seq.fgA) :
    levelOf s' q = levelOf s q ∧ isOutput s' q = isOutput s q := by
  cases h with
  | none h => exact ⟨levelOf_eq h q, isOutput_eq (by rw [h]) q⟩
  | level v h =>
    refine ⟨?_, isOutput_eq (by simp [h]) q⟩
    rw [levelOf_eq h, levelOf_gpioWrite, if_neg hq]
  | output h =>
    constructor
    · rw [levelOf_eq h]; rfl
    · rw [isOutput_eq (congrArg Gpio.outputs h), isOutput_gpioModeOutput]
      simp [hq]

/-! ### Every micro-step -/

/-- What a micro-step of `WRITE` does beyond the slot table, the arbiter and its own position: the temporaries of `READ`
stay, and at most one timer and the operand's pin are stored to. -/
structure WriteDevices (l : WriteStep) (s s' : State) : Prop where
  sample : s'.seq.raw = s.seq.raw ∧ s'.seq.native = s.seq.native
  timers : TimerStore l s s'
  pins   : PinStore s s'

theorem WriteDevices.unchanged {l : WriteStep} {s s' : State} (hraw : s'.seq.raw = s.seq.raw)
    (hnative : s'.seq.native = s.seq.native) (ht : s'.timers = s.timers) (hg : s'.gpio = s.gpio) :
    WriteDevices l s s' :=
  ⟨⟨hraw, hnative⟩, .none ht, .none hg⟩

theorem writeStep_devices {l : WriteStep} {s s' : State} (e : writeStep l s = .next s') : WriteDevices l s s' := by
  cases writeStep_move e
  case w0 => unfold stepW0; split <;> exact .unchanged rfl rfl rfl rfl
  case w1 => unfold stepW1; split <;> exact .unchanged rfl rfl rfl rfl
  case f1 => unfold stepF1; (repeat' split) <;> exact .unchanged rfl rfl rfl rfl
  case f4 => unfold stepF4; split <;> exact .unchanged rfl rfl rfl rfl
  case s0 => unfold stepS0; split <;> exact .unchanged rfl rfl rfl rfl
  case a4 => unfold stepA4; split <;> exact .unchanged rfl rfl rfl rfl
  case a7 => unfold stepA7; split <;> exact .unchanged rfl rfl rfl rfl
  case f6 => exact ⟨⟨rfl, rfl⟩, .none rfl, .level .low rfl⟩
  case s1 => exact ⟨⟨rfl, rfl⟩, .none rfl, .level (fallbackLevel s) rfl⟩
  case a0 => exact ⟨⟨rfl, rfl⟩, .none rfl, .output rfl⟩
  case a5 | a6 | ts3 | ts4 => exact ⟨⟨rfl, rfl⟩, .ofComp _ _ rfl (fun _ => rfl), .none rfl⟩
  case ts0 | ts1 | ts2 | ts5 | tp2 => exact ⟨⟨rfl, rfl⟩, .ofRegs _ rfl rfl rfl, .none rfl⟩
  case tp3 => exact ⟨⟨rfl, rfl⟩, .store _ _ rfl (fun _ => rfl) (fun h => absurd rfl h), .none rfl⟩
  all_goals exact .unchanged rfl rfl rfl rfl

/-- Settles O27: every micro-step of `WRITE` keeps the registers outside its reach, stores to at most one timer without
touching an event flag, and drives no pin but its operand's. -/
theorem writeFrame : Obligations.WriteFrame := by
  intro s t pin value hi e
  obtain ⟨l, hl, hstep⟩ := exec_write_micro hi e
  obtain ⟨hparams, hcfg, hirq, hadc, hhost, -, -, hmarks, hresp, hvalid⟩ := writeStep_params hstep
  obtain ⟨-, -, -, -, -, -, -, -, hop, ha, hb⟩ := writeStep_keeps hstep
  obtain ⟨hslots, -⟩ := writeStep_shape hstep
  obtain ⟨⟨hraw, hnative⟩, htimers, hpins⟩ := writeStep_devices hstep
  refine ⟨hparams, hcfg, hirq, hadc, hresp, hvalid, hhost, hmarks, by rw [hop, ha, hb], by rw [hraw, hnative], hslots,
    htimers.eventFlag, fun hne => htimers.cnt ?_, fun q => hpins.otherPin⟩
  rintro rfl
  exact hne hl

end Sys2Proof.Machine
end

section
/-! SUPPORT. The constants of a slot (10_state R23): its timer, its event and its half. -/

namespace Sys2Proof.Machine

/-- Event `k` of timer `t` belongs to a slot of that timer (20_memory R61). -/
theorem eventSlot_mem_slotsOf (p : Params) (t : TimerId) {k : Nat} (h1 : 1 ≤ k) (hk : k ≤ p.nCu) :
    eventSlot p t k ∈ slotsOf p t := by
  simp only [slotsOf, eventSlot, List.mem_range'_1]
  omega

theorem slotEvent_eventSlot (p : Params) (t : TimerId) {k : Nat} (h1 : 1 ≤ k) (hk : k ≤ p.nCu) :
    slotEvent p (eventSlot p t k) = k := by
  unfold slotEvent slotUnit eventSlot
  rw [Nat.mul_add_mod_self_right, Nat.mod_eq_of_lt (by omega)]
  omega

/-- A slot is the slot of its own timer and event: both name a slot, and timer and event determine it. -/
theorem eventSlot_slotTimer_slotEvent {p : Params} (hp : 1 ≤ p.nCu) {i : Nat} (hi : i < p.nSlots) :
    eventSlot p (slotTimer p i) (slotEvent p i) = i := by
  have h1 : 1 ≤ slotEvent p i := Nat.one_le_iff_ne_zero.mpr (slotEvent_pos p i)
  have hk : slotEvent p i ≤ p.nCu := slotEvent_le hp i
  obtain ⟨hlt, htimer⟩ := (mem_slotsOf hp).mp (eventSlot_mem_slotsOf p (slotTimer p i) h1 hk)
  exact slot_of_timer_and_event hp hlt hi htimer (slotEvent_eventSlot p _ h1 hk)

theorem slotHalf_eq {p : Params} (hp : 1 ≤ p.nCu) (i : Nat) : slotHalf p i = timerNumber (slotTimer p i) := by
  have hhalf : p.nSlots / 2 = p.nCu := by simp [Params.nSlots]
  have hfirst : i / p.nCu = 0 ↔ i < p.nCu := by rw [Nat.div_eq_zero_iff]; omega
  unfold slotHalf slotTimer
  rw [hhalf]
  by_cases h : i < p.nCu
  · simp [hfirst.mpr h, h, timerNumber]
  · simp [mt hfirst.mp h, h, timerNumber]

/-- Settles O51: an event's slot lies in its timer's part of the table, and there timer and event determine the slot. -/
theorem slotConstants : Obligations.SlotConstants := by
  intro p hp
  constructor
  · intro t k h1 hk
    have hmem := eventSlot_mem_slotsOf p t h1 hk
    obtain ⟨hlt, htimer⟩ := (mem_slotsOf hp).mp hmem
    exact ⟨hlt, htimer, slotEvent_eventSlot p t h1 hk, hmem⟩
  · intro i hi
    exact ⟨eventSlot_slotTimer_slotEvent hp hi, Nat.one_le_iff_ne_zero.mpr (slotEvent_pos p i), slotEvent_le hp i,
      (mem_slotsOf hp).mpr ⟨hi, rfl⟩, slotHalf_eq hp i⟩

end Sys2Proof.Machine
end

section
/-! SUPPORT. Every step keeps the write configuration and the reference mode legal (10_state R31 to R33, R35). -/

namespace Sys2Proof.Machine

theorem configLegal_of_eq {s s' : State} (h : s'.cfg = s.cfg) (u : ConfigLegal s) : ConfigLegal s' := by
  rw [ConfigLegal, h]
  exact u

theorem configLegal_storeWriteResolution (b : Word) {s : State} (u : ConfigLegal s) :
    ConfigLegal (storeWriteResolution b s) :=
  ⟨by simp [writeResolution_idem], u.2⟩

theorem stepSW0_cfg (s : State) : (stepSW0 s).cfg = (storeWriteResolution s.seq.fgA s).cfg := by
  unfold stepSW0
  split <;> rfl

theorem microStep_configLegal {s s' : State} (h : MicroStep s s') (u : ConfigLegal s) : ConfigLegal s' := by
  cases h with
  | rr0 => exact u
  | rf0 => exact ⟨u.1, referenceMode_le _⟩
  | sw0 => exact configLegal_of_eq (stepSW0_cfg s) (configLegal_storeWriteResolution _ u)
  | read l =>
    obtain ⟨-, -, -, hcfg, -⟩ := readStep_keeps l s
    exact configLegal_of_eq hcfg u
  | write l s' _ e =>
    obtain ⟨-, hcfg, -⟩ := writeStep_keeps e
    exact configLegal_of_eq hcfg u
  | reserved => exact u

theorem foregroundStep_configLegal {s s' : State} (h : ForegroundStep s s') (u : ConfigLegal s) :
    ConfigLegal s' := by
  cases h with
  | none | acceptReserved => exact u
  | accept w rest i =>
    obtain ⟨-, -, -, hcfg, -⟩ := acceptedState_keeps i { s with host := rest }
    exact configLegal_of_eq hcfg u
  | micro s' _ _ hm => exact microStep_configLegal hm u

/-- What `SETWRES` stores (41_pwm_alloc R130): a resolution of 2 to 16 bits, with the width and the half scale it
determines. -/
theorem writeResolution_values (b : Word) :
    (2 ≤ (writeResolution b).1.toNat ∧ (writeResolution b).1.toNat ≤ 16) ∧
    ((writeResolution b).2.1 = .w8 ↔ (writeResolution b).1.toNat ≤ 8) ∧
    (writeResolution b).2.2.toNat = 2 ^ (widthBits (writeResolution b).2.1 - 1) := by
  unfold writeResolution
  split
  case isTrue h => simp [widthBits]; omega
  case isFalse =>
    split
    case isTrue h => simp [widthBits]; omega
    case isFalse => simp [widthBits]

/-- Settles O55: only SW0 and RF0 store to the write configuration and the reference mode, and both store legal
values. -/
theorem stepKeepsConfig : Obligations.StepKeepsConfig := by
  constructor
  · intro s t hcfg hstep
    have hbegin : ConfigLegal (beginStep s) := hcfg
    rcases step_agent hstep with ⟨-, h⟩ | ⟨-, h⟩
    · exact foregroundStep_configLegal h hbegin
    · exact configLegal_of_eq h.cfg hbegin
  · rintro s ⟨hwrite, href⟩
    obtain ⟨hrange, hwidth, hhalf⟩ := writeResolution_values s.cfg.writeRes
    rw [hwrite] at hrange hwidth hhalf
    exact ⟨hrange, hwidth, hhalf, href⟩

end Sys2Proof.Machine
end

section
/-! SUPPORT. Every step keeps the pin lists strictly rising (10_state R40, log entry 10). -/

namespace Sys2Proof.Machine

theorem gpioCanonical_of_eq {s s' : State} (h : s'.gpio = s.gpio) (u : GpioCanonical s) : GpioCanonical s' := by
  rw [GpioCanonical, h]
  exact u

/-! ### The foreground sequencer -/

theorem stepSW0_gpio (s : State) : (stepSW0 s).gpio = s.gpio := by
  unfold stepSW0
  split <;> rfl

theorem microStep_gpioCanonical {s s' : State} (h : MicroStep s s') (u : GpioCanonical s) : GpioCanonical s' := by
  cases h with
  | rr0 | rf0 | reserved => exact u
  | sw0 => exact gpioCanonical_of_eq (stepSW0_gpio s) u
  | read l =>
    obtain ⟨-, -, -, -, -, -, -, hgpio, -⟩ := readStep_keeps l s
    exact gpioCanonical_of_eq hgpio u
  | write l s' _ e => exact writeStep_gpio u e

theorem foregroundStep_gpioCanonical {s s' : State} (h : ForegroundStep s s') (u : GpioCanonical s) :
    GpioCanonical s' := by
  cases h with
  | none | acceptReserved => exact u
  | accept w rest i =>
    obtain ⟨-, -, -, -, -, -, -, -, hgpio, -⟩ := acceptedState_keeps i { s with host := rest }
    exact gpioCanonical_of_eq hgpio u
  | micro s' _ _ hm => exact microStep_gpioCanonical hm u

/-! ### The devices -/

theorem tickTurn_gpio (t : TimerId) (s : State) : (tickTurn t s).gpio = s.gpio := by
  unfold tickTurn
  split <;> rfl

theorem adcCompleteTurn_gpio (raw : Word) (s : State) : (adcCompleteTurn raw s).gpio = s.gpio := by
  unfold adcCompleteTurn
  split <;> rfl

theorem timerEventTurn_gpio (t : TimerId) (k : Nat) (s : State) : (timerEventTurn t k s).gpio = s.gpio := by
  unfold timerEventTurn
  split
  · rfl
  · split <;> rfl

theorem undefinedPinTurn_rising (i : Nat) (l : Level) {s : State} (h : s.gpio.high.Pairwise (· < ·)) :
    (undefinedPinTurn i l s).gpio.high.Pairwise (· < ·) := by
  unfold undefinedPinTurn
  dsimp only
  split
  · exact setLevel_rising h _ _
  · exact h

/-! ### Every agent -/

theorem AgentStep.gpioCanonical {s s' : State} (h : AgentStep s s') (u : GpioCanonical s) : GpioCanonical s' := by
  cases h with
  | foreground s' h => exact foregroundStep_gpioCanonical h u
  | dispatcher t s' h => exact ⟨dispatcher_rising h u.1, (dispatcher_frame h).outputs ▸ u.2⟩
  | tick t => exact gpioCanonical_of_eq (tickTurn_gpio t s) u
  | adcComplete raw => exact gpioCanonical_of_eq (adcCompleteTurn_gpio raw s) u
  | timerEvent t k => exact gpioCanonical_of_eq (timerEventTurn_gpio t k s) u
  | undefinedPin i l => exact ⟨undefinedPinTurn_rising i l u.1, (undefinedPin_frame i l s).outputs ▸ u.2⟩

/-- Settles O56: a pin list changes by one insertion or removal, and both keep it strictly rising. -/
theorem stepKeepsPinsCanonical : Obligations.StepKeepsPinsCanonical := by
  intro s t hgpio hstep
  have hagent : AgentStep (beginStep s) t := step_cases hstep
  exact hagent.gpioCanonical (gpioCanonical_of_eq rfl hgpio)

end Sys2Proof.Machine
end

section
/-! SUPPORT. What the invariant says at a command boundary (10_state R24, R26, R29, 42_timer_arbiter R164, 41_pwm_alloc
R137 (b), 60_exceptions R204). -/

namespace Sys2Proof.Machine

theorem UniqueBinding.eq_of_pin {s : State} (h : UniqueBinding s) {i j : Nat} (hi : (slotAt s i).bound = true)
    (hj : (slotAt s j).bound = true) (hpin : (slotAt s i).pin = (slotAt s j).pin) : i = j := by
  by_contra hij
  exact uniqueBinding_ne h hij hi hj hpin

theorem arbiterInv_of_inv {s : State} (u : Inv s) (t : TimerId) : ArbiterInv s t := by
  obtain ⟨-, -, -, -, ⟨-, -, ⟨h0, h1⟩, -⟩, -⟩ := u
  cases t
  · exact h0
  · exact h1

/-- At a boundary nothing of the arbiter is under way: `COUNT` is the number of bound slots, and `RUN`, `T_RUN` and
`NVIC_EN` are what it says. -/
theorem ArbiterInv.atBoundary {s : State} {t : TimerId} (h : ArbiterInv s t) (hb : AtBoundary s) :
    (lookup s.arb t).count.toNat = boundCount s t ∧ (lookup s.arb t).run = ((lookup s.arb t).count != 0#4) ∧
    (lookup s.timers t).run = (lookup s.arb t).run ∧ (lookup s.nvic t).en = (lookup s.arb t).run := by
  obtain ⟨hcount, hrun, htrun, hen, -⟩ := h
  simp only [countAgrees, expectedRun, expectedEnable, hb, beq_iff_eq] at hcount hrun hen
  exact ⟨hcount, hrun, htrun, hen⟩

theorem cycleStartArmed_iff {s : State} {t : TimerId} : cycleStartArmed s t = true ↔
    (compAt (lookup s.timers t) 0).cc = 0#32 ∧ (compAt (lookup s.timers t) 0).inten = true := by
  simp [cycleStartArmed]

theorem compareProgrammed_iff {s : State} {i : Nat} : compareProgrammed s i = true ↔
    (compAt (lookup s.timers (slotTimer s.params i)) (slotEvent s.params i)).cc = (slotAt s i).duty ∧
    (compAt (lookup s.timers (slotTimer s.params i)) (slotEvent s.params i)).inten = true := by
  simp [compareProgrammed]

/-- At a boundary no allocation is working on a slot, so every bound slot is programmed. -/
theorem compareProgrammed_atBoundary {s : State} (u : Inv s) (hb : AtBoundary s) {i : Nat}
    (hi : (slotAt s i).bound = true) : compareProgrammed s i = true := by
  obtain ⟨⟨-, hlen, -⟩, -, -, -, ⟨-, -, -, hcompare, -⟩, -⟩ := u
  have hlt : i < s.params.nSlots := hlen ▸ bound_lt hi
  exact hcompare i (List.mem_range.mpr hlt) hi (by simp [beingProgrammed, hb])

theorem SamplerInv.atBoundary {s : State} (h : SamplerInv s) (hb : AtBoundary s) :
    s.adc.en = false ∧ s.adc.busy = false := by
  obtain ⟨hen, hbusy, -⟩ := h
  rw [hb] at hen hbusy
  exact ⟨hen, by simpa using hbusy⟩

/-- Settles O60: each clause is one part of the invariant, read where no `WRITE` and no `READ` is under way. -/
theorem boundaryProperties : Obligations.BoundaryProperties := by
  intro s u hb
  have ⟨_, _, _, _, ⟨hunique, _⟩, _, hsampler, _⟩ := u
  refine ⟨fun i j => hunique.eq_of_pin, fun t => ?_,
    fun i hi => compareProgrammed_iff.mp (compareProgrammed_atBoundary u hb hi), hsampler.atBoundary hb⟩
  have harbiter : ArbiterInv s t := arbiterInv_of_inv u t
  obtain ⟨hcount, hrun, htrun, hen⟩ := harbiter.atBoundary hb
  obtain ⟨-, -, -, -, harmed⟩ := harbiter
  refine ⟨hcount, hcount ▸ boundCount_le s t, ?_, htrun, hen, fun h => cycleStartArmed_iff.mp (harmed h)⟩
  rw [hrun, bne_iff_ne, Nat.pos_iff_ne_zero, ← BitVec.toNat_ne_iff_ne]
  rfl

end Sys2Proof.Machine
end

section
/-! SUPPORT. What a turn of the foreground sequencer runs (10_state R37, R39, 30_encoding R87). -/

namespace Sys2Proof.Machine

theorem step_foreground {s : State} (h : nextTurn s = .foreground) : step s = foregroundTurn (beginStep s) := by
  rw [step, h]
  rfl

theorem foregroundTurn_ready {s : State} (h : Ready s) : foregroundTurn s = acceptTurn s := by
  simp [foregroundTurn, h.1, h.2]

theorem foregroundTurn_busy {s : State} (hn : s.irq.active = none) (hi : s.seq.step ≠ .idle) :
    foregroundTurn s = microTurn s := by
  simp [foregroundTurn, hn, hi]

theorem foregroundTurn_handler {s : State} (h : s.irq.active ≠ none) : foregroundTurn s = .next s := by
  obtain ⟨t, ht⟩ := Option.ne_none_iff_exists'.mp h
  simp [foregroundTurn, ht]

theorem acceptTurn_command {s : State} {w : CommandWord} {rest : List CommandWord} {i : Instr}
    (hh : s.host = w :: rest) (hd : decode w = .ok i) : acceptTurn s = exec i { s with host := rest } := by
  simp [acceptTurn, hh, hd]

theorem acceptTurn_empty {s : State} (hh : s.host = []) : acceptTurn s = .next s := by
  simp [acceptTurn, hh]

theorem microTurn_command {s : State} {i : Instr} (hd : decode (latchedWord s) = .ok i) : microTurn s = exec i s := by
  simp [microTurn, hd]

/-- Settles O6: beginning a step leaves the sequencer, the dispatcher and the port, and the turn is then one of the
cases of `foregroundTurn`. -/
theorem stepRunsTheCommand : Obligations.StepRunsTheCommand := by
  intro s i hturn
  rw [step_foreground hturn]
  have hready (h : Ready s) : foregroundTurn (beginStep s) = acceptTurn (beginStep s) := foregroundTurn_ready h
  have hhandler (h : s.irq.active ≠ none) : foregroundTurn (beginStep s) = .next (beginStep s) :=
    foregroundTurn_handler h
  refine ⟨fun h w rest hh hd => ?_, fun hn hi hd => ?_, ?_⟩
  · exact (hready h).trans (acceptTurn_command (s := beginStep s) hh hd)
  · exact (foregroundTurn_busy (s := beginStep s) hn hi).trans (microTurn_command hd)
  · rintro (h | ⟨hidle, hh⟩)
    · exact hhandler h
    · by_cases hn : s.irq.active = none
      · exact (hready ⟨hidle, hn⟩).trans (acceptTurn_empty (s := beginStep s) hh)
      · exact hhandler hn

end Sys2Proof.Machine
end

section
/-! SUPPORT. The state after reset: its values (10_state R46 to R48, 70_reset_and_hazards R230), and that it meets the
invariant. -/

namespace Sys2Proof.Machine

/-! ### The tables after reset -/

theorem mem_slots_resetOn {p : Params} {x : Slot} (h : x ∈ (State.resetOn p).slots) : x = Slot.free :=
  List.eq_of_mem_replicate h

@[simp] theorem slotAt_resetOn (p : Params) (i : Nat) : slotAt (State.resetOn p) i = Slot.free := by
  by_cases h : i < (State.resetOn p).slots.length
  · exact mem_slots_resetOn (slotAt_mem h)
  · exact slotAt_out (Nat.le_of_not_lt h)

@[simp] theorem boundCount_resetOn (p : Params) (t : TimerId) : boundCount (State.resetOn p) t = 0 := by
  simp [boundCount]

@[simp] theorem lookup_timers_resetOn (p : Params) (t : TimerId) :
    lookup (State.resetOn p).timers t = TimerRegs.launch p := by
  cases t <;> rfl

@[simp] theorem lookup_arb_resetOn (p : Params) (t : TimerId) : lookup (State.resetOn p).arb t = ⟨0#4, false⟩ := by
  cases t <;> rfl

@[simp] theorem lookup_nvic_resetOn (p : Params) (t : TimerId) :
    lookup (State.resetOn p).nvic t = ⟨false, 0#32⟩ := by
  cases t <;> rfl

theorem pending_resetOn (p : Params) (t : TimerId) : pending (State.resetOn p) t = false := by
  simp [pending]

theorem finished_resetOn (p : Params) : finished (State.resetOn p) = true := by
  have hquiescent : quiescent (State.resetOn p) = true := rfl
  have houtstanding : outstanding (State.resetOn p) = false := by
    rw [outstanding, pending_resetOn, pending_resetOn]
    rfl
  simp [finished, hquiescent, houtstanding]

theorem atBoundary_resetOn (p : Params) : AtBoundary (State.resetOn p) := rfl

/-! ### The parts of the invariant -/

theorem shapeLegal_resetOn {p : Params} (hp : p.Wf) : ShapeLegal (State.resetOn p) :=
  ⟨hp, List.length_replicate, ⟨List.length_replicate, List.length_replicate⟩, Nat.zero_le _⟩

theorem configLegal_resetOn (p : Params) : ConfigLegal (State.resetOn p) := by
  have hreset : writeResolution 8#32 = (8#32, .w8, 128#32) := by decide
  exact ⟨hreset, Nat.le_refl 4⟩

theorem arbiterInv_resetOn (p : Params) (t : TimerId) : ArbiterInv (State.resetOn p) t := by
  simp [ArbiterInv, countAgrees, expectedRun, expectedEnable, atBoundary_resetOn p, TimerRegs.launch]

theorem allocatorInv_resetOn (p : Params) : AllocatorInv (State.resetOn p) := by
  have hfree : ∀ x ∈ (State.resetOn p).slots, ¬ x.bound = true := fun x hx => by simp [mem_slots_resetOn hx]
  refine ⟨?_, fun x hx hb => absurd hb (hfree x hx), ⟨arbiterInv_resetOn p .t0, arbiterInv_resetOn p .t1⟩,
    fun i _ hb => absurd hb (by simp), rfl, rfl, rfl, rfl, rfl, rfl⟩
  exact List.pairwise_of_forall_mem_list fun x hx _ _ hb => absurd hb (hfree x hx)

theorem counterInv_resetOn (p : Params) (t : TimerId) : CounterInv (State.resetOn p) t := by
  simp [CounterInv, TimerRegs.launch, widthModulus_pos]

theorem inv_resetOn {p : Params} (hp : p.Wf) : Inv (State.resetOn p) := by
  refine ⟨shapeLegal_resetOn hp, configLegal_resetOn p, ⟨.nil, .nil⟩, ⟨rfl, rfl⟩, allocatorInv_resetOn p,
    ⟨counterInv_resetOn p .t0, counterInv_resetOn p .t1⟩, ⟨rfl, nofun, rfl⟩, ⟨nofun, nofun⟩,
    fun x hx _ => ?_⟩
  rw [mem_slots_resetOn hx]
  rfl

/-! ### The statements about reset -/

/-- Settles O52: the slot table is filled with free slots and the configuration is that of `ResConfig.reset`. -/
theorem resetValues : Obligations.ResetValues := by
  intro p
  refine ⟨List.length_replicate, fun c hc => ?_, rfl, rfl, rfl, rfl, rfl⟩
  rw [mem_slots_resetOn hc]
  rfl

/-- Settles O53: reset writes PMX's registers alone, and `State.resetOn` already has them at their reset values. -/
theorem resetDrivesNothing : Obligations.ResetDrivesNothing := by
  intro s
  have harb : ∀ t, lookup (pmxReset s).arb t = ⟨0#4, false⟩ := lookup_arb_resetOn s.params
  exact ⟨rfl, rfl, rfl, rfl, rfl, rfl, rfl, harb, rfl, rfl, rfl, rfl, rfl, rfl⟩

/-- Settles O54: all slots are free, both timers stopped and cleared, both lines disabled and the sequencer idle. -/
theorem resetMeetsInv : Obligations.ResetMeetsInv := by
  intro p hp
  exact ⟨inv_resetOn hp, ⟨rfl, rfl⟩, finished_resetOn p, pending_resetOn p⟩

end Sys2Proof.Machine
end

section
/-! SUPPORT. The command word: the decoder and the encoder are inverse to each other, the reserved words are those
without a command, and a source call assembles to its command (30_encoding R81 to R85, R90). -/

namespace Sys2Proof.Machine

/-! ### Decoder and encoder -/

theorem decode_packCommand (op : BitVec 8) (a b : Word) : decode (packCommand op a b) = decodeFields op a b := by
  simp [decode]

theorem decodeFields_command (i : Instr) : decodeFields i.opcode i.operandA i.operandB = .ok i := by
  cases i <;> rfl

@[simp] theorem decode_encode (i : Instr) : decode (encode i) = .ok i :=
  (decode_packCommand _ _ _).trans (decodeFields_command i)

theorem encode_of_decode {w : CommandWord} {i : Instr} (h : decode w = .ok i) : encode i = w := by
  obtain ⟨hop, ha, hb⟩ := decode_eq_ok h
  calc encode i = packCommand (opField w) (aField w) (bField w) := by rw [hop, ha, hb, encode]
    _ = w := packCommand_fields w

/-- Settles O1: each field of the encoding is the command's own, and the operation code tells the row. -/
theorem decodeOfEncode : Obligations.DecodeOfEncode := decode_encode

/-- Settles O2: decoding reads the three fields, and a word is made of its fields. -/
theorem encodeOfDecode : Obligations.EncodeOfDecode := fun _ _ => encode_of_decode

/-! ### Reserved words -/

theorem opcode_range (i : Instr) : 1 ≤ i.opcode.toNat ∧ i.opcode.toNat ≤ 5 := by
  cases i <;> simp [Instr.opcode]

/-- A command's operation code is not reserved. -/
theorem opField_range_of_decode {w : CommandWord} {i : Instr} (h : decode w = .ok i) :
    1 ≤ (opField w).toNat ∧ (opField w).toNat ≤ 5 := by
  obtain ⟨hop, -, -⟩ := decode_eq_ok h
  rw [hop]
  exact opcode_range i

theorem reserved_iff_not_range (op : BitVec 8) :
    (op = 0x00#8 ∨ 6 ≤ op.toNat) ↔ ¬ (1 ≤ op.toNat ∧ op.toNat ≤ 5) := by
  rw [← BitVec.toNat_inj, BitVec.toNat_ofNat]
  omega

theorem decode_ok_iff (w : CommandWord) :
    (∃ i, decode w = .ok i) ↔ (1 ≤ (opField w).toNat ∧ (opField w).toNat ≤ 5) := by
  constructor
  · rintro ⟨i, hi⟩
    exact opField_range_of_decode hi
  · intro hrange
    cases hd : decode w with
    | ok i => exact ⟨i, rfl⟩
    | error e =>
      obtain ⟨-, hreserved⟩ := decode_eq_error hd
      exact absurd hrange ((reserved_iff_not_range _).mp hreserved)

theorem decode_reserved_iff (w : CommandWord) :
    decode w = .error (.reservedOpcode (opField w)) ↔ (opField w = 0x00#8 ∨ 6 ≤ (opField w).toNat) := by
  constructor
  · intro hd
    obtain ⟨-, hreserved⟩ := decode_eq_error hd
    exact hreserved
  · intro hreserved
    cases hd : decode w with
    | ok i => exact absurd (opField_range_of_decode hd) ((reserved_iff_not_range _).mp hreserved)
    | error e =>
      obtain ⟨rfl, -⟩ := decode_eq_error hd
      rfl

/-- Settles O3: a decoded command has a code of 1 to 5, a rejected word a reserved one. -/
theorem reservedExactly : Obligations.ReservedExactly := fun w => ⟨decode_reserved_iff w, decode_ok_iff w⟩

/-- Settles O4, by evaluating the decoder on each word. -/
theorem writtenWordsDecode : Obligations.WrittenWordsDecode := by
  refine ⟨?_, ?_, ?_, ?_, ?_⟩ <;> decide

/-! ### The assembler -/

theorem operandFits_iff (n : Nat) : operandFits n = true ↔ n < 2 ^ 32 := decide_eq_true_iff

/-- A call whose operands fit assembles to the command with these operands as its fields. -/
theorem assemble_fits {n : Nat} (hn : n < 2 ^ 32) :
    assemble (.setReadResolution n) = some (.setrres (BitVec.ofNat 32 n) 0#32) ∧
    assemble (.setReference (.number n)) = some (.setref (BitVec.ofNat 32 n) 0#32) ∧
    assemble (.read n) = some (.read (BitVec.ofNat 32 n) 0#32) ∧
    assemble (.setWriteResolution n) = some (.setwres (BitVec.ofNat 32 n) 0#32) ∧
    ∀ v < 2 ^ 32, assemble (.write n v) = some (.write (BitVec.ofNat 32 n) (BitVec.ofNat 32 v)) := by
  have hfits : operandFits n = true := (operandFits_iff n).mpr hn
  refine ⟨if_pos hfits, if_pos hfits, if_pos hfits, if_pos hfits, fun v hv => if_pos ?_⟩
  simp [SourceCall.wellFormed, hfits, (operandFits_iff v).mpr hv]

/-- A call with an operand wider than its field is not assembled. -/
theorem assemble_wide {n : Nat} (hn : 2 ^ 32 ≤ n) (v : Nat) :
    assemble (.setReadResolution n) = none ∧ assemble (.setReference (.number n)) = none ∧
    assemble (.read n) = none ∧ assemble (.setWriteResolution n) = none ∧
    assemble (.write n v) = none ∧ assemble (.write v n) = none := by
  have hwide : ¬ operandFits n = true := by rw [operandFits_iff]; omega
  refine ⟨if_neg hwide, if_neg hwide, if_neg hwide, if_neg hwide, if_neg ?_, if_neg ?_⟩ <;>
    simp [SourceCall.wellFormed, hwide]

/-- Settles O5: the check of a call is that of its operands; the names and the two written lines are evaluated. -/
theorem callsAssemble : Obligations.CallsAssemble :=
  ⟨fun _ hn => assemble_fits hn, rfl, fun _ hn v => assemble_wide hn v, by decide, by decide⟩

end Sys2Proof.Machine
end

section
/-! SUPPORT. Accepting a command: what is latched, the word presented to the port, and a reserved word's one micro-step
(30_encoding R81, R84, R87, 20_memory R75). -/

namespace Sys2Proof.Machine

/-! ### Accepting -/

theorem accept_encode (i : Instr) (l : FgStep) (s : State) : accept (encode i) l s = { s with
    seq := { s.seq with fgOp := i.opcode, fgA := i.operandA, fgB := i.operandB, step := l } } := by
  simp [accept]

theorem acceptSetwres_encode (bits x : Word) (s : State) :
    acceptSetwres (encode (.setwres bits x)) s =
      { accept (encode (.setwres bits x)) .sw0 s with marks := marksAfterAccept (.setwres bits x) s } := by
  have hbits : (Instr.setwres bits x).operandA = bits := rfl
  rw [acceptSetwres, aField_encode, hbits]
  split
  case isTrue h => simp [markResolutionChanged, marksAfterAccept, h]
  case isFalse h => simp [marksAfterAccept, h, accept]

/-- Accepting is the same for every command but for the mark of U1 (93_implementation_defined U1). -/
theorem acceptedState_eq (i : Instr) (s : State) :
    acceptedState i s = { accept (encode i) (firstLabel i) s with marks := marksAfterAccept i s } := by
  cases i with
  | setwres bits x => exact acceptSetwres_encode bits x s
  | setrres | setref | read | write => rfl

/-- Settles O8: at `IDLE` the meaning of a command is its acceptance, which latches the fields of its encoding. -/
theorem acceptLatches : Obligations.AcceptLatches := by
  intro s i hidle
  rw [exec_idle hidle, acceptedState_eq, accept_encode]

/-! ### Presenting a word -/

theorem withFetchWord_encode (s : State) (i : Instr) :
    s.withFetchWord 72 (encode i).toNat = presentCommand (encode i) s := by
  rw [State.withFetchWord, Nat.mod_eq_of_lt (encode i).isLt, BitVec.ofNat_toNat, BitVec.setWidth_eq]

/-- Settles O7: the presented word makes the state one of `stepRunsTheCommand`, with the word first on the port. -/
theorem presentedWordRuns : Obligations.PresentedWordRuns := by
  intro s i
  rw [withFetchWord_encode]
  obtain ⟨hrun, -⟩ := stepRunsTheCommand (presentCommand (encode i) s) i rfl
  exact hrun ⟨rfl, rfl⟩ (encode i) s.host rfl (decode_encode i)

/-! ### A reserved word -/

theorem acceptTurn_reserved {s : State} {w : CommandWord} {rest : List CommandWord} (hh : s.host = w :: rest)
    (hd : decode w = .error (.reservedOpcode (opField w))) :
    acceptTurn s = .next (acceptReserved w { s with host := rest }) := by
  simp [acceptTurn, hh, hd]

theorem latchedWord_acceptReserved (w : CommandWord) (s : State) : latchedWord (acceptReserved w s) = w :=
  packCommand_fields w

theorem microTurn_reserved {s : State} {e : DecodeError} (hd : decode (latchedWord s) = .error e)
    (hs : s.seq.step = .reserved) : microTurn s = .next (finish s) := by
  simp [microTurn, hd, stepReserved, hs]

theorem step_reserved_accept {s : State} {w : CommandWord} {rest : List CommandWord}
    (hturn : nextTurn s = .foreground) (hr : Ready s) (hh : s.host = w :: rest)
    (hd : decode w = .error (.reservedOpcode (opField w))) :
    step s = .next (acceptReserved w { beginStep s with host := rest }) := by
  rw [step_foreground hturn, foregroundTurn_ready (s := beginStep s) hr, acceptTurn_reserved (s := beginStep s) hh hd]

theorem step_reserved_micro {s : State} {e : DecodeError} (hturn : nextTurn s = .foreground)
    (hn : s.irq.active = none) (hs : s.seq.step = .reserved) (hd : decode (latchedWord s) = .error e) :
    step s = .next (finish (beginStep s)) := by
  have hbusy : (beginStep s).seq.step ≠ .idle := by simp [hs]
  rw [step_foreground hturn, foregroundTurn_busy (s := beginStep s) hn hbusy,
    microTurn_reserved (s := beginStep s) hd hs]

theorem run_succ {s s' : State} (k : Nat) (h : step s = .next s') : core.run (k + 1) s = core.run k s' := by
  have hcore : core.step s = .next s' := h
  simp only [Host.Core.run, hcore]

/-- A schedule of two turns, each of which answers a next state. -/
theorem runTurns_two {s s₁ s₂ : State} {a b : Turn} (h₁ : step { s with sched := [a, b] } = .next s₁)
    (h₂ : step s₁ = .next s₂) : runTurns [a, b] s = .next s₂ :=
  (run_succ 1 h₁).trans (run_succ 0 h₂)

/-- Settles O9: the first turn accepts the word, and the second, with the same word latched, completes it. -/
theorem reservedIsNoOp : Obligations.ReservedIsNoOp := by
  intro s w rest hr hh hreserved
  obtain ⟨hidle, hactive⟩ := hr
  have hd := (decode_reserved_iff w).mpr hreserved
  have hlatched (s' : State) : decode (latchedWord (acceptReserved w s')) = .error (.reservedOpcode (opField w)) := by
    rw [latchedWord_acceptReserved, hd]
  refine (runTurns_two (step_reserved_accept rfl ⟨hidle, hactive⟩ hh hd)
    (step_reserved_micro rfl hactive rfl (hlatched _))).trans ?_
  dsimp only
  rw [hidle]
  rfl

end Sys2Proof.Machine
end

section
/-! SUPPORT. The ignored second operand field of `SETRRES`, `SETREF`, `READ` and `SETWRES` is never read
(30_encoding R85). -/

namespace Sys2Proof.Machine

/-! ### The micro-steps of each command

From a label, a command has a meaning at its own labels alone. -/

theorem exec_setrres_micro {bits x : Word} {s t : State} (hi : s.seq.step ≠ .idle) :
    exec (.setrres bits x) s = .next t ↔ s.seq.step = .rr0 ∧ stepRR0 s = t := by
  simp only [exec, execSetrres]
  split <;> simp_all

theorem exec_setref_micro {mode x : Word} {s t : State} (hi : s.seq.step ≠ .idle) :
    exec (.setref mode x) s = .next t ↔ s.seq.step = .rf0 ∧ stepRF0 s = t := by
  simp only [exec, execSetref]
  split <;> simp_all

theorem exec_setwres_micro {bits x : Word} {s t : State} (hi : s.seq.step ≠ .idle) :
    exec (.setwres bits x) s = .next t ↔ s.seq.step = .sw0 ∧ stepSW0 s = t := by
  simp only [exec, execSetwres]
  split <;> simp_all

theorem exec_read_micro {pin x : Word} {s t : State} (hi : s.seq.step ≠ .idle) :
    exec (.read pin x) s = .next t ↔ ∃ l, s.seq.step = .read l ∧ readStep l s = t := by
  simp only [exec, execRead]
  split <;> simp_all

/-! ### Another value in `FG_B` -/

/-- The state with the value `b` in `FG_B`. -/
def withFgB (b : Word) (s : State) : State := { s with seq := { s.seq with fgB := b } }

theorem stepRR0_withFgB (b : Word) (s : State) : stepRR0 (withFgB b s) = withFgB b (stepRR0 s) := rfl

theorem stepRF0_withFgB (b : Word) (s : State) : stepRF0 (withFgB b s) = withFgB b (stepRF0 s) := rfl

theorem stepSW0_withFgB (b : Word) (s : State) : stepSW0 (withFgB b s) = withFgB b (stepSW0 s) := by
  unfold stepSW0
  rw [apply_ite (withFgB b)]
  rfl

theorem stepRD0_withFgB (b : Word) (s : State) : stepRD0 (withFgB b s) = withFgB b (stepRD0 s) := by
  unfold stepRD0
  dsimp only [withFgB]
  split <;> rfl

theorem stepRD4_withFgB (b : Word) (s : State) : stepRD4 (withFgB b s) = withFgB b (stepRD4 s) := by
  unfold stepRD4
  rw [apply_ite (withFgB b)]
  rfl

theorem readStep_withFgB (b : Word) (l : ReadStep) (s : State) :
    readStep l (withFgB b s) = withFgB b (readStep l s) := by
  cases l with
  | rd0 => exact stepRD0_withFgB b s
  | rd4 => exact stepRD4_withFgB b s
  | rd1 | rd2 | rd3 | rd5 | rd6 | rd7 | rd8 => rfl

/-- Settles O10: no micro-step of the four commands reads `FG_B`, so each commutes with storing another value there. -/
theorem ignoredFieldNeverRead : Obligations.IgnoredFieldNeverRead := by
  intro s t i b hi hop e
  have hi' : (withFgB b s).seq.step ≠ .idle := hi
  change exec i (withFgB b s) = .next (withFgB b t)
  cases i with
  | setrres bits x =>
    obtain ⟨hl, rfl⟩ := (exec_setrres_micro hi).mp e
    exact (exec_setrres_micro hi').mpr ⟨hl, stepRR0_withFgB b s⟩
  | setref mode x =>
    obtain ⟨hl, rfl⟩ := (exec_setref_micro hi).mp e
    exact (exec_setref_micro hi').mpr ⟨hl, stepRF0_withFgB b s⟩
  | read pin x =>
    obtain ⟨l, hl, rfl⟩ := (exec_read_micro hi).mp e
    exact (exec_read_micro hi').mpr ⟨l, hl, readStep_withFgB b l s⟩
  | setwres bits x =>
    obtain ⟨hl, rfl⟩ := (exec_setwres_micro hi).mp e
    exact (exec_setwres_micro hi').mpr ⟨hl, stepSW0_withFgB b s⟩
  | write pin value => exact absurd rfl hop

end Sys2Proof.Machine
end

section
/-! SUPPORT. Rescaling as arithmetic (00_scope R17, 40_sampler R100, R101). -/

namespace Sys2Proof.Machine

theorem toNat_shiftLeft (a n : Word) :
    (shiftLeft a n).toNat = if n.toNat < 32 then a.toNat * 2 ^ n.toNat % 2 ^ 32 else 0 := by
  unfold shiftLeft
  split
  · rw [BitVec.toNat_shiftLeft, Nat.shiftLeft_eq]
  · rfl

theorem toNat_shiftRight (a n : Word) :
    (shiftRight a n).toNat = if n.toNat < 32 then a.toNat / 2 ^ n.toNat else 0 := by
  unfold shiftRight
  split
  · rw [BitVec.toNat_ushiftRight, Nat.shiftRight_eq_div_pow]
  · rfl

@[simp] theorem mapResolution_same (v a : Word) : mapResolution v a a = v := if_pos rfl

/-- R101 (f), to at least as many bits: a left shift, of which the low 32 bits stay. -/
theorem toNat_mapResolution_up (v : Word) {a b : Word} (h : a.toNat ≤ b.toNat) :
    (mapResolution v a b).toNat =
      if b.toNat - a.toNat < 32 then v.toNat * 2 ^ (b.toNat - a.toNat) % 2 ^ 32 else 0 := by
  by_cases hab : a = b
  · subst hab
    rw [mapResolution_same, Nat.sub_self, if_pos (by decide), pow_zero, Nat.mul_one, Nat.mod_eq_of_lt v.isLt]
  · have hlt : a.toNat < b.toNat := Nat.lt_of_le_of_ne h (mt BitVec.eq_of_toNat_eq hab)
    rw [mapResolution, if_neg hab, if_pos hlt, toNat_shiftLeft, BitVec.toNat_sub_of_le h]

/-- R101 (f), to at most as many bits: a right shift. -/
theorem toNat_mapResolution_down (v : Word) {a b : Word} (h : b.toNat ≤ a.toNat) :
    (mapResolution v a b).toNat = if a.toNat - b.toNat < 32 then v.toNat / 2 ^ (a.toNat - b.toNat) else 0 := by
  by_cases hab : a = b
  · subst hab
    rw [mapResolution_same, Nat.sub_self, if_pos (by decide), pow_zero, Nat.div_one]
  · rw [mapResolution, if_neg hab, if_neg (Nat.not_lt.mpr h), toNat_shiftRight, BitVec.toNat_sub_of_le h]

/-- A value that fits in `m` bits, shifted up to `n` bits, fits there. -/
theorem mul_two_pow_sub_lt {v m n : Nat} (hmn : m ≤ n) (hv : v < 2 ^ m) : v * 2 ^ (n - m) < 2 ^ n :=
  calc v * 2 ^ (n - m) < 2 ^ m * 2 ^ (n - m) := Nat.mul_lt_mul_of_pos_right hv (Nat.two_pow_pos _)
    _ = 2 ^ n := by rw [← pow_add, Nat.add_sub_cancel' hmn]

/-- R101 (c): within its resolution a sample is multiplied exactly. The shift by 32 is that of the only 0-bit sample. -/
theorem toNat_mapResolution_up_fits {v a b : Word} (hab : a.toNat ≤ b.toNat) (hb : b.toNat ≤ 32)
    (hv : v.toNat < 2 ^ a.toNat) : (mapResolution v a b).toNat = v.toNat * 2 ^ (b.toNat - a.toNat) := by
  rw [toNat_mapResolution_up v hab]
  split
  case isTrue =>
    have hlt := mul_two_pow_sub_lt hab hv
    exact Nat.mod_eq_of_lt (hlt.trans_le (Nat.pow_le_pow_right (by decide) hb))
  case isFalse hshift =>
    have ha : a.toNat = 0 := by omega
    rw [ha, pow_zero, Nat.lt_one_iff] at hv
    rw [hv, Nat.zero_mul]

/-- R101 (f), downwards up to 32 bits: the division is exact at the shift by 32 too, where it gives 0. -/
theorem toNat_mapResolution_down_fits (v : Word) {a b : Word} (hba : b.toNat ≤ a.toNat) (ha : a.toNat ≤ 32) :
    (mapResolution v a b).toNat = v.toNat / 2 ^ (a.toNat - b.toNat) := by
  rw [toNat_mapResolution_down v hba]
  split
  case isTrue => rfl
  case isFalse hshift =>
    have hd : a.toNat - b.toNat = 32 := by omega
    rw [hd, Nat.div_eq_of_lt v.isLt]

theorem div_two_pow_sub_lt {v m n : Nat} (hnm : n ≤ m) (hv : v < 2 ^ m) : v / 2 ^ (m - n) < 2 ^ n := by
  rw [Nat.div_lt_iff_lt_mul (Nat.two_pow_pos _), ← pow_add, Nat.add_sub_cancel' hnm]
  exact hv

/-- R101 (d). -/
theorem mapResolution_zero (a b : Word) : mapResolution 0#32 a b = 0#32 := by
  apply BitVec.eq_of_toNat_eq
  rcases Nat.le_total a.toNat b.toNat with h | h
  · simp [toNat_mapResolution_up 0#32 h]
  · simp [toNat_mapResolution_down 0#32 h]

/-- R101 (a): up and back down loses nothing. -/
theorem mapResolution_up_down {v a b : Word} (hab : a.toNat ≤ b.toNat) (hb : b.toNat ≤ 32)
    (hv : v.toNat < 2 ^ a.toNat) : mapResolution (mapResolution v a b) b a = v := by
  apply BitVec.eq_of_toNat_eq
  rw [toNat_mapResolution_down_fits _ hab hb, toNat_mapResolution_up_fits hab hb hv,
    Nat.mul_div_cancel _ (Nat.two_pow_pos _)]

/-- R101 (b): down and back up clears the low bits. -/
theorem toNat_mapResolution_down_up {v a b : Word} (hba : b.toNat ≤ a.toNat) (ha : a.toNat ≤ 32)
    (hv : v.toNat < 2 ^ a.toNat) :
    (mapResolution (mapResolution v a b) b a).toNat = v.toNat - v.toNat % 2 ^ (a.toNat - b.toNat) := by
  have hdown := toNat_mapResolution_down_fits v hba ha
  rw [toNat_mapResolution_up_fits hba ha (hdown ▸ div_two_pow_sub_lt hba hv), hdown, Nat.div_mul_self_eq_mod_sub_self]

/-- R101 (e): a sample other than 0 stays so upwards. -/
theorem mapResolution_ne_zero {v a b : Word} (hab : a.toNat ≤ b.toNat) (hb : b.toNat ≤ 32) (hv0 : v ≠ 0#32)
    (hv : v.toNat < 2 ^ a.toNat) : mapResolution v a b ≠ 0#32 := by
  intro h
  apply hv0
  rw [← mapResolution_up_down hab hb hv, h, mapResolution_zero]

/-- Settles O49: rescaling is a multiplication upwards and a division downwards, both exact within 32 bits. -/
theorem mapResolutionLaws : Obligations.MapResolutionLaws := by
  refine ⟨fun _ _ _ => mapResolution_up_down, fun _ _ _ hba => toNat_mapResolution_down_up hba.le,
    fun v a b hab hb hv => ?_, mapResolution_zero, fun _ _ _ hab => mapResolution_ne_zero hab.le,
    fun v _ _ hab => toNat_mapResolution_up v hab.le, fun v _ _ hba => toNat_mapResolution_down v hba.le,
    mapResolution_same⟩
  have hup := toNat_mapResolution_up_fits hab hb hv
  exact ⟨hup ▸ mul_two_pow_sub_lt hab hv, hup⟩

end Sys2Proof.Machine
end

section
/-! SUPPORT. The native resolution is the greatest supported one at or below the request (40_sampler R102). -/

namespace Sys2Proof.Machine

/-- `best` is what a search of the resolutions `rs` for the greatest at or below the request finds. -/
def GreatestAtMost (request : Word) (rs : List Word) : Option Word → Prop
  | none   => ∀ r ∈ rs, request.toNat < r.toNat
  | some b => b ∈ rs ∧ b.toNat ≤ request.toNat ∧ ∀ r ∈ rs, r.toNat ≤ request.toNat → r.toNat ≤ b.toNat

/-- One step of the search takes one more candidate into account. -/
theorem GreatestAtMost.better {request : Word} {rs : List Word} {best : Option Word}
    (h : GreatestAtMost request rs best) (e : ResEntry) :
    GreatestAtMost request (rs ++ [e.bits]) (betterResolution request best e) := by
  have hall {P : Word → Prop} (hrs : ∀ r ∈ rs, P r) (he : P e.bits) : ∀ r ∈ rs ++ [e.bits], P r :=
    List.forall_mem_append.mpr ⟨hrs, List.forall_mem_singleton.mpr he⟩
  have hnew : e.bits ∈ rs ++ [e.bits] := List.mem_append_right _ (List.mem_singleton_self _)
  unfold betterResolution
  split
  case isTrue hle =>
    cases best with
    | none => exact ⟨hnew, hle, hall (fun r hr hrle => absurd hrle (Nat.not_le.mpr (h r hr))) (fun _ => le_rfl)⟩
    | some b =>
      obtain ⟨hb, hbr, hmax⟩ := h
      dsimp only
      split
      case isTrue hlt => exact ⟨hnew, hle, hall (fun r hr hrle => (hmax r hr hrle).trans hlt.le) (fun _ => le_rfl)⟩
      case isFalse hlt => exact ⟨List.mem_append_left _ hb, hbr, hall hmax (fun _ => Nat.not_lt.mp hlt)⟩
  case isFalse hle =>
    cases best with
    | none => exact hall h (Nat.not_le.mp hle)
    | some b =>
      obtain ⟨hb, hbr, hmax⟩ := h
      exact ⟨List.mem_append_left _ hb, hbr, hall hmax (fun hle' => absurd hle' hle)⟩

theorem GreatestAtMost.foldl {request : Word} {rs : List Word} {best : Option Word} (es : List ResEntry)
    (h : GreatestAtMost request rs best) :
    GreatestAtMost request (rs ++ es.map (·.bits)) (es.foldl (betterResolution request) best) := by
  induction es generalizing rs best with
  | nil => simpa using h
  | cons e es ih => simpa using ih (h.better e)

/-- R102: `NATIVE(bits)` is what the search of all supported resolutions finds, or 10 where it finds none. -/
theorem nativeResolution_search (p : Params) (bits : Word) :
    ∃ found, GreatestAtMost bits (p.adcRes.map (·.bits)) found ∧ nativeResolution p bits = found.getD 10#32 := by
  refine ⟨_, GreatestAtMost.foldl (rs := []) (best := none) p.adcRes nofun, ?_⟩
  unfold nativeResolution
  split <;> simp [*]

/-- R102, with a supported resolution at or below the request. -/
theorem nativeResolution_greatest {p : Params} {bits r₀ : Word} (hr₀ : r₀ ∈ p.adcRes.map (·.bits))
    (hle : r₀.toNat ≤ bits.toNat) :
    nativeResolution p bits ∈ p.adcRes.map (·.bits) ∧ (nativeResolution p bits).toNat ≤ bits.toNat ∧
    ∀ r ∈ p.adcRes.map (·.bits), r.toNat ≤ bits.toNat → r.toNat ≤ (nativeResolution p bits).toNat := by
  obtain ⟨found, hfound, hnative⟩ := nativeResolution_search p bits
  rw [hnative]
  cases found with
  | none => exact absurd hle (Nat.not_le.mpr (hfound r₀ hr₀))
  | some b => exact hfound

/-- R102, with none. -/
theorem nativeResolution_default {p : Params} {bits : Word}
    (hall : ∀ r ∈ p.adcRes.map (·.bits), bits.toNat < r.toNat) : nativeResolution p bits = 10#32 := by
  obtain ⟨found, hfound, hnative⟩ := nativeResolution_search p bits
  cases found with
  | none => exact hnative
  | some b =>
    obtain ⟨hb, hle, -⟩ := hfound
    exact absurd hle (Nat.not_le.mpr (hall b hb))

/-- The native resolution is a supported one, so at most 10 bits (00_scope R11). -/
theorem nativeResolution_le_ten {p : Params} (hp : p.Wf) (bits : Word) : (nativeResolution p bits).toNat ≤ 10 := by
  obtain ⟨e, he, hbits⟩ := List.any_eq_true.mp (nativeResolution_supported hp bits)
  obtain ⟨-, -, ⟨-, hle10, -⟩, -⟩ := hp
  exact beq_iff_eq.mp hbits ▸ hle10 e he

/-- R102 and 00_scope R11: 10 is the greatest supported resolution, so a request of 10 or more gets it. -/
theorem nativeResolution_of_ten_le {p : Params} (hp : p.Wf) {bits : Word} (hbits : 10 ≤ bits.toNat) :
    nativeResolution p bits = 10#32 := by
  have ⟨_, _, ⟨h10, _⟩, _⟩ := hp
  obtain ⟨-, -, hmax⟩ := nativeResolution_greatest h10 hbits
  exact BitVec.eq_of_toNat_eq (Nat.le_antisymm (nativeResolution_le_ten hp bits) (hmax _ h10 hbits))

/-- Settles O50: the fold of `nativeResolution` is a search for the greatest candidate. -/
theorem nativeResolutionIsGreatest : Obligations.NativeResolution :=
  fun _ _ => ⟨fun ⟨_, hr, hle⟩ => nativeResolution_greatest hr hle, nativeResolution_default,
    fun hp hbits => nativeResolution_of_ten_le hp hbits⟩

end Sys2Proof.Machine
end

section
/-! SUPPORT. `SETRRES` and `SETREF` store their operand (40_sampler R103, R104). -/

namespace Sys2Proof.Machine

theorem exec_rr0 {bits x : Word} {s : State} (hs : s.seq.step = .rr0) :
    exec (.setrres bits x) s = .next (stepRR0 s) :=
  (exec_setrres_micro (by simp [hs])).mpr ⟨hs, rfl⟩

theorem exec_rf0 {mode x : Word} {s : State} (hs : s.seq.step = .rf0) :
    exec (.setref mode x) s = .next (stepRF0 s) :=
  (exec_setref_micro (by simp [hs])).mpr ⟨hs, rfl⟩

/-! ### Corner cases of the read resolution -/

/-- With 0 requested the native resolution is 0 or 10, and a sample of `n` bits shifted down by `n` is 0. -/
theorem mapResolution_native_zero {p : Params} (hp : p.Wf) {raw : Word}
    (hraw : raw.toNat < 2 ^ (nativeResolution p 0#32).toNat) :
    mapResolution raw (nativeResolution p 0#32) 0#32 = 0#32 := by
  have hle := nativeResolution_le_ten hp 0#32
  apply BitVec.eq_of_toNat_eq
  rw [toNat_mapResolution_down_fits raw (Nat.zero_le _) (by omega)]
  exact Nat.div_eq_of_lt hraw

/-- From 42 requested bits on, the shift up from the native resolution 10 is one by 32 or more. -/
theorem mapResolution_native_wide {p : Params} (hp : p.Wf) {bits : Word} (hbits : 42 ≤ bits.toNat) (raw : Word) :
    mapResolution raw (nativeResolution p bits) bits = 0#32 := by
  have h10 : (10#32).toNat = 10 := rfl
  rw [nativeResolution_of_ten_le hp (by omega)]
  apply BitVec.eq_of_toNat_eq
  rw [toNat_mapResolution_up raw (by omega), if_neg (by omega)]
  rfl

/-- Settles O11: RR0 stores the operand, and the corner cases are shifts that leave no bit of a sample. -/
theorem setrresStores : Obligations.SetrresStores := by
  refine ⟨fun s bits x hs hl => ?_, fun bits x => ⟨opField_encode _, aField_encode _⟩,
    fun p bits raw hp hbits hraw => ?_⟩
  · obtain ⟨-, rfl, -⟩ := hl
    exact exec_rr0 hs
  · rcases hbits with rfl | hwide
    · exact mapResolution_native_zero hp hraw
    · exact mapResolution_native_wide hp hwide raw

/-! ### The reference mode -/

theorem toNat_referenceMode {mode : Word} (h : mode.toNat ≤ 4) : (referenceMode mode).toNat = mode.toNat := by
  rw [referenceMode, if_pos h, BitVec.extractLsb'_toNat, Nat.shiftRight_zero, Nat.mod_eq_of_lt (by omega)]

theorem referenceMode_default {mode : Word} (h : 4 < mode.toNat) : referenceMode mode = 4#3 :=
  if_neg (Nat.not_le.mpr h)

/-- Settles O12: RF0 stores `referenceMode` of the operand, which is the operand up to 4 and the default above. -/
theorem setrefStores : Obligations.SetrefStores := by
  intro s mode x hs hl
  obtain ⟨-, rfl, -⟩ := hl
  refine ⟨fun hle => ⟨_, toNat_referenceMode hle, exec_rf0 hs⟩, fun hlt => ?_⟩
  rw [exec_rf0 hs, stepRF0, referenceMode_default hlt]
  rfl

end Sys2Proof.Machine
end

section
/-! SUPPORT. What each micro-step of `READ` does and what it leaves unchanged (40_sampler R105, R106). -/

namespace Sys2Proof.Machine

theorem exec_read {l : ReadStep} {pin x : Word} {s : State} (hs : s.seq.step = .read l) :
    exec (.read pin x) s = .next (readStep l s) :=
  (exec_read_micro (by simp [hs])).mpr ⟨l, hs, rfl⟩

/-! ### The micro-steps that branch or look up the pin -/

theorem stepRD0_noInput {s : State} (h : analogSel s.params s.seq.fgA = none) :
    stepRD0 s = goto (.read .rd8) { s with resp := { s.resp with resp := 0#32 } } := by
  simp [stepRD0, h]

theorem stepRD0_input {s : State} (h : analogSel s.params s.seq.fgA ≠ none) :
    stepRD0 s = goto (.read .rd1)
      { s with seq := { s.seq with native := nativeResolution s.params s.cfg.readRes } } := by
  obtain ⟨a, ha⟩ := Option.ne_none_iff_exists'.mp h
  simp [stepRD0, ha]

theorem readConfigWord_input {s : State} {a : Word} (h : analogSel s.params s.seq.fgA = some a) :
    readConfigWord s =
      adcCfgPack s.params a (resCode s.params s.seq.native) (refBitsOf s.params s.cfg.adcRef) := by
  rw [readConfigWord, h, Option.getD_some]

theorem readStep_rd2_input {s : State} {a : Word} (h : analogSel s.params s.seq.fgA = some a) :
    readStep .rd2 s = goto (.read .rd3)
      (adcConfigure (adcCfgPack s.params a (resCode s.params s.seq.native) (refBitsOf s.params s.cfg.adcRef)) s) := by
  rw [readStep, readConfigWord_input h]

theorem stepRD4_waits {s : State} (h : s.adc.ended = false) : stepRD4 s = record .adcPollEnd s := by
  simp [stepRD4, h]

theorem stepRD4_ended {s : State} (h : s.adc.ended = true) :
    stepRD4 s = goto (.read .rd5) (record .adcPollEnd s) := by
  simp [stepRD4, h]

/-- Settles O15: `READ` runs the micro-step of its label, which at RD0, RD2 and RD4 depends on the pin's analog input
and on the completion event. -/
theorem readMicroSteps : Obligations.ReadMicroSteps := by
  intro s pin x hl
  obtain ⟨-, rfl, -⟩ := hl
  refine ⟨fun hs hnone => ?_, fun hs hsome => ?_, fun hs => exec_read hs, fun hs a ha => ?_, fun hs => exec_read hs,
    fun hs hwait => ?_, fun hs hended => ?_, fun hs => exec_read hs, fun hs => exec_read hs, fun hs => exec_read hs,
    fun hs => exec_read hs⟩
  · rw [exec_read hs, readStep, stepRD0_noInput hnone]; rfl
  · rw [exec_read hs, readStep, stepRD0_input hsome]; rfl
  · rw [exec_read hs, readStep_rd2_input ha]; rfl
  · rw [exec_read hs, readStep, stepRD4_waits hwait]; rfl
  · rw [exec_read hs, readStep, stepRD4_ended hended]; rfl

/-! ### The frame -/

theorem readStep_keepsTemporaries (l : ReadStep) (s : State) :
    (readStep l s).adc.result = s.adc.result ∧ (readStep l s).seq.scan = s.seq.scan ∧
    (readStep l s).seq.sel = s.seq.sel ∧ (readStep l s).seq.newBind = s.seq.newBind ∧
    (readStep l s).seq.dtmp = s.seq.dtmp := by
  cases l with
  | rd0 => simp only [readStep, stepRD0]; split <;> simp
  | rd4 => simp only [readStep, stepRD4]; split <;> simp
  | rd1 | rd2 | rd3 | rd5 | rd6 | rd7 | rd8 => simp [readStep]

/-- Settles O17: from a label `READ` has a meaning at its own labels alone, and each of its micro-steps keeps the
frame. -/
theorem readFrame : Obligations.ReadFrame := by
  intro s t pin x hi e
  obtain ⟨l, -, rfl⟩ := (exec_read_micro hi).mp e
  obtain ⟨hparams, hslots, harb, hcfg, hirq, htimers, hnvic, hgpio, hhost, -, -, hmarks, hop, ha, hb⟩ :=
    readStep_keeps l s
  obtain ⟨hresult, hscan, hsel, hnew, hdtmp⟩ := readStep_keepsTemporaries l s
  exact ⟨hparams, hslots, harb, hcfg, hirq, htimers, hnvic, hgpio, hresult, hhost, hmarks, by rw [hop, ha, hb],
    by rw [hscan, hsel, hnew, hdtmp]⟩

end Sys2Proof.Machine
end

section
/-! SUPPORT. `READ` waits at RD4 while no conversion completes (40_sampler R107, 70_reset_and_hazards R234). -/

namespace Sys2Proof.Machine

/-! ### Only a completion and PMX itself change the ADC -/

theorem tickTurn_adc (t : TimerId) (s : State) : (tickTurn t s).adc = s.adc := by
  unfold tickTurn
  split <;> simp

theorem timerEventTurn_adc (t : TimerId) (k : Nat) (s : State) : (timerEventTurn t k s).adc = s.adc := by
  unfold timerEventTurn
  split
  · rfl
  · split <;> simp

theorem undefinedPinTurn_adc (i : Nat) (l : Level) (s : State) : (undefinedPinTurn i l s).adc = s.adc := by
  unfold undefinedPinTurn
  dsimp only
  split <;> simp

/-! ### A turn of the foreground sequencer -/

/-- A `READ` runs, is at the micro-step `l`, and no handler executes. -/
structure Reading (l : ReadStep) (s : State) : Prop where
  op   : s.seq.fgOp = 0x03#8
  step : s.seq.step = .read l
  free : s.irq.active = none

theorem decode_latchedWord_read {s : State} (h : s.seq.fgOp = 0x03#8) :
    decode (latchedWord s) = .ok (.read s.seq.fgA s.seq.fgB) := by
  rw [latchedWord, decode_packCommand, h]
  rfl

/-- A turn of the foreground sequencer then takes the micro-step. -/
theorem Reading.foregroundTurn {l : ReadStep} {s : State} (h : Reading l s) :
    foregroundTurn s = .next (readStep l s) := by
  rw [foregroundTurn_busy h.free (by simp [h.step]), microTurn_command (decode_latchedWord_read h.op), exec_read h.step]

/-- While a handler executes, or the completion event is not there, a turn of the foreground sequencer stays at RD4. -/
theorem foregroundTurn_waits {s : State} (hop : s.seq.fgOp = 0x03#8) (hs : s.seq.step = .read .rd4)
    (hended : s.adc.ended = false) : ∃ t, foregroundTurn s = .next t ∧ t.seq = s.seq ∧ t.adc = s.adc := by
  by_cases hn : s.irq.active = none
  · refine ⟨_, Reading.foregroundTurn ⟨hop, hs, hn⟩, ?_⟩
    rw [readStep, stepRD4_waits hended]
    exact ⟨rfl, rfl⟩
  · exact ⟨s, foregroundTurn_handler hn, rfl, rfl⟩

/-- Any turn but the completion of a conversion leaves a waiting `READ` and the ADC as they are. -/
theorem takeTurn_waits {turn : Turn} {s : State} (hop : s.seq.fgOp = 0x03#8) (hs : s.seq.step = .read .rd4)
    (hended : s.adc.ended = false) (hturn : ∀ raw, turn ≠ .adcComplete raw) :
    ∃ t, takeTurn turn s = .next t ∧ t.seq = s.seq ∧ t.adc = s.adc := by
  cases turn with
  | foreground => exact foregroundTurn_waits hop hs hended
  | dispatcher t =>
    have hd := dispatcherTurn_cases t s
    exact ⟨_, rfl, (dispatcher_frame hd).seq, dispatcher_adc hd⟩
  | tick t => exact ⟨_, rfl, (tick_frame t s).seq, tickTurn_adc t s⟩
  | adcComplete raw => exact absurd rfl (hturn raw)
  | timerEvent t k => exact ⟨_, rfl, (timerEvent_frame t k s).seq, timerEventTurn_adc t k s⟩
  | undefinedPin i l => exact ⟨_, rfl, (undefinedPin_frame i l s).seq, undefinedPinTurn_adc i l s⟩

theorem cmdReady_of_busy {s : State} (h : s.seq.step ≠ .idle) : cmdReady s = false := by
  simp [cmdReady, h]

/-- Settles O18: beginning a step leaves the sequencer and the ADC, every turn but the completion keeps them, and the
port is closed at RD4. -/
theorem readWaitsForTheAdc : Obligations.ReadWaitsForTheAdc := by
  intro s hop hs hended hturn
  obtain ⟨t, hstep, hseq, hadc⟩ := takeTurn_waits (s := beginStep s) hop hs hended hturn
  have hlabel : t.seq.step = .read .rd4 := hseq ▸ hs
  exact ⟨t, hstep, hseq, hadc, cmdReady_of_busy (by simp [hlabel])⟩

end Sys2Proof.Machine
end

section
/-! SUPPORT. A whole `READ`, from the port to `DONE`, phase by phase (40_sampler R105, R106). -/

namespace Sys2Proof.Machine

/-! ### One turn of a schedule -/

/-- The state with `ts` as the turns to come. -/
def withSched (ts : List Turn) (s : State) : State := { s with sched := ts }

/-- What a step does beside its turn, the schedule apart: it is counted, and the strobes of the step before end. -/
def countStep (s : State) : State :=
  { s with resp := ⟨s.resp.resp, false, false⟩, steps := s.steps + 1 }

/-- What the first turn of a schedule answers, the rest of the schedule runs from. -/
theorem runTurns_cons {turn : Turn} {ts : List Turn} {s s' : State}
    (h : takeTurn turn (withSched ts (countStep s)) = .next (withSched ts s')) :
    runTurns (turn :: ts) s = runTurns ts s' :=
  run_succ ts.length h

theorem stepRD0_withSched (ts : List Turn) (s : State) : stepRD0 (withSched ts s) = withSched ts (stepRD0 s) := by
  unfold stepRD0
  dsimp only [withSched]
  split <;> rfl

theorem stepRD4_withSched (ts : List Turn) (s : State) : stepRD4 (withSched ts s) = withSched ts (stepRD4 s) := by
  unfold stepRD4
  rw [apply_ite (withSched ts)]
  rfl

theorem readStep_withSched (ts : List Turn) (l : ReadStep) (s : State) :
    readStep l (withSched ts s) = withSched ts (readStep l s) := by
  cases l with
  | rd0 => exact stepRD0_withSched ts s
  | rd4 => exact stepRD4_withSched ts s
  | rd1 | rd2 | rd3 | rd5 | rd6 | rd7 | rd8 => rfl

theorem Reading.runTurns_foreground {l : ReadStep} {s s' : State} {ts : List Turn} (h : Reading l s)
    (hs' : readStep l (countStep s) = s') : runTurns (.foreground :: ts) s = runTurns ts s' := by
  have hreading : Reading l (withSched ts (countStep s)) := ⟨h.op, h.step, h.free⟩
  apply runTurns_cons
  rw [takeTurn, hreading.foregroundTurn, readStep_withSched, hs']

/-! ### The phases of a `READ` -/

/-- The command is accepted and its fields are latched. -/
def readAccepted (pin x : Word) (rest : List CommandWord) (s : State) : State :=
  { s with
    seq := { s.seq with fgOp := 0x03#8, fgA := pin, fgB := x, step := .read .rd0 }
    resp := ⟨s.resp.resp, false, false⟩
    host := rest
    steps := s.steps + 1 }

theorem runTurns_acceptRead {s : State} {pin x : Word} {rest : List CommandWord} (hr : Ready s)
    (hh : s.host = encode (.read pin x) :: rest) (ts : List Turn) :
    runTurns (.foreground :: ts) s = runTurns ts (readAccepted pin x rest s) := by
  have hready : Ready (withSched ts (countStep s)) := hr
  have hhost : (withSched ts (countStep s)).host = encode (.read pin x) :: rest := hh
  apply runTurns_cons
  rw [takeTurn, foregroundTurn_ready hready, acceptTurn_command hhost (decode_encode _)]
  exact acceptLatches _ _ hr.1

/-- RD0 to RD3 on a pin with the analog input `a`: the ADC is enabled, configured and started. -/
def conversionStarted (a : Word) (s : State) : State :=
  let n := nativeResolution s.params s.cfg.readRes
  let word := adcCfgPack s.params a (resCode s.params n) (refBitsOf s.params s.cfg.adcRef)
  { s with
    seq := { s.seq with native := n, step := .read .rd4 }
    resp := ⟨s.resp.resp, false, false⟩
    adc := ⟨true, word, true, false, s.adc.result⟩
    steps := s.steps + 4
    trace := [.adcStart, .adcConfig word, .adcEnable true] ++ s.trace }

theorem Reading.runTurns_start {s : State} (h : Reading .rd0 s) {a : Word}
    (ha : analogSel s.params s.seq.fgA = some a) (ts : List Turn) :
    runTurns (List.replicate 4 .foreground ++ ts) s = runTurns ts (conversionStarted a s) := by
  refine Eq.trans (h.runTurns_foreground (stepRD0_input (s := countStep s) (ha ▸ Option.some_ne_none a))) ?_
  refine Eq.trans (Reading.runTurns_foreground (l := .rd1) ⟨h.op, rfl, h.free⟩ rfl) ?_
  refine Eq.trans (Reading.runTurns_foreground (l := .rd2) ⟨h.op, rfl, h.free⟩ (readStep_rd2_input ha)) ?_
  refine Eq.trans (Reading.runTurns_foreground (l := .rd3) ⟨h.op, rfl, h.free⟩ rfl) (congrArg (runTurns ts) ?_)
  cases s
  rfl

/-- `k` polls of RD4 that find no completion event. -/
def polled (k : Nat) (s : State) : State :=
  { s with
    resp := ⟨s.resp.resp, false, false⟩
    steps := s.steps + k
    trace := List.replicate k .adcPollEnd ++ s.trace }

theorem polled_succ (k : Nat) (s : State) : polled k (polled 1 s) = polled (k + 1) s := by
  simp [polled, List.replicate_succ', Nat.add_comm, Nat.add_left_comm]

theorem Reading.runTurns_poll {s : State} (h : Reading .rd4 s) (hended : s.adc.ended = false) (ts : List Turn) :
    runTurns (.foreground :: ts) s = runTurns ts (polled 1 s) :=
  h.runTurns_foreground (stepRD4_waits (s := countStep s) hended)

theorem Reading.runTurns_polls {s : State} (h : Reading .rd4 s) (hended : s.adc.ended = false)
    (hstrobes : polled 0 s = s) (k : Nat) (ts : List Turn) :
    runTurns (List.replicate k .foreground ++ ts) s = runTurns ts (polled k s) := by
  induction k generalizing s with
  | zero => rw [hstrobes]; rfl
  | succ k ih =>
    calc runTurns (List.replicate (k + 1) .foreground ++ ts) s
        = runTurns (List.replicate k .foreground ++ ts) (polled 1 s) := h.runTurns_poll hended _
      _ = runTurns ts (polled k (polled 1 s)) := ih (s := polled 1 s) ⟨h.op, h.step, h.free⟩ hended rfl
      _ = runTurns ts (polled (k + 1) s) := by rw [polled_succ]

/-- The conversion completes with the sample `raw`. -/
def conversionCompleted (raw : Word) (s : State) : State :=
  { s with
    resp := ⟨s.resp.resp, false, false⟩
    adc := { s.adc with result := raw, ended := true, busy := false }
    steps := s.steps + 1 }

/-- A draw below `2^n` is the sample itself. -/
theorem drawBelow_eq {n raw : Word} (h : raw.toNat < 2 ^ n.toNat) : drawBelow n raw = raw := by
  rw [drawBelow, Nat.mod_eq_of_lt h, BitVec.ofNat_toNat, BitVec.setWidth_eq]

theorem conversionResult_eq {s : State} {n raw : Word} (hcfg : configuredResolution s.params s.adc.cfg = some n)
    (hraw : raw.toNat < 2 ^ n.toNat) : conversionResult s raw = raw := by
  rw [conversionResult, hcfg]
  exact drawBelow_eq hraw

theorem adcCompleteTurn_busy {s : State} {raw : Word} (hbusy : s.adc.busy = true)
    (hresult : conversionResult s raw = raw) :
    adcCompleteTurn raw s = { s with adc := { s.adc with result := raw, ended := true, busy := false } } := by
  rw [adcCompleteTurn, if_pos hbusy, hresult]

theorem runTurns_complete {s : State} {n raw : Word} (hbusy : s.adc.busy = true)
    (hcfg : configuredResolution s.params s.adc.cfg = some n) (hraw : raw.toNat < 2 ^ n.toNat) (ts : List Turn) :
    runTurns (.adcComplete raw :: ts) s = runTurns ts (conversionCompleted raw s) := by
  apply runTurns_cons
  have hcfg' : configuredResolution (withSched ts (countStep s)).params (withSched ts (countStep s)).adc.cfg = some n :=
    hcfg
  have hbusy' : (withSched ts (countStep s)).adc.busy = true := hbusy
  rw [takeTurn, adcCompleteTurn_busy hbusy' (conversionResult_eq hcfg' hraw)]
  rfl

/-- RD4 to RD8 with the completion event there: the result is read and rescaled, the ADC is disabled. -/
def readFinished (s : State) : State :=
  { s with
    seq := { s.seq with raw := s.adc.result, step := .idle }
    resp := ⟨mapResolution s.adc.result s.seq.native s.cfg.readRes, true, true⟩
    adc := { s.adc with en := false }
    sched := []
    steps := s.steps + 5
    trace := [.adcEnable false, .adcReadResult, .adcPollEnd] ++ s.trace }

theorem Reading.runTurns_finish {s : State} (h : Reading .rd4 s) (hended : s.adc.ended = true) :
    runTurns (List.replicate 5 .foreground) s = .next (readFinished s) := by
  refine Eq.trans (h.runTurns_foreground (stepRD4_ended (s := countStep s) hended)) ?_
  refine Eq.trans (Reading.runTurns_foreground (l := .rd5) ⟨h.op, rfl, h.free⟩ rfl) ?_
  refine Eq.trans (Reading.runTurns_foreground (l := .rd6) ⟨h.op, rfl, h.free⟩ rfl) ?_
  refine Eq.trans (Reading.runTurns_foreground (l := .rd7) ⟨h.op, rfl, h.free⟩ rfl) ?_
  refine Eq.trans (Reading.runTurns_foreground (l := .rd8) ⟨h.op, rfl, h.free⟩ rfl) (congrArg Host.Outcome.next ?_)
  cases s
  rfl

/-- From the start of the conversion to `DONE`, with any number of polls before the completion. -/
theorem Reading.runTurns_sample {s : State} (h : Reading .rd4 s) (hbusy : s.adc.busy = true)
    (hended : s.adc.ended = false) (hstrobes : polled 0 s = s) {n raw : Word}
    (hcfg : configuredResolution s.params s.adc.cfg = some n) (hraw : raw.toNat < 2 ^ n.toNat) (polls : Nat) :
    runTurns (List.replicate polls .foreground ++ .adcComplete raw :: List.replicate 5 .foreground) s =
      .next (readFinished (conversionCompleted raw (polled polls s))) := by
  have hcompleted : Reading .rd4 (conversionCompleted raw (polled polls s)) := ⟨h.op, h.step, h.free⟩
  rw [h.runTurns_polls hended hstrobes, runTurns_complete (s := polled polls s) hbusy hcfg hraw,
    hcompleted.runTurns_finish rfl]

/-! ### The whole command -/

/-- The configuration word that `READ` writes codes the native resolution (40_sampler R106). -/
theorem conversionStarted_configured {s : State} (hp : s.params.Wf) (href : s.cfg.adcRef.toNat ≤ 4) {pin a : Word}
    (ha : analogSel s.params pin = some a) :
    configuredResolution s.params (conversionStarted a s).adc.cfg =
      some (nativeResolution s.params s.cfg.readRes) :=
  configuredResolution_adcCfgPack hp (analogSel_mem ha) (nativeResolution_supported hp _) (refBitsOf_mem hp href)

/-- The turns of a `READ` with `polls` polls before the completion, phase by phase. -/
theorem readTurns_eq (polls : Nat) (ts : List Turn) :
    List.replicate (5 + polls) Turn.foreground ++ ts =
      .foreground :: (List.replicate 4 .foreground ++ (List.replicate polls .foreground ++ ts)) := by
  rw [List.replicate_add, List.append_assoc]
  rfl

theorem runTurns_read_input {s : State} {pin x a raw : Word} {rest : List CommandWord} (polls : Nat) (hr : Ready s)
    (hh : s.host = encode (.read pin x) :: rest) (hp : s.params.Wf) (ha : analogSel s.params pin = some a)
    (hraw : raw.toNat < 2 ^ (nativeResolution s.params s.cfg.readRes).toNat) (href : s.cfg.adcRef.toNat ≤ 4) :
    runTurns (List.replicate (5 + polls) .foreground ++ .adcComplete raw :: List.replicate 5 .foreground) s =
      .next (readFinished (conversionCompleted raw (polled polls
        (conversionStarted a (readAccepted pin x rest s))))) := by
  have hbegun : Reading .rd0 (readAccepted pin x rest s) := ⟨rfl, rfl, hr.2⟩
  have hwaiting : Reading .rd4 (conversionStarted a (readAccepted pin x rest s)) := ⟨rfl, rfl, hr.2⟩
  have hcfg := conversionStarted_configured (s := readAccepted pin x rest s) hp href ha
  rw [readTurns_eq, runTurns_acceptRead hr hh, hbegun.runTurns_start ha]
  exact hwaiting.runTurns_sample rfl rfl rfl hcfg hraw polls

theorem runTurns_read_noInput {s : State} {pin x : Word} {rest : List CommandWord} (hr : Ready s)
    (hh : s.host = encode (.read pin x) :: rest) (hnone : analogSel s.params pin = none) :
    runTurns (List.replicate 3 .foreground) s = .next { s with
      seq := { s.seq with fgOp := 0x03#8, fgA := pin, fgB := x, step := .idle }
      resp := ⟨0#32, true, true⟩
      host := rest
      sched := []
      steps := s.steps + 3 } := by
  refine Eq.trans (runTurns_acceptRead hr hh _) ?_
  refine Eq.trans (Reading.runTurns_foreground (l := .rd0) ⟨rfl, rfl, hr.2⟩ (stepRD0_noInput hnone)) ?_
  refine Eq.trans (Reading.runTurns_foreground (l := .rd8) ⟨rfl, rfl, hr.2⟩ rfl) (congrArg Host.Outcome.next ?_)
  cases s
  rfl

/-- Settles O16: the phases of the run in turn; at the end the sequencer is idle again, as it was. -/
theorem readReturnsRescaledSample : Obligations.ReadReturnsRescaledSample := by
  intro s pin x rest hr hh
  have hidle := hr.1
  refine ⟨fun a raw polls hp ha hraw href => ?_, fun hnone => ?_⟩
  · refine (runTurns_read_input polls hr hh hp ha hraw href).trans ?_
    have hsteps : s.steps + 1 + 4 + polls = s.steps + polls + 5 := by omega
    simp [readFinished, conversionCompleted, polled, conversionStarted, readAccepted, hidle, hsteps]
  · refine (runTurns_read_noInput hr hh hnone).trans ?_
    simp [hidle]

end Sys2Proof.Machine
end

section
/-! SUPPORT. A pin that no bound slot and no `WRITE` names is driven by no agent (41_pwm_alloc R137 (a)). -/

namespace Sys2Proof.Machine

/-! ### No slot bound to a pin -/

/-- No slot is bound to pin `p`. -/
abbrev Unbound (s : State) (p : Word) : Prop := ∀ x ∈ s.slots, x.bound = true → x.pin ≠ p

theorem Unbound.pin_ne {s : State} {p : Word} (h : Unbound s p) {i : Nat} (hb : (slotAt s i).bound = true) :
    (slotAt s i).pin ≠ p :=
  h _ (slotAt_mem (bound_lt hb)) hb

theorem Unbound.of_slots {s s' : State} {p : Word} (hs : s'.slots = s.slots) (h : Unbound s p) : Unbound s' p := by
  rw [Unbound, hs]
  exact h

theorem Unbound.setSlot {s : State} {p : Word} (h : Unbound s p) (i : Nat) {f : Slot → Slot}
    (hf : ∀ x, (x.bound = true → x.pin ≠ p) → (f x).bound = true → (f x).pin ≠ p) : Unbound (setSlot i f s) p := by
  intro x hx
  obtain ⟨j, -, rfl⟩ := mem_slots_iff.mp hx
  rw [slotAt_setSlot]
  split
  · exact hf _ h.pin_ne
  · exact h.pin_ne

theorem Unbound.markBoundUndefined {s : State} {p : Word} (h : Unbound s p) : Unbound (markBoundUndefined s) p := by
  intro x hx
  obtain ⟨j, -, rfl⟩ := mem_slots_iff.mp hx
  rw [slotAt_markBoundUndefined]
  split
  case isTrue hb => exact fun _ => h.pin_ne hb
  case isFalse => exact h.pin_ne

/-- A micro-step of a `WRITE` that names another pin binds no slot to `p`. -/
theorem Unbound.write {l : WriteStep} {s s' : State} {p : Word} (h : Unbound s p) (hs : s.seq.step = .write l)
    (ha : s.seq.fgA ≠ p) (e : writeStep l s = .next s') : Unbound s' p := by
  rcases writeStep_slots hs e with hslots | ⟨-, hslots⟩ | ⟨i, -, ⟨-, hslots⟩ | ⟨-, hslots⟩⟩
  · exact h.of_slots hslots
  · exact Unbound.of_slots hslots (h.setSlot _ (fun _ _ hb => absurd hb (by simp [Slot.bound])))
  · exact Unbound.of_slots hslots (h.setSlot i (fun _ hx => hx))
  · exact Unbound.of_slots hslots (h.setSlot i (fun _ _ _ => ha))

/-! ### The level under the other agents -/

theorem levelOf_driveSlot {s : State} {p : Word} (h : Unbound s p) (i : Nat) (rule : Slot → Option Level) :
    levelOf (driveSlot i rule s) p = levelOf s p := by
  unfold driveSlot
  dsimp only
  split
  case isTrue hb =>
    have hp : p ≠ (slotAt s i).pin := (h.pin_ne hb).symm
    split
    · simp [hp]
    · split <;> simp [hp]
  case isFalse => rfl

theorem levelOf_foldl_driveSlot {p : Word} (rule : Slot → Option Level) (is : List Nat) {s : State}
    (h : Unbound s p) : levelOf (is.foldl (fun s i => driveSlot i rule s) s) p = levelOf s p := by
  induction is generalizing s with
  | nil => rfl
  | cons i is ih =>
    rw [List.foldl_cons, ih (Unbound.of_slots (by simp) h)]
    exact levelOf_driveSlot h i rule

theorem levelOf_serviceEvent {s : State} {p : Word} (h : Unbound s p) (t : TimerId) (k : Nat) :
    levelOf (serviceEvent t k s) p = levelOf s p := by
  unfold serviceEvent
  split
  · split
    · exact levelOf_foldl_driveSlot cycleStartRule _ h
    · exact levelOf_driveSlot h _ _
  · rfl

theorem DispatcherStep.levelOf {t : TimerId} {s s' : State} {p : Word} (hd : DispatcherStep t s s')
    (h : Unbound s p) : levelOf s' p = levelOf s p := by
  cases hd with
  | none | enter | leave => rfl
  | service => exact levelOf_serviceEvent h t _

theorem levelOf_undefinedPinTurn {s : State} {p : Word} (h : Unbound s p) (i : Nat) (l : Level) :
    levelOf (undefinedPinTurn i l s) p = levelOf s p := by
  unfold undefinedPinTurn
  dsimp only
  split
  case isTrue hb =>
    have hbound : (slotAt s i).bound = true := (Bool.and_eq_true_iff.mp hb).1
    rw [levelOf_setLevel, if_neg (h.pin_ne hbound).symm]
  case isFalse => rfl

/-! ### The quiet pin -/

/-- Another agent than the foreground sequencer can only disturb the level. -/
theorem PinQuiet.env {s s' : State} {p : Word} (h : PinQuiet s p) (hf : EnvFrame s s')
    (hl : levelOf s' p = levelOf s p) : PinQuiet s' p := by
  obtain ⟨hunbound, hlow, hcommand, hport⟩ := h
  refine ⟨Unbound.of_slots hf.slots hunbound, hl.trans hlow, ?_, ?_⟩
  · rw [hf.seq]; exact hcommand
  · rw [hf.host]; exact hport

/-- The end of a command, or a micro-step that touches no slot and no pin. -/
theorem PinQuiet.micro {s s' : State} {p : Word} (h : PinQuiet s p) (hunbound : Unbound s' p)
    (hg : s'.gpio = s.gpio) (hh : s'.host = s.host)
    (hcommand : s'.seq.fgOp = 0x05#8 → s'.seq.step ≠ .idle → s'.seq.step ≠ .write .w9 → s'.seq.fgA ≠ p) :
    PinQuiet s' p := by
  obtain ⟨-, hlow, -, hport⟩ := h
  exact ⟨hunbound, (levelOf_eq hg p).trans hlow, hcommand, hh ▸ hport⟩

/-- A micro-step of `WRITE`: its operand is another pin, or it is W9, which only ends the command. -/
theorem PinQuiet.write {l : WriteStep} {s s' : State} {p : Word} (h : PinQuiet s p) (hop : s.seq.fgOp = 0x05#8)
    (hs : s.seq.step = .write l) (e : writeStep l s = .next s') : PinQuiet s' p := by
  have ⟨hunbound, hlow, hcommand, hport⟩ := h
  by_cases hl : l = .w9
  · subst hl
    cases e
    exact h.micro hunbound rfl rfl (fun _ hidle => absurd rfl hidle)
  · have ha : s.seq.fgA ≠ p := hcommand hop (by simp [hs]) (by simpa [hs] using hl)
    obtain ⟨-, -, -, -, hhost, -, -, -, -, ha', -⟩ := writeStep_keeps e
    obtain ⟨hlevel, -⟩ := (writeStep_devices e).pins.otherPin ha.symm
    exact ⟨Unbound.write hunbound hs ha e, hlevel.trans hlow, fun _ _ _ => ha' ▸ ha, hhost ▸ hport⟩

theorem PinQuiet.microStep {s s' : State} {p : Word} (h : PinQuiet s p) (hi : s.seq.step ≠ .idle)
    (hop : ∀ l, s.seq.step = .write l → s.seq.fgOp = 0x05#8) (hm : MicroStep s s') : PinQuiet s' p := by
  have ⟨hunbound, _, hcommand, _⟩ := h
  cases hm with
  | rr0 | rf0 | reserved => exact h.micro hunbound rfl rfl (fun _ hidle => absurd rfl hidle)
  | sw0 =>
    unfold stepSW0
    split
    · exact h.micro hunbound rfl rfl (fun _ hidle => absurd rfl hidle)
    · exact h.micro (Unbound.markBoundUndefined (s := storeWriteResolution s.seq.fgA s) hunbound) rfl rfl
        (fun _ hidle => absurd rfl hidle)
  | read l hs =>
    obtain ⟨-, hslots, -, -, -, -, -, hgpio, hhost, -, -, -, hop', ha', -⟩ := readStep_keeps l s
    refine h.micro (Unbound.of_slots hslots hunbound) hgpio hhost (fun h5 _ _ => ?_)
    rw [ha']
    exact hcommand (hop' ▸ h5) hi (by simp [hs])
  | write l s' hs e => exact h.write (hop l hs) hs e

/-- Accepting a word that is no `WRITE` to `p` leaves the pin quiet. -/
theorem PinQuiet.accepted {s s' : State} {p : Word} {w : CommandWord} {rest : List CommandWord} (h : PinQuiet s p)
    (hh : s.host = w :: rest) (hslots : s'.slots = s.slots) (hg : s'.gpio = s.gpio) (hhost : s'.host = rest)
    (hop : s'.seq.fgOp = opField w) (ha : s'.seq.fgA = aField w) : PinQuiet s' p := by
  obtain ⟨hunbound, hlow, -, hport⟩ := h
  rw [hh, List.all_cons, Bool.and_eq_true] at hport
  obtain ⟨hw, hrest⟩ := hport
  refine ⟨Unbound.of_slots hslots hunbound, (levelOf_eq hg p).trans hlow, fun h5 _ _ => ?_, hhost ▸ hrest⟩
  rw [ha]
  simpa [← hop, h5] using hw

/-- A label of `WRITE` has a micro-step only under the operation code of `WRITE`. -/
theorem fgOp_of_foregroundTurn_write {l : WriteStep} {s s' : State} (hn : s.irq.active = none)
    (hs : s.seq.step = .write l) (e : foregroundTurn s = .next s') : s.seq.fgOp = 0x05#8 := by
  have hi : s.seq.step ≠ .idle := by simp [hs]
  rw [foregroundTurn_busy hn hi, microTurn] at e
  split at e
  case h_1 i hd =>
    obtain ⟨hop, -⟩ := decode_eq_ok hd
    rw [opField_latchedWord] at hop
    cases i with
    | setrres => simp [exec_setrres_micro hi, hs] at e
    | setref => simp [exec_setref_micro hi, hs] at e
    | read => simp [exec_read_micro hi, hs] at e
    | setwres => simp [exec_setwres_micro hi, hs] at e
    | write => exact hop
  case h_2 => simp [stepReserved, hs] at e

theorem PinQuiet.foreground {s s' : State} {p : Word} (h : PinQuiet s p) (e : foregroundTurn s = .next s') :
    PinQuiet s' p := by
  cases foregroundTurn_cases e with
  | none => exact h
  | accept w rest i _ hh hd =>
    obtain ⟨-, hslots, -, -, -, -, -, -, hgpio, -, hhost, -, -, -, hseq⟩ :=
      acceptedState_keeps i { s with host := rest }
    obtain ⟨hop, ha, -⟩ := decode_eq_ok hd
    exact h.accepted hh hslots hgpio hhost (by rw [hseq, hop]) (by rw [hseq, ha])
  | acceptReserved w rest _ hh => exact h.accepted hh rfl rfl rfl rfl rfl
  | micro s' hn hi hm => exact h.microStep hi (fun l hs => fgOp_of_foregroundTurn_write hn hs e) hm

theorem PinQuiet.takeTurn {turn : Turn} {s s' : State} {p : Word} (h : PinQuiet s p)
    (e : takeTurn turn s = .next s') : PinQuiet s' p := by
  have ⟨hunbound, _⟩ := h
  cases turn with
  | foreground => exact h.foreground e
  | dispatcher t =>
    cases e
    have hd := dispatcherTurn_cases t s
    exact h.env (dispatcher_frame hd) (hd.levelOf hunbound)
  | tick t =>
    cases e
    exact h.env (tick_frame t s) (levelOf_eq (tickTurn_gpio t s) p)
  | adcComplete raw =>
    cases e
    exact h.env (adcComplete_frame raw s) (levelOf_eq (adcCompleteTurn_gpio raw s) p)
  | timerEvent t k =>
    cases e
    exact h.env (timerEvent_frame t k s) (levelOf_eq (timerEventTurn_gpio t k s) p)
  | undefinedPin i l =>
    cases e
    exact h.env (undefinedPin_frame i l s) (levelOf_undefinedPinTurn hunbound i l)

/-- Settles O32: beginning a step leaves what makes the pin quiet, and a turn of any agent keeps it. -/
theorem quietPinStaysQuiet : Obligations.QuietPinStaysQuiet := by
  intro s t p h e
  have hbegun : PinQuiet (beginStep s) p := h
  exact hbegun.takeTurn e

end Sys2Proof.Machine
end

section
/-! SUPPORT. `SETWRES` stores one of its three arms and leaves slots, timers and pins (41_pwm_alloc R130). -/

namespace Sys2Proof.Machine

theorem exec_sw0 {bits x : Word} {s : State} (hs : s.seq.step = .sw0) :
    exec (.setwres bits x) s = .next (stepSW0 s) :=
  (exec_setwres_micro (by simp [hs])).mpr ⟨hs, rfl⟩

/-! ### The three arms -/

theorem writeResolution_narrow {b : Word} (h : 2 ≤ b.toNat ∧ b.toNat ≤ 8) :
    writeResolution b = (b, .w8, 128#32) :=
  if_pos h

theorem writeResolution_wide {b : Word} (h : 9 ≤ b.toNat ∧ b.toNat ≤ 16) :
    writeResolution b = (b, .w16, 32768#32) := by
  rw [writeResolution, if_neg (by omega), if_pos h]

theorem writeResolution_default {b : Word} (h : b.toNat < 2 ∨ 16 < b.toNat) :
    writeResolution b = (8#32, .w8, 128#32) := by
  rw [writeResolution, if_neg (by omega), if_neg (by omega)]

/-! ### What SW0 leaves -/

/-- Marking the bound slots changes no pin and no duty. -/
theorem pins_duties_markBoundUndefined (s : State) :
    (markBoundUndefined s).slots.map (fun c => (c.pin, c.duty)) = s.slots.map (fun c => (c.pin, c.duty)) := by
  rw [markBoundUndefined_changes, List.map_map]
  refine List.map_congr_left fun c _ => ?_
  rw [Function.comp_apply]
  split <;> rfl

/-- SW0 stores the resolution and ends the command; a slot it may only mark. -/
theorem stepSW0_eq (s : State) : ∃ slots,
    stepSW0 s = finish (storeWriteResolution s.seq.fgA { s with slots := slots }) ∧
    slots.map (fun c => (c.pin, c.duty)) = s.slots.map (fun c => (c.pin, c.duty)) := by
  unfold stepSW0
  split
  · exact ⟨s.slots, rfl, rfl⟩
  · exact ⟨_, rfl, pins_duties_markBoundUndefined s⟩

/-- Settles O13: the stores are `writeResolution` of the operand in each of its arms, and SW0 does no more than
`stepSW0_eq` says. -/
theorem setwresStores : Obligations.SetwresStores := by
  intro s bits x hs hl
  obtain ⟨-, rfl, -⟩ := hl
  obtain ⟨slots, heq, hslots⟩ := stepSW0_eq s
  refine ⟨_, (exec_sw0 hs).trans (congrArg Host.Outcome.next heq), fun h => ?_, fun h => ?_, fun h => ?_, hslots,
    rfl, rfl, rfl, rfl, rfl, rfl, rfl, rfl, rfl, rfl, rfl⟩
  · simp [writeResolution_narrow h]
  · simp [writeResolution_wide h]
  · simp [writeResolution_default h]

end Sys2Proof.Machine
end

section
/-! SUPPORT. What each micro-step of `WRITE` does: entry, free path, search, fallback, allocation (41_pwm_alloc R131 to
R136). -/

namespace Sys2Proof.Machine

theorem exec_write {l : WriteStep} {pin value : Word} {s : State} (hs : s.seq.step = .write l) :
    exec (.write pin value) s = writeStep l s := by
  simp only [exec, execWrite, hs]

/-- With a slot selected, the steps of the allocation path are those on that slot. -/
theorem writeStep_onAllocPath {l : WriteStep} {s : State} {i : Nat} (hl : onAllocPath l = true)
    (hi : s.seq.sel = some i) : writeStep l s = allocStep i l s := by
  cases l <;> simp [onAllocPath, writeStep, onSelected, hi] at hl ⊢

theorem exec_onAllocPath {l : WriteStep} {pin value : Word} {s : State} {i : Nat} (hs : s.seq.step = .write l)
    (hl : onAllocPath l = true) (hi : s.seq.sel = some i) : exec (.write pin value) s = allocStep i l s :=
  (exec_write hs).trans (writeStep_onAllocPath hl hi)

/-! ### The position does not matter for the pins -/

@[simp] theorem levelOf_goto (l : FgStep) (s : State) (q : Word) : levelOf (goto l s) q = levelOf s q := rfl

@[simp] theorem isOutput_goto (l : FgStep) (s : State) (q : Word) : isOutput (goto l s) q = isOutput s q := rfl

/-! ### Entry -/

theorem writeStep_w0_invalid {s : State} (h : pinMap s.params s.seq.fgA = none) :
    writeStep .w0 s = .next (goto (.write .w9) s) := by
  simp [writeStep, stepW0, h]

theorem writeStep_w0_valid {s : State} (h : pinMap s.params s.seq.fgA ≠ none) :
    writeStep .w0 s = .next (goto (.write .w1) s) := by
  simp [writeStep, stepW0, h]

theorem writeStep_w1_zero {s : State} (h : s.seq.fgB = 0#32) : writeStep .w1 s = .next (goto (.write .f0) s) := by
  simp [writeStep, stepW1, h]

theorem writeStep_w1_nonzero {s : State} (h : s.seq.fgB ≠ 0#32) :
    writeStep .w1 s = .next (goto (.write .s0) s) := by
  simp [writeStep, stepW1, h]

/-- Settles O19: each step is one branch of W0 or of W1, or W9. -/
theorem writeEntry : Obligations.WriteEntry := by
  intro s pin value hl
  obtain ⟨-, rfl, rfl⟩ := hl
  exact ⟨fun hs h => (exec_write hs).trans (writeStep_w0_invalid h),
    fun hs h => (exec_write hs).trans (writeStep_w0_valid h),
    fun hs h => (exec_write hs).trans (writeStep_w1_zero h),
    fun hs h => (exec_write hs).trans (writeStep_w1_nonzero h), fun hs => exec_write hs⟩

/-! ### Free path -/

theorem writeStep_f1_end {s : State} (h : s.seq.scan = s.params.nSlots) :
    writeStep .f1 s = .next (goto (.write .f6) s) := by
  simp [writeStep, stepF1, h]

theorem writeStep_f1_found {s : State} (h : s.seq.scan < s.params.nSlots)
    (hp : (slotAt s s.seq.scan).pin = s.seq.fgA) : writeStep .f1 s = .next (goto (.write .f2) s) := by
  simp [writeStep, stepF1, h.ne, hp]

theorem writeStep_f1_passed {s : State} (h : s.seq.scan < s.params.nSlots)
    (hp : (slotAt s s.seq.scan).pin ≠ s.seq.fgA) :
    writeStep .f1 s = .next (goto (.write .f1) (setScan (s.seq.scan + 1) s)) := by
  simp [writeStep, stepF1, h.ne, hp]

theorem writeStep_f4_last {s : State} (h : (lookup s.arb (scanTimer s)).count = 0#4) :
    writeStep .f4 s = .next (goto (.write .tp0) s) := by
  simp [writeStep, stepF4, h]

theorem writeStep_f4_notLast {s : State} (h : (lookup s.arb (scanTimer s)).count ≠ 0#4) :
    writeStep .f4 s = .next (goto (.write .f5) s) := by
  simp [writeStep, stepF4, h]

/-- Settles O21: F1 and F4 by their branches, the other steps as they stand. -/
theorem writeFreeSteps : Obligations.WriteFreeSteps := by
  intro s pin value hl u
  obtain ⟨-, rfl, -⟩ := hl
  refine ⟨fun hs => exec_write hs, fun hs h => (exec_write hs).trans (writeStep_f1_end h),
    fun hs h hp => (exec_write hs).trans (writeStep_f1_passed h hp),
    fun hs h hp => (exec_write hs).trans (writeStep_f1_found h hp), fun hs => exec_write hs,
    fun hs => ⟨_, exec_write hs, rfl, ?_, fun v hv => ?_⟩, fun hs h => (exec_write hs).trans (writeStep_f4_last h),
    fun hs h => (exec_write hs).trans (writeStep_f4_notLast h), fun hs => exec_write hs,
    fun hs => ⟨_, exec_write hs, rfl, ?_, ?_, fun q hq => ?_⟩⟩
  · simp [scanTimer, u]
  · simp [scanTimer, hv.symm, u]
  · simp
  · simp
  · simp [hq]

/-! ### Slot search -/

theorem boundTo_eq_some {s : State} {p : Word} {i : Nat} (hi : i < s.slots.length) (hp : (slotAt s i).pin = p)
    (hleast : ∀ j, j < i → (slotAt s j).pin ≠ p) : boundTo s p = some i := by
  rw [boundTo, List.findIdx?_eq_some_iff_getElem]
  refine ⟨hi, by simpa [slotAt, hi] using hp, fun j hj => ?_⟩
  have hj' : j < s.slots.length := by omega
  simpa [slotAt, hj'] using hleast j hj

theorem boundTo_eq_none {s : State} {p : Word} (h : ∀ c ∈ s.slots, c.pin ≠ p) : boundTo s p = none := by
  rw [boundTo, List.findIdx?_eq_none_iff]
  simpa using h

theorem selectSlot_bound {s : State} {p : Word} {i : Nat} (h : boundTo s p = some i) : selectSlot s p = some i := by
  simp [selectSlot, h]

theorem selectSlot_notBound {s : State} {p : Word} (h : boundTo s p = none) :
    selectSlot s p = boundTo s pinFree := by
  rw [selectSlot, h]
  rfl

theorem writeStep_s0_some {s : State} {i : Nat} (h : selectSlot s s.seq.fgA = some i) :
    writeStep .s0 s = .next (goto (.write .a0)
      { s with seq := { s.seq with sel := some i, newBind := (slotAt s i).pin == pinFree } }) := by
  simp [writeStep, stepS0, h]

theorem writeStep_s0_none {s : State} (h : selectSlot s s.seq.fgA = none) :
    writeStep .s0 s = .next (goto (.write .s1) { s with seq := { s.seq with sel := none, newBind := false } }) := by
  simp [writeStep, stepS0, h]

/-- Settles O22: the least slot bound to the pin is what `boundTo` finds; with none, the search goes on for the
sentinel of a free slot. -/
theorem writeSearch : Obligations.WriteSearch := by
  intro s pin value hl hs hfree
  obtain ⟨-, rfl, -⟩ := hl
  rw [exec_write hs]
  refine ⟨fun i hi hp hleast => ?_, fun i hnone hi hp hleast => ?_, fun hnone => ?_⟩
  · have hselect := selectSlot_bound (boundTo_eq_some hi hp hleast)
    have hnew : ((slotAt s i).pin == pinFree) = false := by simp [hp, hfree]
    rw [writeStep_s0_some hselect, hnew]
    rfl
  · have hselect := (selectSlot_notBound (boundTo_eq_none hnone)).trans (boundTo_eq_some hi hp hleast)
    have hnew : ((slotAt s i).pin == pinFree) = true := by simp [hp]
    rw [writeStep_s0_some hselect, hnew]
    rfl
  · have hselect := (selectSlot_notBound (boundTo_eq_none fun c hc => (hnone c hc).1)).trans
      (boundTo_eq_none fun c hc => (hnone c hc).2)
    exact writeStep_s0_none hselect

/-! ### Fallback -/

theorem fallbackLevel_high_iff (s : State) :
    fallbackLevel s = .high ↔ s.cfg.halfScale.toNat ≤ (fallbackValue s).toNat := by
  unfold fallbackLevel
  split <;> simp_all

/-- Settles O23: S1 writes `fallbackLevel` to the operand's pin, and `FALLBACK_CMP` says which value it compares. -/
theorem writeFallback : Obligations.WriteFallback := by
  intro s pin value hl hs
  obtain ⟨-, rfl, rfl⟩ := hl
  have hlevel := fallbackLevel_high_iff s
  refine ⟨_, fallbackLevel s, exec_write hs, rfl, fun h => ?_, fun h => ?_, ?_, ?_, fun q hq => ?_⟩
  · simpa [fallbackValue, h] using hlevel
  · simpa [fallbackValue, h] using hlevel
  · simp [stepS1]
  · simp [stepS1]
  · simp [stepS1, hq]

/-! ### Allocation -/

theorem afterA1_eq (s : State) : afterA1 s = if s.params.bindOrder = .dutyFirst then .a2 else .a3 := by
  unfold afterA1
  split <;> simp [*]

theorem afterA2_eq (s : State) : afterA2 s = if s.params.bindOrder = .dutyFirst then .a3 else .a4 := by
  unfold afterA2
  split <;> simp [*]

theorem afterA3_eq (s : State) : afterA3 s = if s.params.bindOrder = .dutyFirst then .a4 else .a2 := by
  unfold afterA3
  split <;> simp [*]

theorem stepA4_eq (t : TimerId) (s : State) :
    stepA4 t s = goto (.write (if (lookup s.arb t).count = 0#4 then .ts0 else .a5)) s := by
  unfold stepA4
  split <;> rfl

theorem stepA7_eq (t : TimerId) (s : State) :
    stepA7 t s = goto (.write .w9) (if s.seq.newBind then countUp t s else s) := by
  unfold stepA7
  split <;> rfl

/-- A store to one comparator of timer `t`: the other timer, its other registers and its other comparators stay. -/
theorem compStore_effect {s : State} {t : TimerId} {k : Nat} (hk : k < (lookup s.timers t).comps.length)
    (f : Comparator → Comparator) {x : PerTimer TimerRegs}
    (hx : x = update s.timers t (setComp k f (lookup s.timers t))) :
    lookup x t = { lookup s.timers t with comps := (lookup x t).comps } ∧
    (∀ v, v ≠ t → lookup x v = lookup s.timers v) ∧
    compAt (lookup x t) k = f (compAt (lookup s.timers t) k) ∧
    ∀ j, j ≠ k → compAt (lookup x t) j = compAt (lookup s.timers t) j := by
  subst hx
  simp only [lookup_update]
  refine ⟨rfl, fun v hv => if_neg hv.symm, ?_, fun j hj => ?_⟩
  · simp [compAt_setComp, hk]
  · simp [compAt_setComp, hj.symm]

/-- Settles O24: each step is the one of `allocStep` on the selected slot, whose comparator is in its table. -/
theorem writeAllocateSteps : Obligations.WriteAllocateSteps := by
  intro s pin value i hl hi hlt hshape u k
  obtain ⟨-, rfl, rfl⟩ := hl
  have hk : k < (lookup s.timers u).comps.length := by
    have hle : k ≤ s.params.nCu := slotEvent_le (nCu_pos hshape.1) i
    rw [comps_length hshape]
    omega
  refine ⟨fun hs => ⟨_, exec_onAllocPath hs rfl hi, rfl, rfl, ?_, fun q hq => ?_⟩, fun hs => ?_, fun hs => ?_,
    fun hs => ?_, fun hs => ?_, fun hs => ⟨_, exec_onAllocPath hs rfl hi, rfl, compStore_effect hk _ rfl⟩,
    fun hs => ⟨_, exec_onAllocPath hs rfl hi, rfl, compStore_effect hk _ rfl⟩,
    fun hs => ⟨_, exec_onAllocPath hs rfl hi, ?_, ?_, fun v hv => ?_⟩⟩
  · simp
  · simp [hq]
  · rw [exec_onAllocPath hs rfl hi, ← afterA1_eq]
    rfl
  · rw [exec_onAllocPath hs rfl hi, ← afterA2_eq]
    rfl
  · rw [exec_onAllocPath hs rfl hi, ← afterA3_eq]
    rfl
  · rw [exec_onAllocPath hs rfl hi, allocStep, stepA4_eq]
    rfl
  · rw [stepA7_eq]
    split <;> rfl
  · rw [stepA7_eq]
    split <;> simp [u]
  · rw [stepA7_eq]
    split <;> simp [u, hv.symm]

/-! ### Slots bound to another pin -/

/-- The slot the allocation path stores to is bound to the operand, or free. -/
theorem selectionSound_pin {l : WriteStep} {s : State} {i : Nat} (h : selectionSound s = true)
    (hs : s.seq.step = .write l) (hi : s.seq.sel = some i) (hl : onAllocPath l = true) :
    (slotAt s i).pin = s.seq.fgA ∨ (slotAt s i).bound = false := by
  simp only [selectionSound, hs, hi, hl] at h
  split at h
  · split at h
    · right
      simp_all [Slot.bound]
    · exact .inl (by simpa using h)
  · exact .inl (by simpa using h)

/-- A store to a slot that is not bound to another pin leaves every slot bound to another pin. -/
theorem slotAt_setSlot_otherPin {s : State} {i j : Nat} {p : Word} (f : Slot → Slot)
    (hi : (slotAt s i).pin = p ∨ (slotAt s i).bound = false) (hb : (slotAt s j).bound = true)
    (hp : (slotAt s j).pin ≠ p) : slotAt (setSlot i f s) j = slotAt s j := by
  apply slotAt_setSlot_other
  rintro rfl
  rcases hi with h | h
  · exact hp h
  · simp [h] at hb

/-- Settles O28: of the three steps that store to the slot table, F2 stores to a slot bound to the operand
(`freeProgress`), A2 and A3 to the selected one (`selectionSound`). -/
theorem writeKeepsOtherBindings : Obligations.WriteKeepsOtherBindings := by
  intro s t pin value u hl hidle e j hb hp
  obtain ⟨-, -, -, -, ⟨-, -, -, -, -, hselection, -, -, -, hfree⟩, -⟩ := u
  obtain ⟨-, rfl, -⟩ := hl
  obtain ⟨l, hs, hstep⟩ := exec_write_micro hidle e
  rcases writeStep_slots hs hstep with hslots | ⟨rfl, hslots⟩ | ⟨i, hi, ⟨rfl, hslots⟩ | ⟨rfl, hslots⟩⟩
  · exact slotAt_eq hslots j
  · have hpin : (slotAt s s.seq.scan).pin = s.seq.fgA := by simpa [freeProgress, hs] using hfree
    exact (slotAt_eq hslots j).trans (slotAt_setSlot_otherPin _ (.inl hpin) hb hp)
  · exact (slotAt_eq hslots j).trans
      (slotAt_setSlot_otherPin _ (selectionSound_pin hselection hs hi rfl) hb hp)
  · exact (slotAt_eq hslots j).trans
      (slotAt_setSlot_otherPin _ (selectionSound_pin hselection hs hi rfl) hb hp)

end Sys2Proof.Machine
end

section
/-! SUPPORT. A `WRITE` run by turns of the foreground sequencer alone (10_state R37): where the sequencer stands is kept
apart from what the micro-steps have done. -/

namespace Sys2Proof.Machine

/-! ### Turns of the foreground sequencer -/

/-- `n` turns of the foreground sequencer lead from `s` to `t`, whatever turns follow. -/
def ForegroundRun (n : Nat) (s t : State) : Prop :=
  ∀ ts, runTurns (List.replicate n .foreground ++ ts) s = runTurns ts t

theorem ForegroundRun.trans {m n : Nat} {s t u : State} (h : ForegroundRun m s t) (h' : ForegroundRun n t u) :
    ForegroundRun (m + n) s u := by
  intro ts
  rw [List.replicate_add, List.append_assoc, h, h']

theorem ForegroundRun.runTurns {n : Nat} {s t : State} (h : ForegroundRun n s t) :
    runTurns (List.replicate n .foreground) s = .next (withSched [] t) := by
  have hrun := h []
  rwa [List.append_nil] at hrun

/-- One turn of the foreground sequencer, on the state with the step begun. -/
theorem ForegroundRun.of_turn {s t : State}
    (h : ∀ ts, foregroundTurn (withSched ts (countStep s)) = .next (withSched ts t)) : ForegroundRun 1 s t :=
  fun ts => runTurns_cons (h ts)

theorem inv_run {k : Nat} {s t : State} (u : Inv s) (h : core.run k s = .next t) : Inv t := by
  induction k generalizing s with
  | zero =>
    cases h
    exact u
  | succ k ih =>
    simp only [Host.Core.run] at h
    split at h
    case h_1 s' e => exact ih (stepKeepsInv s s' u e) h
    all_goals contradiction

theorem inv_runTurns {ts : List Turn} {s t : State} (u : Inv s) (h : runTurns ts s = .next t) : Inv t :=
  inv_run (s := { s with sched := ts }) u h

/-! ### A `WRITE` at a label -/

/-- A `WRITE` is latched and no handler executes. -/
abbrev Writing (s : State) : Prop := s.seq.fgOp = 0x05#8 ∧ s.irq.active = none

/-- The state `n` steps on, at label `l`. -/
def atStep (n : Nat) (l : WriteStep) (s : State) : State :=
  { s with
    seq := { s.seq with step := .write l }
    resp := ⟨s.resp.resp, false, false⟩
    steps := s.steps + n }

/-- The state `n` steps on, with the command ended. -/
def atDone (n : Nat) (s : State) : State :=
  { s with
    seq := { s.seq with step := .idle }
    resp := ⟨s.resp.resp, true, false⟩
    steps := s.steps + n }

theorem decode_latchedWord_write {s : State} (h : s.seq.fgOp = 0x05#8) :
    decode (latchedWord s) = .ok (.write s.seq.fgA s.seq.fgB) := by
  rw [latchedWord, decode_packCommand, h]
  rfl

/-- A turn of the foreground sequencer takes the micro-step of the label. -/
theorem Writing.run {n : Nat} {l : WriteStep} {s s' : State} (h : Writing s)
    (e : ∀ ts, writeStep l (withSched ts (atStep (n + 1) l s)) = .next (withSched ts s')) :
    ForegroundRun 1 (atStep n l s) s' := by
  refine .of_turn fun ts => ?_
  have hn : (withSched ts (countStep (atStep n l s))).irq.active = none := h.2
  have hs : (withSched ts (countStep (atStep n l s))).seq.step = .write l := rfl
  have hd := decode_latchedWord_write (s := withSched ts (countStep (atStep n l s))) h.1
  rw [foregroundTurn_busy hn (by simp [hs]), microTurn_command hd, exec_write hs]
  exact e ts

/-- W9 ends the command. -/
theorem Writing.run_w9 {s : State} (h : Writing s) (n : Nat) : ForegroundRun 1 (atStep n .w9 s) (atDone (n + 1) s) :=
  h.run fun _ => rfl

/-! ### Entry -/

/-- The command is latched and taken off the port. -/
def writeLatched (p v : Word) (rest : List CommandWord) (s : State) : State :=
  { s with seq := { s.seq with fgOp := 0x05#8, fgA := p, fgB := v }, host := rest }

theorem writing_writeLatched {s : State} (hr : Ready s) (p v : Word) (rest : List CommandWord) :
    Writing (writeLatched p v rest s) :=
  ⟨rfl, hr.2⟩

theorem run_accept {s : State} {p v : Word} {rest : List CommandWord} (hr : Ready s)
    (hh : s.host = encode (.write p v) :: rest) : ForegroundRun 1 s (atStep 1 .w0 (writeLatched p v rest s)) := by
  refine .of_turn fun ts => ?_
  have hready : Ready (withSched ts (countStep s)) := hr
  have hhost : (withSched ts (countStep s)).host = encode (.write p v) :: rest := hh
  rw [foregroundTurn_ready hready, acceptTurn_command hhost (decode_encode _)]
  exact acceptLatches _ _ hr.1

/-- Settles O20: the word is accepted, W0 finds no pad, W9 ends the command. -/
theorem writeInvalidPinIsNoOp : Obligations.WriteInvalidPinIsNoOp := by
  intro s p v rest hr hh hp
  have hw := writing_writeLatched hr p v rest
  have hrun := ((run_accept hr hh).trans (hw.run fun _ => writeStep_w0_invalid hp)).trans (hw.run_w9 2)
  refine hrun.runTurns.trans ?_
  simp [withSched, atDone, writeLatched, hr.1]

/-- From the port to W1, on a valid pin. -/
theorem run_entry {s : State} {p v : Word} {rest : List CommandWord} (hr : Ready s)
    (hh : s.host = encode (.write p v) :: rest) (hp : pinMap s.params p ≠ none) :
    ForegroundRun 2 s (atStep 2 .w1 (writeLatched p v rest s)) :=
  (run_accept hr hh).trans (Writing.run (writing_writeLatched hr p v rest) fun _ => writeStep_w0_valid hp)

/-- From the port to the slot search, for a value that is not 0. -/
theorem run_toSearch {s : State} {p v : Word} {rest : List CommandWord} (hr : Ready s)
    (hh : s.host = encode (.write p v) :: rest) (hp : pinMap s.params p ≠ none) (hv : v ≠ 0#32) :
    ForegroundRun 3 s (atStep 3 .s0 (writeLatched p v rest s)) :=
  (run_entry hr hh hp).trans (Writing.run (writing_writeLatched hr p v rest) fun _ => writeStep_w1_nonzero hv)

end Sys2Proof.Machine
end

section
/-! SUPPORT. A whole `WRITE` that falls back to a digital write (41_pwm_alloc R133, R134). -/

namespace Sys2Proof.Machine

/-- What S0 stores: the slot taken, if any, and whether it passes from free to bound. -/
def selected (sel : Option Nat) (newBind : Bool) (s : State) : State :=
  { s with seq := { s.seq with sel := sel, newBind := newBind } }

theorem selectSlot_eq_none {s : State} {p : Word} (h : ∀ c ∈ s.slots, c.bound = true ∧ c.pin ≠ p) :
    selectSlot s p = none :=
  (selectSlot_notBound (boundTo_eq_none fun c hc => (h c hc).2)).trans
    (boundTo_eq_none fun c hc => bound_iff.mp (h c hc).1)

/-- S0 with no slot, S1 and W9. -/
theorem Writing.run_fallback {s : State} (h : Writing s) (hnone : selectSlot s s.seq.fgA = none) (n : Nat) :
    ForegroundRun 3 (atStep n .s0 s)
      (atDone (n + 3) (gpioWrite s.seq.fgA (fallbackLevel s) (selected none false s))) := by
  have hsearch : ForegroundRun 1 (atStep n .s0 s) (atStep (n + 1) .s1 (selected none false s)) :=
    h.run fun _ => writeStep_s0_none hnone
  have hwrite : ForegroundRun 1 (atStep (n + 1) .s1 (selected none false s))
      (atStep (n + 2) .w9 (gpioWrite s.seq.fgA (fallbackLevel s) (selected none false s))) :=
    Writing.run (s := selected none false s) h fun _ => rfl
  exact (hsearch.trans hwrite).trans (Writing.run_w9 (s := gpioWrite _ _ (selected none false s)) h (n + 2))

/-- Settles O31: the search finds no slot, so the whole effect is that of S1. -/
theorem writeFallsBack : Obligations.WriteFallsBack := by
  intro s p v rest hr hh hp hv hslots c l
  have hnone : selectSlot (writeLatched p v rest s) p = none := selectSlot_eq_none (s := writeLatched p v rest s) hslots
  have hlevel : fallbackLevel (writeLatched p v rest s) = l := rfl
  have hrun := (run_toSearch hr hh hp hv).trans
    (Writing.run_fallback (writing_writeLatched hr p v rest) hnone 3)
  rw [hlevel] at hrun
  refine ⟨_, hrun.runTurns, ?_, ?_, ?_, fun q hq => ?_⟩
  · simp [withSched, atDone, selected, writeLatched, hr.1, gpioWrite, record]
  · exact setLevel_outputs _ _ _
  · exact (levelOf_gpioWrite ..).trans (if_pos rfl)
  · exact (levelOf_gpioWrite ..).trans (if_neg hq)

end Sys2Proof.Machine
end

section
/-! SUPPORT. A whole `WRITE` of the value 0: the scan, the channel it frees, the timer torn down with its last channel
(41_pwm_alloc R132, 42_timer_arbiter R162). -/

namespace Sys2Proof.Machine

/-! ### What the free path does to a channel -/

/-- F2, F3: slot `m` is freed and its channel is taken off the count. -/
def channelFreed (m : Nat) (s : State) : State := countDown (slotTimer s.params m) (freeSlot m s)

/-- TP0 to TP3: `TSTOP(t)`. -/
def timerTornDown (t : TimerId) (s : State) : State :=
  timerClear t (stopTimer t (nvicClearPending t (nvicDisable t s)))

/-- F2 to F5: the channel of slot `m` is freed, and its timer torn down where no channel is left. -/
def released (m : Nat) (s : State) : State :=
  if (lookup (channelFreed m s).arb (slotTimer s.params m)).count = 0#4 then
    timerTornDown (slotTimer s.params m) (channelFreed m s)
  else channelFreed m s

@[simp] theorem channelFreed_keeps (m : Nat) (s : State) :
    (channelFreed m s).params = s.params ∧ (channelFreed m s).cfg = s.cfg ∧ (channelFreed m s).seq = s.seq ∧
    (channelFreed m s).irq = s.irq ∧ (channelFreed m s).gpio = s.gpio ∧ (channelFreed m s).adc = s.adc ∧
    (channelFreed m s).host = s.host ∧ (channelFreed m s).resp = s.resp ∧
    (channelFreed m s).slots = (freeSlot m s).slots := by
  simp [channelFreed]

@[simp] theorem timerTornDown_keeps (t : TimerId) (s : State) :
    (timerTornDown t s).params = s.params ∧ (timerTornDown t s).slots = s.slots ∧
    (timerTornDown t s).cfg = s.cfg ∧ (timerTornDown t s).seq = s.seq ∧ (timerTornDown t s).irq = s.irq ∧
    (timerTornDown t s).gpio = s.gpio ∧ (timerTornDown t s).adc = s.adc ∧ (timerTornDown t s).host = s.host ∧
    (timerTornDown t s).resp = s.resp := by
  simp [timerTornDown]

theorem released_keeps (m : Nat) (s : State) :
    (released m s).params = s.params ∧ (released m s).cfg = s.cfg ∧ (released m s).seq = s.seq ∧
    (released m s).irq = s.irq ∧ (released m s).gpio = s.gpio ∧ (released m s).adc = s.adc ∧
    (released m s).host = s.host ∧ (released m s).resp = s.resp ∧
    (released m s).slots = (freeSlot m s).slots := by
  unfold released
  split <;> simp

theorem released_otherTimer (m : Nat) (s : State) {t : TimerId} (ht : slotTimer s.params m ≠ t) :
    lookup (released m s).arb t = lookup s.arb t ∧ lookup (released m s).nvic t = lookup s.nvic t ∧
    lookup (released m s).timers t = lookup s.timers t := by
  unfold released
  split <;> simp [timerTornDown, channelFreed, ht]

theorem released_comps (m : Nat) (s : State) (t : TimerId) :
    (lookup (released m s).timers t).comps = (lookup s.timers t).comps := by
  unfold released
  split
  · simp only [timerTornDown, channelFreed, timerClear_changes, stopTimer_changes, lookup_update]
    split <;> simp_all
  · rfl

theorem released_count (m : Nat) (s : State) :
    (lookup (released m s).arb (slotTimer s.params m)).count = (lookup s.arb (slotTimer s.params m)).count - 1#4 := by
  unfold released
  split <;> simp [timerTornDown, channelFreed]

/-- The last channel: the timer and its line are stopped, and the counter is cleared (42_timer_arbiter R162). -/
theorem released_last {m : Nat} {s : State} {t : TimerId} (ht : slotTimer s.params m = t)
    (hlast : (lookup (released m s).arb t).count = 0#4) :
    (lookup (released m s).arb t).run = false ∧ (lookup (released m s).timers t).run = false ∧
    (lookup (released m s).timers t).cnt = 0#16 ∧ (lookup (released m s).nvic t).en = false := by
  subst ht
  rw [released_count] at hlast
  have hcount : (lookup (channelFreed m s).arb (slotTimer s.params m)).count = 0#4 := by
    simpa [channelFreed] using hlast
  rw [released, if_pos hcount]
  simp [timerTornDown]

/-- Not the last channel: the timer goes on. -/
theorem released_notLast {m : Nat} {s : State} {t : TimerId} (ht : slotTimer s.params m = t)
    (hmore : (lookup (released m s).arb t).count ≠ 0#4) :
    (lookup (released m s).arb t).run = (lookup s.arb t).run ∧
    lookup (released m s).timers t = lookup s.timers t ∧ lookup (released m s).nvic t = lookup s.nvic t := by
  subst ht
  rw [released_count] at hmore
  have hcount : (lookup (channelFreed m s).arb (slotTimer s.params m)).count ≠ 0#4 := by
    simpa [channelFreed] using hmore
  rw [released, if_neg hcount]
  simp [channelFreed]

/-! ### The run -/

/-- From the port to the scan. -/
theorem run_toScan {s : State} {p : Word} {rest : List CommandWord} (hr : Ready s)
    (hh : s.host = encode (.write p 0#32) :: rest) (hp : pinMap s.params p ≠ none) :
    ForegroundRun 4 s (atStep 4 .f1 (setScan 0 (writeLatched p 0#32 rest s))) := by
  have hw := writing_writeLatched hr p 0#32 rest
  have hbranch : ForegroundRun 1 (atStep 2 .w1 (writeLatched p 0#32 rest s))
      (atStep 3 .f0 (writeLatched p 0#32 rest s)) :=
    hw.run fun _ => writeStep_w1_zero rfl
  exact ((run_entry hr hh hp).trans hbranch).trans (hw.run fun _ => rfl)

/-- The scan passes over `k` slots not bound to the pin. -/
theorem Writing.run_scan {s : State} (h : Writing s) (k : Nat) {m : Nat} (n : Nat) (hk : m + k ≤ s.params.nSlots)
    (hne : ∀ j, m ≤ j → j < m + k → (slotAt s j).pin ≠ s.seq.fgA) :
    ForegroundRun k (atStep n .f1 (setScan m s)) (atStep (n + k) .f1 (setScan (m + k) s)) := by
  induction k with
  | zero => exact fun _ => rfl
  | succ k ih =>
    have hpassed : ForegroundRun 1 (atStep (n + k) .f1 (setScan (m + k) s))
        (atStep (n + k + 1) .f1 (setScan (m + k + 1) s)) :=
      Writing.run (s := setScan (m + k) s) h fun _ =>
        writeStep_f1_passed (by exact hk) (hne (m + k) (by omega) (by omega))
    exact (ih (by omega) (fun j hj hlt => hne j hj (by omega))).trans hpassed

/-! `TSTOP` -/

/-- A `WRITE` is under way that frees slot `m` of timer `t`. -/
abbrev Freeing (m : Nat) (t : TimerId) (s : State) : Prop := Writing s ∧ slotTimer s.params m = t

section
variable {s : State} {m n : Nat} {t : TimerId}

theorem Freeing.run_tp0 (h : Freeing m t s) : ForegroundRun 1 (atStep n .tp0 (setScan m s))
    (atStep (n + 1) .tp1 (setScan m (nvicDisable t s))) := by
  obtain ⟨hw, rfl⟩ := h
  exact Writing.run (s := setScan m s) hw fun _ => rfl

theorem Freeing.run_tp1 (h : Freeing m t s) : ForegroundRun 1 (atStep n .tp1 (setScan m s))
    (atStep (n + 1) .tp2 (setScan m (nvicClearPending t s))) := by
  obtain ⟨hw, rfl⟩ := h
  exact Writing.run (s := setScan m s) hw fun _ => rfl

theorem Freeing.run_tp2 (h : Freeing m t s) : ForegroundRun 1 (atStep n .tp2 (setScan m s))
    (atStep (n + 1) .tp3 (setScan m (stopTimer t s))) := by
  obtain ⟨hw, rfl⟩ := h
  exact Writing.run (s := setScan m s) hw fun _ => rfl

theorem Freeing.run_tp3 (h : Freeing m t s) : ForegroundRun 1 (atStep n .tp3 (setScan m s))
    (atStep (n + 1) .f5 (setScan m (timerClear t s))) := by
  obtain ⟨hw, rfl⟩ := h
  exact Writing.run (s := setScan m s) hw fun _ => rfl

theorem Freeing.run_tearDown (h : Freeing m t s) :
    ForegroundRun 4 (atStep n .tp0 (setScan m s)) (atStep (n + 4) .f5 (setScan m (timerTornDown t s))) := by
  have h1 : Freeing m t (nvicDisable t s) := h
  have h2 : Freeing m t (nvicClearPending t (nvicDisable t s)) := h1
  have h3 : Freeing m t (stopTimer t (nvicClearPending t (nvicDisable t s))) := h2
  exact ((h.run_tp0.trans h1.run_tp1).trans h2.run_tp2).trans h3.run_tp3

end

/-- F1 to F5 on a slot bound to the pin. -/
theorem Writing.run_release {s : State} (h : Writing s) (n : Nat) {m : Nat} (hm : m < s.params.nSlots)
    (hp : (slotAt s m).pin = s.seq.fgA) :
    ∃ k ≤ 9, ForegroundRun k (atStep n .f1 (setScan m s)) (atStep (n + k) .f1 (setScan (m + 1) (released m s))) := by
  have hfound : ForegroundRun 1 (atStep n .f1 (setScan m s)) (atStep (n + 1) .f2 (setScan m s)) :=
    Writing.run (s := setScan m s) h fun _ => writeStep_f1_found hm hp
  have hfree : ForegroundRun 1 (atStep (n + 1) .f2 (setScan m s)) (atStep (n + 2) .f3 (setScan m (freeSlot m s))) :=
    Writing.run (s := setScan m s) h fun _ => rfl
  have hcount : ForegroundRun 1 (atStep (n + 2) .f3 (setScan m (freeSlot m s)))
      (atStep (n + 3) .f4 (setScan m (channelFreed m s))) :=
    Writing.run (s := setScan m (freeSlot m s)) h fun _ => rfl
  have hfreed := (hfound.trans hfree).trans hcount
  have hnext {s : State} (h : Writing s) (n : Nat) :
      ForegroundRun 1 (atStep n .f5 (setScan m s)) (atStep (n + 1) .f1 (setScan (m + 1) s)) :=
    Writing.run (s := setScan m s) h fun _ => rfl
  have hw : Writing (channelFreed m s) := by simpa only [Writing, channelFreed_keeps] using h
  unfold released
  split
  case isTrue hlast =>
    have hfreeing : Freeing m (slotTimer s.params m) (channelFreed m s) := ⟨hw, by simp⟩
    have hw' : Writing (timerTornDown (slotTimer s.params m) (channelFreed m s)) := by
      simpa only [Writing, timerTornDown_keeps] using hw
    have htear : ForegroundRun 1 (atStep (n + 3) .f4 (setScan m (channelFreed m s)))
        (atStep (n + 4) .tp0 (setScan m (channelFreed m s))) :=
      Writing.run (s := setScan m (channelFreed m s)) hw fun _ => writeStep_f4_last hlast
    exact ⟨9, by omega, ((hfreed.trans htear).trans hfreeing.run_tearDown).trans
      (hnext hw' (n + 8))⟩
  case isFalse hmore =>
    have hkeep : ForegroundRun 1 (atStep (n + 3) .f4 (setScan m (channelFreed m s)))
        (atStep (n + 4) .f5 (setScan m (channelFreed m s))) :=
      Writing.run (s := setScan m (channelFreed m s)) hw fun _ => writeStep_f4_notLast hmore
    exact ⟨5, by omega, (hfreed.trans hkeep).trans (hnext hw (n + 4))⟩

/-- The end of the scan: the pin is driven LOW, and the command ends. -/
theorem Writing.run_scanEnd {s : State} (h : Writing s) (n : Nat) :
    ForegroundRun 3 (atStep n .f1 (setScan s.params.nSlots s))
      (atDone (n + 3) (gpioWrite s.seq.fgA .low (setScan s.params.nSlots s))) := by
  have hw : Writing (setScan s.params.nSlots s) := h
  have hend : ForegroundRun 1 (atStep n .f1 (setScan s.params.nSlots s))
      (atStep (n + 1) .f6 (setScan s.params.nSlots s)) :=
    hw.run fun _ => writeStep_f1_end rfl
  have hlow : ForegroundRun 1 (atStep (n + 1) .f6 (setScan s.params.nSlots s))
      (atStep (n + 2) .w9 (gpioWrite s.seq.fgA .low (setScan s.params.nSlots s))) :=
    hw.run fun _ => rfl
  exact (hend.trans hlow).trans 
    (Writing.run_w9 (s := gpioWrite s.seq.fgA .low (setScan s.params.nSlots s)) h (n + 2))

/-- The whole command where no slot is bound to the pin: the scan finds nothing. -/
theorem run_free_unbound {s : State} {p : Word} {rest : List CommandWord} (hr : Ready s)
    (hh : s.host = encode (.write p 0#32) :: rest) (hp : pinMap s.params p ≠ none)
    (hnone : ∀ j, (slotAt s j).pin ≠ p) :
    ForegroundRun (s.params.nSlots + 7) s
      (atDone (s.params.nSlots + 7) (gpioWrite p .low (setScan s.params.nSlots (writeLatched p 0#32 rest s)))) := by
  have hw := writing_writeLatched hr p 0#32 rest
  have hscan := hw.run_scan s.params.nSlots (m := 0) 4 (Nat.zero_add _).le (fun j _ _ => hnone j)
  rw [Nat.zero_add] at hscan
  have hrun := ((run_toScan hr hh hp).trans hscan).trans (hw.run_scanEnd _)
  have hn : 4 + s.params.nSlots + 3 = s.params.nSlots + 7 := by omega
  rwa [hn] at hrun

/-- The whole command where slot `i` alone is bound to the pin: the scan passes, frees it, and passes again. -/
theorem run_free_bound {s : State} {p : Word} {rest : List CommandWord} {i : Nat} (hr : Ready s)
    (hh : s.host = encode (.write p 0#32) :: rest) (hp : pinMap s.params p ≠ none) (hi : i < s.params.nSlots)
    (hpin : (slotAt s i).pin = p) (hother : ∀ j, j ≠ i → (slotAt s j).pin ≠ p) :
    ∃ n ≤ s.params.nSlots + 15, ForegroundRun n s
      (atDone n (gpioWrite p .low (setScan s.params.nSlots (released i (writeLatched p 0#32 rest s))))) := by
  have hw := writing_writeLatched hr p 0#32 rest
  have hbefore := hw.run_scan i (m := 0) 4 (by rw [Nat.zero_add]; exact hi.le) (fun j _ hj => hother j (by omega))
  rw [Nat.zero_add] at hbefore
  obtain ⟨k, hk, hrelease⟩ := hw.run_release (4 + i) hi hpin
  obtain ⟨hparams, -, hseq, hirq, -, -, -, -, hslots⟩ := released_keeps i (writeLatched p 0#32 rest s)
  generalize released i (writeLatched p 0#32 rest s) = d at *
  have hw' : Writing d := by rw [Writing, hseq, hirq]; exact hw
  have hN : d.params.nSlots = s.params.nSlots := by rw [hparams]; rfl
  have hafter := hw'.run_scan (s.params.nSlots - (i + 1)) (m := i + 1) (4 + i + k) (by omega) (fun j hj _ => by
    rw [slotAt_eq hslots, freeSlot, slotAt_setSlot_other _ _ (by omega), hseq]
    exact hother j (by omega))
  have hend := hw'.run_scanEnd (4 + i + k + (s.params.nSlots - (i + 1)))
  rw [show i + 1 + (s.params.nSlots - (i + 1)) = d.params.nSlots by omega] at hafter
  have hrun := ((((run_toScan hr hh hp).trans hbefore).trans hrelease).trans hafter).trans hend
  rw [hN, hseq] at hrun
  exact ⟨_, by omega, hrun⟩

/-! ### What the command leaves -/

/-- What freeing pin `p` makes of the slots, the timers and their rows and lines of `s` (41_pwm_alloc R132). -/
structure PinFreed (p : Word) (s d : State) : Prop where
  slots : ∀ i, slotAt d i = if (slotAt s i).pin = p then ⟨pinFree, (slotAt s i).duty, false⟩ else slotAt s i
  comps : ∀ u, (lookup d.timers u).comps = (lookup s.timers u).comps
  other : ∀ u, (∀ i, (slotAt s i).pin = p → slotTimer s.params i ≠ u) →
    lookup d.arb u = lookup s.arb u ∧ lookup d.nvic u = lookup s.nvic u ∧ lookup d.timers u = lookup s.timers u
  own : ∀ i, (slotAt s i).pin = p → ∀ u, slotTimer s.params i = u →
    (lookup d.arb u).count.toNat + 1 = (lookup s.arb u).count.toNat ∧
    (if (lookup d.arb u).count = 0#4 then
      (lookup d.arb u).run = false ∧ (lookup d.timers u).run = false ∧ (lookup d.timers u).cnt = 0#16 ∧
      (lookup d.nvic u).en = false
    else (lookup d.arb u).run = true ∧ lookup d.timers u = lookup s.timers u ∧ lookup d.nvic u = lookup s.nvic u)

theorem pinFreed_unbound {p : Word} {s : State} (h : ∀ i, (slotAt s i).pin ≠ p) : PinFreed p s s where
  slots i := (if_neg (h i)).symm
  comps _ := rfl
  other _ _ := ⟨rfl, rfl, rfl⟩
  own i hi := absurd hi (h i)

theorem toNat_sub_one {c : BitVec 4} (h : 0 < c.toNat) : (c - 1#4).toNat + 1 = c.toNat := by
  bv_omega

theorem pinFreed_released {p : Word} {s : State} {i : Nat} (hi : i < s.slots.length) (hpin : (slotAt s i).pin = p)
    (hother : ∀ j, j ≠ i → (slotAt s j).pin ≠ p)
    (hcount : 0 < (lookup s.arb (slotTimer s.params i)).count.toNat)
    (hrun : (lookup s.arb (slotTimer s.params i)).run = true) : PinFreed p s (released i s) where
  slots j := by
    obtain ⟨-, -, -, -, -, -, -, -, hslots⟩ := released_keeps i s
    rw [slotAt_eq hslots, freeSlot]
    by_cases hj : j = i
    · subst hj
      rw [slotAt_setSlot_self _ hi, if_pos hpin]
    · rw [slotAt_setSlot_other _ _ (Ne.symm hj), if_neg (hother j hj)]
  comps u := released_comps i s u
  other u hu := released_otherTimer i s (hu i hpin)
  own j hj u hu := by
    obtain rfl : j = i := by
      by_contra hne
      exact hother j hne hj
    subst hu
    refine ⟨by rw [released_count, toNat_sub_one hcount], ?_⟩
    split
    case isTrue hlast => exact released_last rfl hlast
    case isFalse hmore => exact hrun ▸ released_notLast rfl hmore

/-- At a boundary, the timer of a bound slot has a counted channel and runs (10_state R26, R29). -/
theorem bound_counted {s : State} (u : Inv s) (hb : AtBoundary s) {i : Nat} (hi : (slotAt s i).bound = true) :
    0 < (lookup s.arb (slotTimer s.params i)).count.toNat ∧ (lookup s.arb (slotTimer s.params i)).run = true := by
  obtain ⟨-, htimers, -⟩ := boundaryProperties s u hb
  obtain ⟨hcount, -, hrun, -⟩ := htimers (slotTimer s.params i)
  have ⟨⟨hwf, hlen, _⟩, _⟩ := u
  have hpos : 0 < (lookup s.arb (slotTimer s.params i)).count.toNat := hcount ▸ boundCount_pos (nCu_pos hwf) hlen hi
  exact ⟨hpos, hrun.mpr hpos⟩

/-- The run of `write(p, 0)`, and what it makes of the slots and the timers. -/
theorem run_writeZero {s : State} {p : Word} {rest : List CommandWord} (u : Inv s) (hr : Ready s)
    (hh : s.host = encode (.write p 0#32) :: rest) (hp : pinMap s.params p ≠ none) :
    ∃ n ≤ 23, ∃ d, ForegroundRun n s (atDone n (gpioWrite p .low (setScan s.params.nSlots d))) ∧
      PinFreed p (writeLatched p 0#32 rest s) d ∧ d.host = rest ∧ d.cfg = s.cfg ∧ d.adc = s.adc ∧ d.irq = s.irq ∧
      d.resp = s.resp ∧ d.gpio = s.gpio := by
  have ⟨⟨hwf, hlen, _⟩, _⟩ := u
  have hN : s.params.nSlots ≤ 8 := by
    have := nCu_le_four hwf
    unfold Params.nSlots
    omega
  have hfree : p ≠ pinFree := valid_ne_pinFree hwf (Option.isSome_iff_ne_none.mpr hp)
  by_cases hex : ∃ i, (slotAt s i).pin = p
  · obtain ⟨i, hi⟩ := hex
    have hbound : (slotAt s i).bound = true := bound_iff.mpr (hi ▸ hfree)
    have hlt := bound_lt hbound
    have hother (j : Nat) (hj : j ≠ i) : (slotAt s j).pin ≠ p := fun h =>
      hj ((boundaryProperties s u hr.1).1 j i (bound_iff.mpr (h ▸ hfree)) hbound (h.trans hi.symm))
    obtain ⟨hcount, hrun⟩ := bound_counted u hr.1 hbound
    obtain ⟨n, hn, hforeground⟩ := run_free_bound hr hh hp (hlen ▸ hlt) hi hother
    obtain ⟨-, hcfg, -, hirq, hgpio, hadc, hhost, hresp, -⟩ := released_keeps i (writeLatched p 0#32 rest s)
    exact ⟨n, by omega, _, hforeground,
      pinFreed_released (s := writeLatched p 0#32 rest s) hlt hi hother hcount hrun, hhost, hcfg, hadc, hirq,
      hresp, hgpio⟩
  · have hnone : ∀ i, (slotAt s i).pin ≠ p := fun i h => hex ⟨i, h⟩
    exact ⟨_, by omega, _, run_free_unbound hr hh hp hnone,
      pinFreed_unbound (s := writeLatched p 0#32 rest s) hnone, rfl, rfl, rfl, rfl, rfl, rfl⟩

/-- Settles O29: the run of `run_writeZero` drives the pin LOW at F6, and does to the slots and the timers what
`PinFreed` says. -/
theorem writeZeroFrees : Obligations.WriteZeroFrees := by
  intro s p rest u hr hh hp
  obtain ⟨n, hn, d, hrun, ⟨hslots, hcomps, hother, hown⟩, hhost, hcfg, hadc, hirq, hresp, hgpio⟩ :=
    run_writeZero u hr hh hp
  have hidle : d.irq.active = none := by rw [hirq, hr.2]
  have hdone : (⟨d.resp.resp, true, false⟩ : Response) = ⟨s.resp.resp, true, false⟩ := by rw [hresp]
  have houtputs : (setLevel d.gpio p .low).outputs = s.gpio.outputs := by rw [setLevel_outputs, hgpio]
  have hcompAt (t : TimerId) (k : Nat) : compAt (lookup d.timers t) k = compAt (lookup s.timers t) k := by
    rw [compAt, hcomps t]
    rfl
  have hlow (q : Word) : levelOf (gpioWrite p .low d) q = if q = p then .low else levelOf s q := by
    rw [levelOf_gpioWrite, levelOf_eq hgpio]
  exact ⟨n, hn, _, hrun.runTurns, ⟨rfl, hidle⟩, hdone, hhost, hcfg, hadc, hslots, (hlow p).trans (if_pos rfl),
    fun q hq => (hlow q).trans (if_neg hq), houtputs, hcompAt, hother, hown⟩

end Sys2Proof.Machine
end

section
/-! SUPPORT. A whole `WRITE` that binds a slot: the search, the stores to the slot, the timer started on its first
channel, the compare unit (41_pwm_alloc R133, R135, R136, 42_timer_arbiter R161). -/

namespace Sys2Proof.Machine

/-! ### What the allocation path does, step by step -/

/-- A1: the operand in counter units is kept in `DTMP`. -/
def dutyComputed (s : State) : State :=
  { s with seq := { s.seq with dtmp := mapResolution s.seq.fgB s.cfg.writeRes (widthWord s.cfg.bitWidth) } }

/-- A2 and A3 in either order: slot `i` holds the duty and the pin. -/
def slotStored (i : Nat) (s : State) : State := bindSlot i s.seq.fgA (setDuty i s.seq.dtmp s)

/-- TS0. -/
def modeSet (t : TimerId) (s : State) : State := timerMode t s.params.timerMode s

/-- TS1. -/
def prescalerSet (t : TimerId) (s : State) : State := timerPrescaler t s.params.pwmPrescaler s

/-- TS2. -/
def widthSet (t : TimerId) (s : State) : State := timerBitMode t s.cfg.bitWidth s

/-- TS6. -/
def prioritySet (t : TimerId) (s : State) : State := nvicSetPriority t s.params.pwmIrqPriority s

/-- TS0 to TS4: timer `t` is set up and its cycle-start event armed. -/
def timerArmed (t : TimerId) (s : State) : State :=
  timerIntenSet t 0 (timerCc t 0 0#32 (widthSet t (prescalerSet t (modeSet t s))))

/-- TS0 to TS7: `TSTART(t)`. -/
def timerStarted (t : TimerId) (s : State) : State := nvicEnable t (prioritySet t (startTimer t (timerArmed t s)))

/-- A4, with `TSTART(t)` where `t` has no channel yet. -/
def timerLaunched (t : TimerId) (s : State) : State :=
  if (lookup s.arb t).count = 0#4 then timerStarted t s else s

/-- A5: comparator `k` of timer `t` holds `DTMP`. -/
def compareSet (t : TimerId) (k : Nat) (s : State) : State := timerCc t k s.seq.dtmp s

/-- A7: the channel is counted where it is new. -/
def channelCounted (t : TimerId) (s : State) : State := if s.seq.newBind then countUp t s else s

/-- A0 to A7 on slot `i` with event `k` of timer `t`. -/
def allocated (i : Nat) (t : TimerId) (k : Nat) (s : State) : State :=
  channelCounted t (timerIntenSet t k (compareSet t k
    (timerLaunched t (slotStored i (dutyComputed (gpioModeOutput s.seq.fgA s))))))

@[simp] theorem timerArmed_keeps (t : TimerId) (s : State) :
    (timerArmed t s).params = s.params ∧ (timerArmed t s).slots = s.slots ∧ (timerArmed t s).arb = s.arb ∧
    (timerArmed t s).cfg = s.cfg ∧ (timerArmed t s).seq = s.seq ∧ (timerArmed t s).irq = s.irq ∧
    (timerArmed t s).resp = s.resp ∧ (timerArmed t s).nvic = s.nvic ∧ (timerArmed t s).gpio = s.gpio ∧
    (timerArmed t s).adc = s.adc ∧ (timerArmed t s).host = s.host := by
  simp [timerArmed, modeSet, prescalerSet, widthSet]

@[simp] theorem timerStarted_keeps (t : TimerId) (s : State) :
    (timerStarted t s).params = s.params ∧ (timerStarted t s).slots = s.slots ∧ (timerStarted t s).cfg = s.cfg ∧
    (timerStarted t s).seq = s.seq ∧ (timerStarted t s).irq = s.irq ∧ (timerStarted t s).resp = s.resp ∧
    (timerStarted t s).gpio = s.gpio ∧ (timerStarted t s).adc = s.adc ∧ (timerStarted t s).host = s.host := by
  simp [timerStarted, prioritySet]

@[simp] theorem timerLaunched_keeps (t : TimerId) (s : State) :
    (timerLaunched t s).params = s.params ∧ (timerLaunched t s).slots = s.slots ∧
    (timerLaunched t s).cfg = s.cfg ∧ (timerLaunched t s).seq = s.seq ∧ (timerLaunched t s).irq = s.irq ∧
    (timerLaunched t s).resp = s.resp ∧ (timerLaunched t s).gpio = s.gpio ∧ (timerLaunched t s).adc = s.adc ∧
    (timerLaunched t s).host = s.host := by
  unfold timerLaunched
  split <;> simp

@[simp] theorem channelCounted_keeps (t : TimerId) (s : State) :
    (channelCounted t s).params = s.params ∧ (channelCounted t s).slots = s.slots ∧
    (channelCounted t s).cfg = s.cfg ∧ (channelCounted t s).seq = s.seq ∧ (channelCounted t s).irq = s.irq ∧
    (channelCounted t s).resp = s.resp ∧ (channelCounted t s).timers = s.timers ∧
    (channelCounted t s).nvic = s.nvic ∧ (channelCounted t s).gpio = s.gpio ∧ (channelCounted t s).adc = s.adc ∧
    (channelCounted t s).host = s.host := by
  unfold channelCounted
  split <;> simp

/-- The stores of the pin and of the duty commute. -/
theorem setDuty_bindSlot (i : Nat) (p v : Word) (s : State) :
    setDuty i v (bindSlot i p s) = bindSlot i p (setDuty i v s) := by
  simp [setDuty, bindSlot, setSlot, List.modify_modify_eq, Function.comp_def]

/-! ### The run -/

/-- A `WRITE` is under way on slot `i` with event `k` of timer `t`. -/
abbrev Allocating (i : Nat) (t : TimerId) (k : Nat) (s : State) : Prop :=
  Writing s ∧ s.seq.sel = some i ∧ slotTimer s.params i = t ∧ slotEvent s.params i = k

section
variable {s s' : State} {i k n : Nat} {t : TimerId}

/-- A turn of the foreground sequencer takes the step of `allocStep`. -/
theorem Allocating.run {l : WriteStep} (h : Allocating i t k s) (hl : onAllocPath l = true)
    (e : ∀ ts, allocStep i l (withSched ts (atStep (n + 1) l s)) = .next (withSched ts s')) :
    ForegroundRun 1 (atStep n l s) s' := by
  obtain ⟨hw, hi, -⟩ := h
  exact hw.run fun ts => (writeStep_onAllocPath (s := withSched ts (atStep (n + 1) l s)) hl hi).trans (e ts)

theorem Allocating.run_a2 (h : Allocating i t k s) {l : WriteStep} (hl : afterA2 s = l) :
    ForegroundRun 1 (atStep n .a2 s) (atStep (n + 1) l (setDuty i s.seq.dtmp s)) := by
  subst hl
  exact h.run rfl fun _ => rfl

theorem Allocating.run_a3 (h : Allocating i t k s) {l : WriteStep} (hl : afterA3 s = l) :
    ForegroundRun 1 (atStep n .a3 s) (atStep (n + 1) l (bindSlot i s.seq.fgA s)) := by
  subst hl
  exact h.run rfl fun _ => rfl

/-- A2 and A3 in the order of `BIND_ORDER`. -/
theorem Allocating.run_store (h : Allocating i t k s) :
    ForegroundRun 2 (atStep n (afterA1 s) s) (atStep (n + 2) .a4 (slotStored i s)) := by
  cases horder : s.params.bindOrder with
  | dutyFirst =>
    have hduty : Allocating i t k (setDuty i s.seq.dtmp s) := h
    rw [afterA1_eq, if_pos horder]
    exact (h.run_a2 (l := .a3) (by simp [afterA2_eq, horder])).trans
      (hduty.run_a3 (l := .a4) (by simp [afterA3_eq, horder]))
  | bindFirst =>
    have hpin : Allocating i t k (bindSlot i s.seq.fgA s) := h
    rw [afterA1_eq, if_neg (by simp [horder]), slotStored, ← setDuty_bindSlot]
    exact (h.run_a3 (l := .a2) (by simp [afterA3_eq, horder])).trans
      (hpin.run_a2 (l := .a4) (by simp [afterA2_eq, horder]))

/-! `TSTART` -/

theorem Allocating.run_ts0 (h : Allocating i t k s) :
    ForegroundRun 1 (atStep n .ts0 s) (atStep (n + 1) .ts1 (modeSet t s)) := by
  obtain ⟨hw, hi, rfl, hk⟩ := h
  exact Allocating.run ⟨hw, hi, rfl, hk⟩ rfl fun _ => rfl

theorem Allocating.run_ts1 (h : Allocating i t k s) :
    ForegroundRun 1 (atStep n .ts1 s) (atStep (n + 1) .ts2 (prescalerSet t s)) := by
  obtain ⟨hw, hi, rfl, hk⟩ := h
  exact Allocating.run ⟨hw, hi, rfl, hk⟩ rfl fun _ => rfl

theorem Allocating.run_ts2 (h : Allocating i t k s) :
    ForegroundRun 1 (atStep n .ts2 s) (atStep (n + 1) .ts3 (widthSet t s)) := by
  obtain ⟨hw, hi, rfl, hk⟩ := h
  exact Allocating.run ⟨hw, hi, rfl, hk⟩ rfl fun _ => rfl

theorem Allocating.run_ts3 (h : Allocating i t k s) :
    ForegroundRun 1 (atStep n .ts3 s) (atStep (n + 1) .ts4 (timerCc t 0 0#32 s)) := by
  obtain ⟨hw, hi, rfl, hk⟩ := h
  exact Allocating.run ⟨hw, hi, rfl, hk⟩ rfl fun _ => rfl

theorem Allocating.run_ts4 (h : Allocating i t k s) :
    ForegroundRun 1 (atStep n .ts4 s) (atStep (n + 1) .ts5 (timerIntenSet t 0 s)) := by
  obtain ⟨hw, hi, rfl, hk⟩ := h
  exact Allocating.run ⟨hw, hi, rfl, hk⟩ rfl fun _ => rfl

theorem Allocating.run_ts5 (h : Allocating i t k s) :
    ForegroundRun 1 (atStep n .ts5 s) (atStep (n + 1) .ts6 (startTimer t s)) := by
  obtain ⟨hw, hi, rfl, hk⟩ := h
  exact Allocating.run ⟨hw, hi, rfl, hk⟩ rfl fun _ => rfl

theorem Allocating.run_ts6 (h : Allocating i t k s) :
    ForegroundRun 1 (atStep n .ts6 s) (atStep (n + 1) .ts7 (prioritySet t s)) := by
  obtain ⟨hw, hi, rfl, hk⟩ := h
  exact Allocating.run ⟨hw, hi, rfl, hk⟩ rfl fun _ => rfl

theorem Allocating.run_ts7 (h : Allocating i t k s) :
    ForegroundRun 1 (atStep n .ts7 s) (atStep (n + 1) .a5 (nvicEnable t s)) := by
  obtain ⟨hw, hi, rfl, hk⟩ := h
  exact Allocating.run ⟨hw, hi, rfl, hk⟩ rfl fun _ => rfl

theorem Allocating.run_arm (h : Allocating i t k s) :
    ForegroundRun 5 (atStep n .ts0 s) (atStep (n + 5) .ts5 (timerArmed t s)) := by
  have h1 : Allocating i t k (modeSet t s) := h
  have h2 : Allocating i t k (prescalerSet t (modeSet t s)) := h1
  have h3 : Allocating i t k (widthSet t (prescalerSet t (modeSet t s))) := h2
  have h4 : Allocating i t k (timerCc t 0 0#32 (widthSet t (prescalerSet t (modeSet t s)))) := h3
  exact (((h.run_ts0.trans h1.run_ts1).trans h2.run_ts2).trans h3.run_ts3).trans h4.run_ts4

theorem Allocating.run_start (h : Allocating i t k s) :
    ForegroundRun 8 (atStep n .ts0 s) (atStep (n + 8) .a5 (timerStarted t s)) := by
  have h5 : Allocating i t k (timerArmed t s) := by
    simpa only [Allocating, Writing, timerArmed_keeps] using h
  have h6 : Allocating i t k (startTimer t (timerArmed t s)) := h5
  have h7 : Allocating i t k (prioritySet t (startTimer t (timerArmed t s))) := h6
  exact ((h.run_arm.trans h5.run_ts5).trans h6.run_ts6).trans h7.run_ts7

/-- A4, with the start of the timer on its first channel. -/
theorem Allocating.run_launch (h : Allocating i t k s) :
    ∃ m ≤ 9, ForegroundRun m (atStep n .a4 s) (atStep (n + m) .a5 (timerLaunched t s)) := by
  have hbranch : ForegroundRun 1 (atStep n .a4 s)
      (atStep (n + 1) (if (lookup s.arb t).count = 0#4 then .ts0 else .a5) s) := by
    obtain ⟨hw, hi, rfl, hk⟩ := h
    exact Allocating.run ⟨hw, hi, rfl, hk⟩ rfl fun ts => congrArg Host.Outcome.next (stepA4_eq _ _)
  unfold timerLaunched
  split
  case isTrue hfirst =>
    rw [if_pos hfirst] at hbranch
    have hrun := hbranch.trans h.run_start
    rw [Nat.add_assoc] at hrun
    exact ⟨9, le_rfl, hrun⟩
  case isFalse hcounted =>
    rw [if_neg hcounted] at hbranch
    exact ⟨1, by omega, hbranch⟩

/-! The compare unit and the count -/

theorem Allocating.run_a5 (h : Allocating i t k s) :
    ForegroundRun 1 (atStep n .a5 s) (atStep (n + 1) .a6 (compareSet t k s)) := by
  obtain ⟨hw, hi, rfl, rfl⟩ := h
  exact Allocating.run ⟨hw, hi, rfl, rfl⟩ rfl fun _ => rfl

theorem Allocating.run_a6 (h : Allocating i t k s) :
    ForegroundRun 1 (atStep n .a6 s) (atStep (n + 1) .a7 (timerIntenSet t k s)) := by
  obtain ⟨hw, hi, rfl, rfl⟩ := h
  exact Allocating.run ⟨hw, hi, rfl, rfl⟩ rfl fun _ => rfl

theorem Allocating.run_a7 (h : Allocating i t k s) :
    ForegroundRun 1 (atStep n .a7 s) (atStep (n + 1) .w9 (channelCounted t s)) := by
  obtain ⟨hw, hi, rfl, hk⟩ := h
  refine Allocating.run ⟨hw, hi, rfl, hk⟩ rfl fun ts => congrArg Host.Outcome.next ?_
  rw [channelCounted, apply_ite (atStep _ _), apply_ite (withSched ts)]
  rfl

/-- A5 to A7 and W9. -/
theorem Allocating.run_program (h : Allocating i t k s) :
    ForegroundRun 4 (atStep n .a5 s)
      (atDone (n + 4) (channelCounted t (timerIntenSet t k (compareSet t k s)))) := by
  have h6 : Allocating i t k (compareSet t k s) := h
  have h7 : Allocating i t k (timerIntenSet t k (compareSet t k s)) := h6
  have h9 : Writing (channelCounted t (timerIntenSet t k (compareSet t k s))) := by simpa [Writing] using h7.1
  exact ((h.run_a5.trans h6.run_a6).trans h7.run_a7).trans (h9.run_w9 (n + 3))

/-- The allocation path, A0 to W9. -/
theorem Allocating.run_all (h : Allocating i t k s) :
    ∃ m ≤ 17, ForegroundRun m (atStep n .a0 s) (atDone (n + m) (allocated i t k s)) := by
  have h1 : Allocating i t k (gpioModeOutput s.seq.fgA s) := h
  have h2 : Allocating i t k (dutyComputed (gpioModeOutput s.seq.fgA s)) := h1
  have h4 : Allocating i t k (slotStored i (dutyComputed (gpioModeOutput s.seq.fgA s))) := h2
  have hcompute : ForegroundRun 2 (atStep n .a0 s)
      (atStep (n + 2) (afterA1 (dutyComputed (gpioModeOutput s.seq.fgA s)))
        (dutyComputed (gpioModeOutput s.seq.fgA s))) :=
    (h.run rfl fun _ => rfl).trans (h1.run rfl fun _ => rfl)
  have h5 : Allocating i t k (timerLaunched t (slotStored i (dutyComputed (gpioModeOutput s.seq.fgA s)))) := by
    simpa only [Allocating, Writing, timerLaunched_keeps] using h4
  obtain ⟨m, hm, hlaunch⟩ := h4.run_launch (n := n + 4)
  have hrun := ((hcompute.trans h2.run_store).trans hlaunch).trans h5.run_program
  have hn : n + 4 + m + 4 = n + (2 + 2 + m + 4) := by omega
  rw [hn] at hrun
  exact ⟨_, by omega, hrun⟩

end

/-- The whole command, where the search takes slot `i`. -/
theorem run_writeAllocates {s : State} {p v : Word} {i : Nat} {rest : List CommandWord} (hr : Ready s)
    (hh : s.host = encode (.write p v) :: rest) (hp : pinMap s.params p ≠ none) (hv : v ≠ 0#32)
    (hi : selectSlot s p = some i) :
    ∃ n ≤ 21, ForegroundRun n s (atDone n (allocated i (slotTimer s.params i) (slotEvent s.params i)
      (selected (some i) ((slotAt s i).pin == pinFree) (writeLatched p v rest s)))) := by
  have hw := writing_writeLatched hr p v rest
  have hsearch : ForegroundRun 1 (atStep 3 .s0 (writeLatched p v rest s))
      (atStep 4 .a0 (selected (some i) ((slotAt s i).pin == pinFree) (writeLatched p v rest s))) :=
    hw.run fun _ => writeStep_s0_some hi
  have hsel : Allocating i (slotTimer s.params i) (slotEvent s.params i)
      (selected (some i) ((slotAt s i).pin == pinFree) (writeLatched p v rest s)) := ⟨hw, rfl, rfl, rfl⟩
  obtain ⟨m, hm, hrun⟩ := hsel.run_all (n := 4)
  exact ⟨4 + m, by omega, ((run_toSearch hr hh hp hv).trans hsearch).trans hrun⟩

end Sys2Proof.Machine
end

section
/-! SUPPORT. What a `WRITE` that binds a slot leaves (41_pwm_alloc R137 (b)). -/

namespace Sys2Proof.Machine

/-! ### What the allocation path leaves -/

section
variable {i k : Nat} {t : TimerId} {s : State}

theorem timerStarted_otherTimer {t' : TimerId} (h : t ≠ t') :
    lookup (timerStarted t s).arb t' = lookup s.arb t' ∧
    lookup (timerStarted t s).timers t' = lookup s.timers t' ∧
    lookup (timerStarted t s).nvic t' = lookup s.nvic t' := by
  simp [timerStarted, prioritySet, timerArmed, widthSet, prescalerSet, modeSet, h]

theorem timerStarted_bitMode : (lookup (timerStarted t s).timers t).bitMode = s.cfg.bitWidth := by
  simp [timerStarted, prioritySet, timerArmed, widthSet, prescalerSet, modeSet]

theorem timerLaunched_otherTimer {t' : TimerId} (h : t ≠ t') :
    lookup (timerLaunched t s).arb t' = lookup s.arb t' ∧
    lookup (timerLaunched t s).timers t' = lookup s.timers t' ∧
    lookup (timerLaunched t s).nvic t' = lookup s.nvic t' := by
  unfold timerLaunched
  split
  · exact timerStarted_otherTimer h
  · exact ⟨rfl, rfl, rfl⟩

theorem timerLaunched_bitMode (h : (lookup s.arb t).count = 0#4) :
    (lookup (timerLaunched t s).timers t).bitMode = s.cfg.bitWidth := by
  rw [timerLaunched, if_pos h, timerStarted_bitMode]

theorem channelCounted_otherTimer {t' : TimerId} (h : t ≠ t') :
    lookup (channelCounted t s).arb t' = lookup s.arb t' := by
  unfold channelCounted
  split <;> simp [h]

end

/-- What binding slot `i` to pin `p` with duty `d` makes of `s` (41_pwm_alloc R135). What it makes of the slot's timer,
the width apart, is left to the invariant. -/
structure SlotAllocated (i : Nat) (p d : Word) (s a : State) : Prop where
  params : a.params = s.params
  cfg    : a.cfg = s.cfg
  irq    : a.irq = s.irq
  resp   : a.resp = s.resp
  adc    : a.adc = s.adc
  slots  : a.slots = (setSlot i (fun x => ⟨p, d, x.undef⟩) s).slots
  gpio   : a.gpio = (gpioModeOutput p s).gpio
  other  : ∀ t, t ≠ slotTimer s.params i → lookup a.arb t = lookup s.arb t ∧
    lookup a.timers t = lookup s.timers t ∧ lookup a.nvic t = lookup s.nvic t
  width  : (lookup s.arb (slotTimer s.params i)).count = 0#4 →
    (lookup a.timers (slotTimer s.params i)).bitMode = s.cfg.bitWidth

theorem slotAllocated_allocated (i k : Nat) (s : State) :
    SlotAllocated i s.seq.fgA (mapResolution s.seq.fgB s.cfg.writeRes (widthWord s.cfg.bitWidth)) s
      (allocated i (slotTimer s.params i) k s) where
  params := by simp [allocated, compareSet, slotStored, dutyComputed]
  cfg := by simp [allocated, compareSet, slotStored, dutyComputed]
  irq := by simp [allocated, compareSet, slotStored, dutyComputed]
  resp := by simp [allocated, compareSet, slotStored, dutyComputed]
  adc := by simp [allocated, compareSet, slotStored, dutyComputed]
  slots := by
    simp [allocated, compareSet, slotStored, dutyComputed, List.modify_modify_eq, Function.comp_def]
  gpio := by simp [allocated, compareSet, slotStored, dutyComputed]
  other t ht := by
    simp [allocated, compareSet, slotStored, dutyComputed, channelCounted_otherTimer ht.symm,
      timerLaunched_otherTimer ht.symm, ht.symm]
  width h := by
    have hlaunched : (lookup (timerLaunched (slotTimer s.params i) (slotStored i (dutyComputed
        (gpioModeOutput s.seq.fgA s)))).timers (slotTimer s.params i)).bitMode = s.cfg.bitWidth :=
      timerLaunched_bitMode h
    simpa [allocated, compareSet] using hlaunched

/-- The run of `write(p, v)` on slot `i`, and what it makes of the machine. -/
theorem run_writeBinds {s : State} {p v : Word} {i : Nat} {rest : List CommandWord} (hr : Ready s)
    (hh : s.host = encode (.write p v) :: rest) (hp : pinMap s.params p ≠ none) (hv : v ≠ 0#32)
    (hi : selectSlot s p = some i) :
    ∃ n ≤ 21, ∃ a, ForegroundRun n s (atDone n a) ∧ a.host = rest ∧
      SlotAllocated i p (mapResolution v s.cfg.writeRes (widthWord s.cfg.bitWidth)) s a := by
  obtain ⟨n, hn, hrun⟩ := run_writeAllocates hr hh hp hv hi
  obtain ⟨hparams, hcfg, hirq, hresp, hadc, hslots, hgpio, hother, hwidth⟩ :=
    slotAllocated_allocated i (slotEvent s.params i)
      (selected (some i) ((slotAt s i).pin == pinFree) (writeLatched p v rest s))
  refine ⟨n, hn, _, hrun, ?_, hparams, hcfg, hirq, hresp, hadc, hslots, hgpio, hother, hwidth⟩
  simp [allocated, compareSet, slotStored, dutyComputed, selected, writeLatched]

/-- Binding or rewriting slot `i` raises the number of bound slots of its timer where the slot was free. -/
theorem boundCount_bind {s s' : State} {i : Nat} {f : Slot → Slot} (hs : ShapeLegal s) (hi : i < s.slots.length)
    (hparams : s'.params = s.params) (hslots : s'.slots = (setSlot i f s).slots)
    (hf : (f (slotAt s i)).bound = true) : boundCount s' (slotTimer s.params i) =
      boundCount s (slotTimer s.params i) + (if (slotAt s i).bound then 0 else 1) := by
  obtain ⟨hwf, hlen, -⟩ := hs
  have hset := boundCount_setSlot (nCu_pos hwf) hlen (hlen ▸ hi) f (slotTimer s.params i)
  rw [boundCount_eq (s := setSlot i f s) hslots hparams]
  simp only [true_and, hf, if_true] at hset
  split at hset <;> simp_all

/-- At a command boundary, a bound slot is programmed, and its timer and its line run, with the cycle start armed
(10_state R29, 41_pwm_alloc R137 (b), 42_timer_arbiter R164). -/
theorem bound_served {s : State} (u : Inv s) (hb : AtBoundary s) {i : Nat} (hi : (slotAt s i).bound = true) :
    compareProgrammed s i = true ∧ cycleStartArmed s (slotTimer s.params i) = true ∧
    (lookup s.arb (slotTimer s.params i)).run = true ∧ (lookup s.timers (slotTimer s.params i)).run = true ∧
    (lookup s.nvic (slotTimer s.params i)).en = true := by
  obtain ⟨-, hrun⟩ := bound_counted u hb hi
  obtain ⟨-, -, htrun, hen⟩ := (arbiterInv_of_inv u (slotTimer s.params i)).atBoundary hb
  obtain ⟨-, -, -, -, harmed⟩ := arbiterInv_of_inv u (slotTimer s.params i)
  exact ⟨compareProgrammed_atBoundary u hb hi, harmed hrun, hrun, htrun.trans hrun, hen.trans hrun⟩

/-- Settles O30: `run_writeBinds` gives the slot, the pin and the width; the rest is what the invariant says of the
bound slot at the command boundary the run reaches. -/
theorem writeAllocates : Obligations.WriteAllocates := by
  intro s p v i rest u hr hh hp hv hi t d
  have ⟨hshape, _⟩ := u
  have hfree : p ≠ pinFree := valid_ne_pinFree hshape.1 (Option.isSome_iff_ne_none.mpr hp)
  obtain ⟨hlt, -⟩ := selectSlot_some hi
  obtain ⟨n, hn, a, hrun, hhost, hparams, hcfg, hirq, hresp, hadc, hslots, hgpio, hother, hwidth⟩ :=
    run_writeBinds hr hh hp hv hi
  have u' : Inv (withSched [] (atDone n a)) := inv_runTurns u hrun.runTurns
  have hidle : a.irq.active = none := by rw [hirq, hr.2]
  have hdone : (⟨a.resp.resp, true, false⟩ : Response) = ⟨s.resp.resp, true, false⟩ := by rw [hresp]
  have hout (q : Word) : isOutput a q = (decide (q = p) || isOutput s q) := by
    rw [← isOutput_gpioModeOutput]
    exact isOutput_eq (by rw [hgpio]) q
  have hhigh : a.gpio.high = s.gpio.high := by rw [hgpio]; rfl
  have hslot : slotAt (withSched [] (atDone n a)) i = ⟨p, d, (slotAt s i).undef⟩ :=
    (slotAt_eq (s := setSlot i _ s) hslots i).trans (slotAt_setSlot_self _ hlt)
  have hslotOther (j : Nat) (hj : j ≠ i) : slotAt (withSched [] (atDone n a)) j = slotAt s j :=
    (slotAt_eq (s := setSlot i _ s) hslots j).trans (slotAt_setSlot_other _ s hj.symm)
  have hbound : (slotAt (withSched [] (atDone n a)) i).bound = true := bound_iff.mpr (by rw [hslot]; exact hfree)
  obtain ⟨hprogrammed, harmed, harb, htrun, hen⟩ := bound_served u' rfl hbound
  obtain ⟨hcc, hinten⟩ := compareProgrammed_iff.mp hprogrammed
  have hcount := boundCount_bind (s' := withSched [] (atDone n a)) hshape hlt hparams hslots (bound_iff.mpr hfree)
  rw [← ((arbiterInv_of_inv u t).atBoundary hr.1).1, ← ((arbiterInv_of_inv u' t).atBoundary rfl).1] at hcount
  have hparams' : (withSched [] (atDone n a)).params = s.params := hparams
  rw [hparams'] at hcc hinten harmed harb htrun hen
  rw [hslot] at hcc
  exact ⟨n, hn, _, hrun.runTurns, ⟨rfl, hidle⟩, hdone, hhost, hcfg, hadc, hslot, hslotOther, hcc, hinten, harmed, harb,
    htrun, hen, hcount, hwidth, (hout p).trans (by simp), fun q hq => (hout q).trans (by simp [hq]), hhigh, hother⟩

end Sys2Proof.Machine
end

section
/-! SUPPORT. What the micro-steps of `TSTART` and `TSTOP` do to a timer, its row of the timer resource table and its
interrupt line (42_timer_arbiter R161, R162). -/

namespace Sys2Proof.Machine

@[simp] theorem update_lookup {α : Type} (x : PerTimer α) (t : TimerId) : update x t (lookup x t) = x := by
  cases t <;> rfl

/-- A store to comparator 0, written out. -/
theorem setComp_zero {r : TimerRegs} (h : 0 < r.comps.length) (f : Comparator → Comparator) :
    setComp 0 f r = { r with comps := f (compAt r 0) :: r.comps.tail } := by
  obtain ⟨_, _, _, _, _, comps⟩ := r
  cases comps with
  | nil => cases h
  | cons c cs => rfl

section
variable {s t : State} {u : TimerId} {r : TimerRegs} {n : NvicLine} {run : Bool}

/-- A store to the registers, the line and `RUN` of timer `u` reads back there and leaves the other timer. -/
theorem timerRow_store (hr : t.timers = update s.timers u r) (hn : t.nvic = update s.nvic u n)
    (ha : t.arb = update s.arb u { lookup s.arb u with run := run }) :
    lookup t.timers u = r ∧ lookup t.nvic u = n ∧ lookup t.arb u = ⟨(lookup s.arb u).count, run⟩ ∧
    ∀ v, v ≠ u → lookup t.timers v = lookup s.timers v ∧ lookup t.nvic v = lookup s.nvic v ∧
      lookup t.arb v = lookup s.arb v := by
  refine ⟨by simp [hr], by simp [hn], by simp [ha], fun v hv => ?_⟩
  simp [hr, hn, ha, hv.symm]

/-- `timerRow_store`, with the comparators read one by one. -/
theorem timerRow_store_comps (hr : t.timers = update s.timers u r) (hn : t.nvic = update s.nvic u n)
    (ha : t.arb = update s.arb u { lookup s.arb u with run := run }) :
    lookup t.timers u = { r with comps := (lookup t.timers u).comps } ∧
    (∀ k, compAt (lookup t.timers u) k = compAt r k) ∧ lookup t.nvic u = n ∧
    lookup t.arb u = ⟨(lookup s.arb u).count, run⟩ ∧
    ∀ v, v ≠ u → lookup t.timers v = lookup s.timers v ∧ lookup t.nvic v = lookup s.nvic v ∧
      lookup t.arb v = lookup s.arb v := by
  obtain ⟨hregs, hrest⟩ := timerRow_store hr hn ha
  exact ⟨by rw [hregs], fun k => by rw [hregs], hrest⟩

end

/-- Settles O25: each step is the arbiter's on the timer of the selected slot, a store to its row; comparator 0, which
TS3 and TS4 store to, is in the timer's table. -/
theorem timerStartSteps : Obligations.TimerStartSteps := by
  intro s pin value i hi hshape u r go n run
  have hcomps : 0 < r.comps.length := by rw [comps_length hshape]; omega
  have hr := (update_lookup s.timers u).symm
  have hn := (update_lookup s.nvic u).symm
  have ha := (update_lookup s.arb u).symm
  exact ⟨fun hs => ⟨_, exec_onAllocPath hs rfl hi, rfl, timerRow_store_comps rfl hn ha⟩,
    fun hs => ⟨_, exec_onAllocPath hs rfl hi, rfl, timerRow_store_comps rfl hn ha⟩,
    fun hs => ⟨_, exec_onAllocPath hs rfl hi, rfl, timerRow_store_comps rfl hn ha⟩,
    fun hs => ⟨_, exec_onAllocPath hs rfl hi, rfl,
      timerRow_store_comps (congrArg (update s.timers u) (setComp_zero hcomps _)) hn ha⟩,
    fun hs => ⟨_, exec_onAllocPath hs rfl hi, rfl,
      timerRow_store_comps (congrArg (update s.timers u) (setComp_zero hcomps _)) hn ha⟩,
    fun hs => ⟨_, exec_onAllocPath hs rfl hi, rfl, timerRow_store_comps rfl hn rfl⟩,
    fun hs => ⟨_, exec_onAllocPath hs rfl hi, rfl, timerRow_store_comps hr rfl ha⟩,
    fun hs => ⟨_, exec_onAllocPath hs rfl hi, rfl, timerRow_store_comps hr rfl ha⟩⟩

/-- Settles O26: each step is the arbiter's on the timer of the scanned slot, a store to its row. -/
theorem timerStopSteps : Obligations.TimerStopSteps := by
  intro s pin value u r go n run
  have hr := (update_lookup s.timers u).symm
  have hn := (update_lookup s.nvic u).symm
  have ha := (update_lookup s.arb u).symm
  exact ⟨fun hs => ⟨_, exec_write hs, rfl, timerRow_store hr rfl ha⟩,
    fun hs => ⟨_, exec_write hs, rfl, timerRow_store hr hn ha⟩,
    fun hs => ⟨_, exec_write hs, rfl, timerRow_store rfl hn rfl⟩,
    fun hs => ⟨_, exec_write hs, rfl, timerRow_store rfl hn ha⟩⟩

end Sys2Proof.Machine
end

section
/-! SUPPORT. Which steps start a timer, stop it or set its width, and how a `WRITE` comes to `TSTOP` (42_timer_arbiter
R160 to R165). -/

namespace Sys2Proof.Machine

/-- Whether timer `u` runs, by the device and by its row, and the width of its counter are the same in both states. -/
structure SameRun (s s' : State) (u : TimerId) : Prop where
  timer : (lookup s'.timers u).run = (lookup s.timers u).run
  row   : (lookup s'.arb u).run = (lookup s.arb u).run
  width : (lookup s'.timers u).bitMode = (lookup s.timers u).bitMode

/-- What a micro-step of `WRITE` at label `l` does to timer `u` where it touches what `SameRun` compares. -/
inductive RunChange (s s' : State) (u : TimerId) : WriteStep → Prop where
  | width (hu : selectedOn s u = true) (hwidth : (lookup s'.timers u).bitMode = s.cfg.bitWidth)
      (htimer : (lookup s'.timers u).run = (lookup s.timers u).run)
      (hrow : (lookup s'.arb u).run = (lookup s.arb u).run) : RunChange s s' u .ts2
  | start (hu : selectedOn s u = true) (hwidth : (lookup s'.timers u).bitMode = (lookup s.timers u).bitMode)
      (htimer : (lookup s'.timers u).run = true) (hrow : (lookup s'.arb u).run = true) : RunChange s s' u .ts5
  | stop (hu : scanTimer s = u) (hwidth : (lookup s'.timers u).bitMode = (lookup s.timers u).bitMode)
      (htimer : (lookup s'.timers u).run = false) (hrow : (lookup s'.arb u).run = false) : RunChange s s' u .tp2

theorem SameRun.ofTables {s s' : State} {u : TimerId} (ht : s'.timers = s.timers) (ha : s'.arb = s.arb) :
    SameRun s s' u :=
  ⟨by rw [ht], by rw [ha], by rw [ht]⟩

theorem SameRun.ofOther {s s' : State} {t u : TimerId} {r : TimerRegs} {a : Arbiter} (htu : t ≠ u)
    (ht : s'.timers = update s.timers t r) (ha : s'.arb = update s.arb t a) : SameRun s s' u :=
  ⟨by simp [ht, htu], by simp [ha, htu], by simp [ht, htu]⟩

/-- A store to one timer and its row that leaves whether it runs, and its width. -/
theorem SameRun.ofStore {s s' : State} {u : TimerId} (t : TimerId) {r : TimerRegs} {a : Arbiter}
    (ht : s'.timers = update s.timers t r) (ha : s'.arb = update s.arb t a)
    (htimer : r.run = (lookup s.timers t).run) (hrow : a.run = (lookup s.arb t).run)
    (hwidth : r.bitMode = (lookup s.timers t).bitMode) : SameRun s s' u := by
  rcases eq_or_ne t u with rfl | htu
  · exact ⟨by simp [ht, htimer], by simp [ha, hrow], by simp [ht, hwidth]⟩
  · exact .ofOther htu ht ha

theorem selectedOn_slotTimer {s : State} {i : Nat} (hi : s.seq.sel = some i) :
    selectedOn s (slotTimer s.params i) = true := by
  simp [selectedOn, hi]

/-- Of the micro-steps of `WRITE` only TS2, TS5 and TP2 touch what `SameRun` compares, each on its own timer. -/
theorem writeStep_runChange {l : WriteStep} {s s' : State} (e : writeStep l s = .next s') (u : TimerId) :
    SameRun s s' u ∨ RunChange s s' u l := by
  cases writeStep_move e
  case ts2 i hi =>
    rcases eq_or_ne (slotTimer s.params i) u with rfl | hu
    · exact .inr (.width (selectedOn_slotTimer hi) (by simp) (by simp) (by simp))
    · exact .inl (.ofOther hu rfl (update_lookup _ _).symm)
  case ts5 i hi =>
    rcases eq_or_ne (slotTimer s.params i) u with rfl | hu
    · exact .inr (.start (selectedOn_slotTimer hi) (by simp) (by simp) (by simp))
    · exact .inl (.ofOther hu rfl rfl)
  case tp2 =>
    rcases eq_or_ne (scanTimer s) u with rfl | hu
    · exact .inr (.stop rfl (by simp) (by simp) (by simp))
    · exact .inl (.ofOther hu rfl rfl)
  all_goals left
  case w0 => unfold stepW0; split <;> exact .ofTables rfl rfl
  case w1 => unfold stepW1; split <;> exact .ofTables rfl rfl
  case f1 => unfold stepF1; (repeat' split) <;> exact .ofTables rfl rfl
  case f4 => unfold stepF4; split <;> exact .ofTables rfl rfl
  case s0 => unfold stepS0; split <;> exact .ofTables rfl rfl
  case a4 => unfold stepA4; split <;> exact .ofTables rfl rfl
  case f3 => exact .ofStore _ (update_lookup _ _).symm rfl rfl rfl rfl
  case a7 =>
    unfold stepA7
    split
    · exact .ofStore _ (update_lookup _ _).symm rfl rfl rfl rfl
    · exact .ofTables rfl rfl
  case a5 | a6 | ts0 | ts1 | ts3 | ts4 | tp3 => exact .ofStore _ rfl (update_lookup _ _).symm rfl rfl rfl
  all_goals exact .ofTables rfl rfl

/-- Of the steps of all agents only a micro-step of `WRITE` touches what `SameRun` compares. -/
theorem step_runChange {s t : State} (h : step s = .next t) (u : TimerId) :
    SameRun (beginStep s) t u ∨
    (nextTurn s = .foreground ∧ ∃ l, s.seq.step = .write l ∧ RunChange (beginStep s) t u l) := by
  rcases step_agent h with ⟨hturn, hstep⟩ | ⟨-, hframe⟩
  · rcases foregroundStep_tables hstep with ⟨htimers, harb, -⟩ | ⟨l, hl, hwrite⟩
    · exact .inl (.ofTables htimers harb)
    · exact (writeStep_runChange hwrite u).imp_right fun hchange => ⟨hturn, l, hl, hchange⟩
  · obtain ⟨hrun, -, -, hwidth, -⟩ := hframe.regs u
    exact .inl ⟨hrun, by rw [hframe.arb], hwidth⟩

/-- Settles O33: where a timer starts or `RUN` is set, `step_runChange` leaves only TS5. -/
theorem onlyTstartStarts : Obligations.OnlyTstartStarts := by
  intro s t u h hstarts
  rcases step_runChange h u with ⟨htimer, hrow, -⟩ | ⟨hturn, l, hl, hchange⟩
  · simp [htimer, hrow] at hstarts
  · cases hchange with
    | width _ _ htimer hrow => simp [htimer, hrow] at hstarts
    | start hu => exact ⟨hturn, hl, hu⟩
    | stop _ _ htimer hrow => simp [htimer, hrow] at hstarts

/-- The labels of `TSTOP` are come to from F4, by way of TP0, TP1, TP2 in turn. -/
theorem writeStep_toTstop {l : WriteStep} {s s' : State} (e : writeStep l s = .next s') :
    (s'.seq.step = .write .tp0 → l = .f4) ∧ (s'.seq.step = .write .tp1 → l = .tp0) ∧
    (s'.seq.step = .write .tp2 → l = .tp1) ∧ (s'.seq.step = .write .tp3 → l = .tp2) := by
  cases writeStep_move e
  case w0 => unfold stepW0; split <;> simp
  case w1 => unfold stepW1; split <;> simp
  case f1 => unfold stepF1; (repeat' split) <;> simp
  case f4 => unfold stepF4; split <;> simp
  case s0 => unfold stepS0; split <;> simp
  case s1 => simp [stepS1]
  case a1 => unfold stepA1 afterA1; split <;> simp
  case a2 => unfold afterA2; split <;> simp
  case a3 => unfold afterA3; split <;> simp
  case a4 => unfold stepA4; split <;> simp
  case a7 => unfold stepA7; split <;> simp
  all_goals simp

/-- Of the steps of all agents only a micro-step of `WRITE` comes to a label of `WRITE` other than W0. -/
theorem step_label {s t : State} (h : step s = .next t) :
    t.seq.step = s.seq.step ∨ (∀ l, t.seq.step = .write l → l = .w0) ∨
    ∃ k, s.seq.step = .write k ∧ writeStep k (beginStep s) = .next t := by
  rcases step_agent h with ⟨-, hstep⟩ | ⟨-, hframe⟩
  · rcases foregroundStep_tables hstep with ⟨-, -, -, hsame | hentry⟩ | hwrite
    · exact .inl hsame
    · exact .inr (.inl hentry)
    · exact .inr (.inr hwrite)
  · exact .inl (congrArg Sequencer.step hframe.seq)

/-- Settles O34: where a timer stops or `RUN` is cleared, `step_runChange` leaves only TP2; a label of `TSTOP` is come
to by a micro-step of `WRITE`, and `writeStep_toTstop` says from where. -/
theorem onlyTheFreePathStops : Obligations.OnlyTheFreePathStops := by
  intro s t u h
  refine ⟨fun hstops => ?_, fun hne => ?_⟩
  · rcases step_runChange h u with ⟨htimer, hrow, -⟩ | ⟨hturn, l, hl, hchange⟩
    · simp [htimer, hrow] at hstops
    · cases hchange with
      | width _ _ htimer hrow => simp [htimer, hrow] at hstops
      | start _ _ htimer hrow => simp [htimer, hrow] at hstops
      | stop hu => exact ⟨hturn, hl, hu⟩
  · rcases step_label h with hsame | hentry | ⟨k, hk, hwrite⟩
    · exact absurd hsame hne
    · have hno {l : WriteStep} (hl : l ≠ .w0) : t.seq.step ≠ .write l := fun e => hl (hentry l e)
      simp [hno]
    · simpa [hk] using writeStep_toTstop hwrite

/-- At TS2 the timer to be started has no channel counted, so its `RUN` is clear, and it is stopped. -/
theorem stopped_atTs2 {s : State} {u : TimerId} (inv : Inv s) (hl : s.seq.step = .write .ts2)
    (hu : selectedOn s u = true) : (lookup s.timers u).run = false := by
  have ⟨_, _, _, _, ⟨_, _, _, _, _, _, _, hfirst, _⟩, _⟩ := inv
  obtain ⟨-, hrow, htimer, -⟩ := arbiterInv_of_inv inv u
  cases hsel : s.seq.sel with
  | none => simp [selectedOn, hsel] at hu
  | some i =>
    have hiu : slotTimer s.params i = u := by simpa [selectedOn, hsel] using hu
    have hcount : (lookup s.arb u).count = 0#4 := by simpa [startingFirst, hl, hsel, hiu] using hfirst
    rw [htimer, hrow]
    simp [expectedRun, hl, hcount]

/-- Settles O35: where a width changes, `step_runChange` leaves only TS2, where the timer is still stopped. -/
theorem counterWidthFixedAtStart : Obligations.CounterWidthFixedAtStart := by
  intro s t u h hne
  rcases step_runChange h u with ⟨-, -, hsame⟩ | ⟨hturn, l, hl, hchange⟩
  · exact absurd hsame hne
  · cases hchange with
    | width hu hwidth => exact ⟨hturn, hl, hu, hwidth, fun inv => stopped_atTs2 inv hl hu⟩
    | start _ hwidth => exact absurd hwidth hne
    | stop _ hwidth => exact absurd hwidth hne

end Sys2Proof.Machine
end

section
/-! SUPPORT. A turn of the dispatcher, case by case: the entry, the steps of the handler, the return (60_exceptions R185
to R194). -/

namespace Sys2Proof.Machine

theorem step_dispatcher {s : State} {t : TimerId} (h : nextTurn s = .dispatcher t) :
    step s = .next (dispatcherTurn t (beginStep s)) := by
  rw [step, h]
  rfl

/-! ### The entry -/

theorem lineAsserted_iff {s : State} {t : TimerId} : lineAsserted s t = true ↔
    ∃ k ≤ s.params.nCu, eventFlag s t k = true ∧ eventEnabled s t k = true := by
  simp [lineAsserted]

theorem entryEnabled_iff {s : State} {t : TimerId} : entryEnabled s t = true ↔
    s.irq.active = none ∧ (lookup s.nvic t).en = true ∧
      ∃ k ≤ s.params.nCu, eventFlag s t k = true ∧ eventEnabled s t k = true := by
  simp only [entryEnabled, pending, Bool.and_eq_true, beq_iff_eq, lineAsserted_iff]
  tauto

theorem dispatcherTurn_enter {s : State} {t : TimerId} (h : entryEnabled s t = true) :
    dispatcherTurn t s = enterHandler t s := by
  obtain ⟨hactive, -⟩ := entryEnabled_iff.mp h
  simp only [dispatcherTurn, hactive, h, if_true]

theorem dispatcherTurn_notEnabled {s : State} {t : TimerId} (hactive : s.irq.active = none)
    (h : entryEnabled s t = false) : dispatcherTurn t s = s := by
  simp [dispatcherTurn, hactive, h]

/-- Handlers do not nest (60_exceptions R194). -/
theorem dispatcherTurn_otherHandler {s : State} {t t' : TimerId} (hactive : s.irq.active = some t') (ht : t' ≠ t) :
    dispatcherTurn t s = s := by
  simp [dispatcherTurn, hactive, ht]

/-! ### The handler -/

theorem dispatcherTurn_service {s : State} {t : TimerId} {k : Nat} (h : s.irq = ⟨some t, k⟩)
    (hk : k ≤ s.params.nCu) : dispatcherTurn t s = setIrqK (k + 1) (serviceEvent t k s) := by
  simp [dispatcherTurn, handlerStep, h, hk]

theorem dispatcherTurn_return {s : State} {t : TimerId} (h : s.irq.active = some t) (hk : s.params.nCu < s.irq.k) :
    dispatcherTurn t s = leaveHandler s := by
  simp [dispatcherTurn, handlerStep, h, hk]

/-- Settles O36: the three cases of a turn in which no step of the own handler is taken. -/
theorem handlerEntry : Obligations.HandlerEntry := by
  intro s t hturn
  rw [step_dispatcher hturn]
  refine ⟨fun hactive hen hline => ?_, fun hactive hoff => ?_, fun t' hactive ht => ?_⟩
  · have henter : entryEnabled (beginStep s) t = true := entryEnabled_iff.mpr ⟨hactive, hen, hline⟩
    rw [dispatcherTurn_enter henter]
    rfl
  · have hno : entryEnabled (beginStep s) t = false := by
      rw [← Bool.not_eq_true, entryEnabled_iff]
      rintro ⟨-, hen, k, hk, hflag, henabled⟩
      rcases hoff with hoff | hoff
      · exact absurd (hoff.symm.trans hen) (by decide)
      · exact absurd ((hoff k hk hflag).symm.trans henabled) (by decide)
    rw [dispatcherTurn_notEnabled (s := beginStep s) hactive hno]
  · rw [dispatcherTurn_otherHandler (s := beginStep s) hactive ht]

/-- Settles O39: past event `N_CU` the step of the handler is its return. -/
theorem handlerReturn : Obligations.HandlerReturn := by
  intro s t hturn hactive hk
  rw [step_dispatcher hturn, dispatcherTurn_return (s := beginStep s) hactive hk]
  rfl

end Sys2Proof.Machine
end

section
/-! SUPPORT. The calls of a handler's step, and the levels they leave at the pins (60_exceptions R188, R189, R199). -/

namespace Sys2Proof.Machine

/-! ### A run of calls and the levels it leaves -/

theorem pinWrites_append (p : Word) (a b : List Call) : pinWrites p (a ++ b) = pinWrites p a ++ pinWrites p b :=
  List.filterMap_append

theorem pinWrites_reverse (p : Word) (calls : List Call) : pinWrites p calls.reverse = (pinWrites p calls).reverse :=
  List.filterMap_reverse

theorem mem_pinWrites {p : Word} {l : Level} {calls : List Call} :
    l ∈ pinWrites p calls ↔ Call.gpioWrite p l ∈ calls := by
  simp only [pinWrites, List.mem_filterMap]
  constructor
  · rintro ⟨c, hc, hl⟩
    split at hl
    case h_1 q m =>
      obtain ⟨rfl, rfl⟩ : q = p ∧ m = l := by simpa using hl
      exact hc
    case h_2 => cases hl
  · exact fun h => ⟨_, h, by simp⟩

/-- From `s` to `s'` the trace gains `calls`, the latest first, and the level of each pin is what the last of its writes
among them says, where there is one. -/
structure Drives (calls : List Call) (s s' : State) : Prop where
  trace : s'.trace = calls ++ s.trace
  level : ∀ p, levelOf s' p = (pinWrites p calls).head?.getD (levelOf s p)

theorem Drives.none {s s' : State} (ht : s'.trace = s.trace) (hg : s'.gpio = s.gpio) : Drives [] s s' :=
  ⟨ht, levelOf_eq hg⟩

theorem Drives.trans {a b : List Call} {s s' s'' : State} (h : Drives a s s') (h' : Drives b s' s'') :
    Drives (b ++ a) s s'' where
  trace := by rw [h'.trace, h.trace, List.append_assoc]
  level p := by
    rw [h'.level, h.level, pinWrites_append]
    cases pinWrites p b <;> rfl

theorem Drives.gpioWrite (p : Word) (l : Level) (s : State) :
    Drives [.gpioWrite p l] s (Machine.gpioWrite p l s) where
  trace := rfl
  level q := by
    rw [levelOf_gpioWrite]
    by_cases h : q = p
    · simp [pinWrites, h]
    · simp [pinWrites, h, Ne.symm h]

theorem Drives.eventClear (t : TimerId) (k : Nat) (s : State) :
    Drives [.timerEventClear t k] s (timerEventClear t k s) :=
  ⟨rfl, fun _ => rfl⟩

/-- A pin that no call writes keeps its level. -/
theorem Drives.level_kept {calls : List Call} {s s' : State} {p : Word} (h : Drives calls s s')
    (hno : ∀ l, Call.gpioWrite p l ∉ calls) : levelOf s' p = levelOf s p := by
  have hnil : pinWrites p calls = [] := List.eq_nil_iff_forall_not_mem.mpr fun l hl => hno l (mem_pinWrites.mp hl)
  rw [h.level, hnil]
  rfl

/-- A pin to which every write is of the level `l` has that level. -/
theorem Drives.level_written {calls : List Call} {s s' : State} {p : Word} {l : Level} (h : Drives calls s s')
    (hwrite : Call.gpioWrite p l ∈ calls) (hall : ∀ m, Call.gpioWrite p m ∈ calls → m = l) : levelOf s' p = l := by
  obtain ⟨m, ms, heq⟩ := List.exists_cons_of_ne_nil (List.ne_nil_of_mem (mem_pinWrites.mpr hwrite))
  have hm : m ∈ pinWrites p calls := heq ▸ List.mem_cons_self
  rw [h.level, heq]
  exact hall m (mem_pinWrites.mp hm)

/-! ### The call for one slot -/

/-- The write `driveSlot` makes to the pin of slot `i`, if any. -/
def slotCall (rule : Slot → Option Level) (s : State) (i : Nat) : Option Call :=
  let x := slotAt s i
  if x.bound then
    if x.undef then some (.gpioWrite x.pin (Config.freeLevel s.steps i)) else (rule x).map (.gpioWrite x.pin)
  else none

theorem slotCall_unbound {rule : Slot → Option Level} {s : State} {i : Nat} (h : (slotAt s i).bound = false) :
    slotCall rule s i = none := by
  simp [slotCall, h]

theorem slotCall_defined {rule : Slot → Option Level} {s : State} {i : Nat} (hb : (slotAt s i).bound = true)
    (hu : (slotAt s i).undef = false) :
    slotCall rule s i = (rule (slotAt s i)).map (.gpioWrite (slotAt s i).pin) := by
  simp [slotCall, hb, hu]

theorem slotCall_some {rule : Slot → Option Level} {s : State} {i : Nat} {c : Call} (h : slotCall rule s i = some c) :
    (slotAt s i).bound = true ∧ ∃ l, c = .gpioWrite (slotAt s i).pin l := by
  unfold slotCall at h
  dsimp only at h
  split at h
  case isTrue hb =>
    refine ⟨hb, ?_⟩
    split at h
    · cases h
      exact ⟨_, rfl⟩
    · obtain ⟨l, -, rfl⟩ := Option.map_eq_some_iff.mp h
      exact ⟨l, rfl⟩
  case isFalse => cases h

theorem slotCall_congr {s s' : State} (hs : s'.slots = s.slots) (hn : s'.steps = s.steps)
    (rule : Slot → Option Level) : slotCall rule s' = slotCall rule s := by
  funext i
  simp [slotCall, slotAt_eq hs, hn]

theorem drives_driveSlot (i : Nat) (rule : Slot → Option Level) (s : State) :
    Drives (slotCall rule s i).toList s (driveSlot i rule s) := by
  unfold slotCall driveSlot
  dsimp only
  split
  · split
    · exact .gpioWrite _ _ s
    · cases rule (slotAt s i) with
      | none => exact .none rfl rfl
      | some l => exact .gpioWrite _ l s
  · exact .none rfl rfl

theorem drives_foldl_driveSlot (rule : Slot → Option Level) (is : List Nat) (s : State) :
    Drives (is.filterMap (slotCall rule s)).reverse s (is.foldl (fun s i => driveSlot i rule s) s) := by
  induction is generalizing s with
  | nil => exact .none rfl rfl
  | cons i is ih =>
    have hsame : slotCall rule (driveSlot i rule s) = slotCall rule s := slotCall_congr (by simp) (by simp) rule
    have hcalls : ((i :: is).filterMap (slotCall rule s)).reverse =
        (is.filterMap (slotCall rule (driveSlot i rule s))).reverse ++ (slotCall rule s i).toList := by
      rw [hsame, List.filterMap_cons]
      cases slotCall rule s i <;> simp
    rw [hcalls]
    exact (drives_driveSlot i rule s).trans (ih _)

/-! ### The calls for one event -/

/-- The writes of the cycle-start event of timer `t`, in the order they are made. -/
def cycleStartCalls (t : TimerId) (s : State) : List Call :=
  (slotsOf s.params t).filterMap (slotCall cycleStartRule s)

/-- The write of event `k` of timer `t`, if any. -/
def compareCall (t : TimerId) (k : Nat) (s : State) : Option Call :=
  slotCall (compareRule (fullScaleMinusOne s.cfg)) s (eventSlot s.params t k)

/-- What servicing event `k` of timer `t` records, the latest first. -/
def serviceCalls (t : TimerId) (k : Nat) (s : State) : List Call :=
  if eventFlag s t k then
    .timerEventClear t k :: if k = 0 then (cycleStartCalls t s).reverse else (compareCall t k s).toList
  else []

theorem drives_serviceEvent (t : TimerId) (k : Nat) (s : State) :
    Drives (serviceCalls t k s) s (serviceEvent t k s) := by
  unfold serviceCalls serviceEvent
  split
  · split
    case isTrue h =>
      subst h
      exact (drives_foldl_driveSlot cycleStartRule (slotsOf s.params t) s).trans (.eventClear t 0 _)
    case isFalse => exact (drives_driveSlot _ _ s).trans (.eventClear t k _)
  · exact .none rfl rfl

/-- Every pin an event's service writes is the pin of a bound slot of the timer. -/
theorem gpioWrite_mem_serviceCalls {t : TimerId} {k : Nat} {s : State} {p : Word} {l : Level} (hk : k ≤ s.params.nCu)
    (h : Call.gpioWrite p l ∈ serviceCalls t k s) :
    ∃ i ∈ slotsOf s.params t, (slotAt s i).bound = true ∧ (slotAt s i).pin = p := by
  unfold serviceCalls at h
  split at h
  case isFalse => cases h
  case isTrue =>
    have hslot : ∃ i ∈ slotsOf s.params t, ∃ rule, slotCall rule s i = some (.gpioWrite p l) := by
      by_cases hk0 : k = 0
      · obtain ⟨i, hi, hc⟩ : ∃ i ∈ slotsOf s.params t, slotCall cycleStartRule s i = some (.gpioWrite p l) := by
          simpa [hk0, cycleStartCalls] using h
        exact ⟨i, hi, _, hc⟩
      · exact ⟨_, eventSlot_mem_slotsOf s.params t (Nat.pos_of_ne_zero hk0) hk, _, by simpa [hk0, compareCall] using h⟩
    obtain ⟨i, hi, rule, hc⟩ := hslot
    obtain ⟨hb, m, hm⟩ := slotCall_some hc
    cases hm
    exact ⟨i, hi, hb, rfl⟩

/-! ### The flags -/

theorem serviceEvent_clear {t : TimerId} {k : Nat} {s : State} (h : eventFlag s t k = false) :
    serviceEvent t k s = s := by
  simp [serviceEvent, h]

theorem serviceEvent_set_timers {t : TimerId} {k : Nat} {s : State} (h : eventFlag s t k = true) :
    (serviceEvent t k s).timers =
      update s.timers t (setComp k (fun c => { c with ev := false }) (lookup s.timers t)) := by
  rw [serviceEvent, if_pos h]
  split
  case isTrue hk => simp [driveCycleStart, hk]
  case isFalse => simp

/-- Past the last comparator there is no flag to clear. -/
theorem ev_setComp_clear (k j : Nat) (r : TimerRegs) :
    (compAt (setComp k (fun c => { c with ev := false }) r) j).ev = if j = k then false else (compAt r j).ev := by
  rw [compAt_setComp]
  by_cases hjk : j = k
  · subst hjk
    by_cases hlen : j < r.comps.length
    · simp [hlen]
    · simp [hlen, compAt, Comparator.launch]
  · simp [hjk, Ne.symm hjk]

/-- Servicing an event clears its flag and leaves every other. -/
theorem eventFlag_serviceEvent (t u : TimerId) (k j : Nat) (s : State) :
    eventFlag (serviceEvent t k s) u j = if u = t ∧ j = k then false else eventFlag s u j := by
  cases hflag : eventFlag s t k with
  | false =>
    rw [serviceEvent_clear hflag]
    split
    case isTrue h => rw [h.1, h.2, hflag]
    case isFalse => rfl
  | true =>
    rw [eventFlag, serviceEvent_set_timers hflag, lookup_update]
    by_cases hut : u = t
    · subst hut
      rw [if_pos rfl, ev_setComp_clear]
      simp [eventFlag]
    · rw [if_neg (Ne.symm hut), if_neg (fun h => hut h.1)]
      rfl

end Sys2Proof.Machine
end

section
/-! SUPPORT. The two kinds of step in which a handler serves an event: H0 and Hk (60_exceptions R188, R189). -/

namespace Sys2Proof.Machine

@[simp] theorem slotAt_beginStep (s : State) (i : Nat) : slotAt (beginStep s) i = slotAt s i := rfl

/-- With the flag of event `k` clear, the step of event `k` moves `IRQ_K` alone. -/
theorem step_service_clear {s : State} {t : TimerId} {k : Nat} (hturn : nextTurn s = .dispatcher t)
    (hirq : s.irq = ⟨some t, k⟩) (hk : k ≤ s.params.nCu) (hflag : eventFlag s t k = false) :
    step s = .next { beginStep s with irq := ⟨some t, k + 1⟩ } := by
  have hflag' : eventFlag (beginStep s) t k = false := hflag
  rw [step_dispatcher hturn, dispatcherTurn_service (s := beginStep s) hirq hk, serviceEvent_clear hflag', setIrqK]
  simp [hirq]

/-- The step of event `k`: its calls, the flags and the position after it. -/
theorem step_service {s : State} {t : TimerId} {k : Nat} (hturn : nextTurn s = .dispatcher t)
    (hirq : s.irq = ⟨some t, k⟩) (hk : k ≤ s.params.nCu) :
    ∃ s', step s = .next s' ∧ s'.irq = ⟨some t, k + 1⟩ ∧ Drives (serviceCalls t k (beginStep s)) s s' ∧
      ∀ u j, eventFlag s' u j = if u = t ∧ j = k then false else eventFlag s u j := by
  refine ⟨setIrqK (k + 1) (serviceEvent t k (beginStep s)), ?_, by simp [hirq], ?_, ?_⟩
  · rw [step_dispatcher hturn, dispatcherTurn_service (s := beginStep s) hirq hk]
  · have ⟨htrace, hlevel⟩ := drives_serviceEvent t k (beginStep s)
    exact ⟨htrace, hlevel⟩
  · exact fun u j => eventFlag_serviceEvent t u k j (beginStep s)

/-! ### H0 -/

theorem mem_cycleStartSlots {s : State} {t : TimerId} {i : Nat} : i ∈ cycleStartSlots s t ↔
    i ∈ slotsOf s.params t ∧ (slotAt s i).bound = true ∧ (slotAt s i).duty ≠ 0#32 := by
  simp [cycleStartSlots]

theorem undef_of_undefinedOn {s : State} {t : TimerId} {p : Word} (h : undefinedOn s t p = false) {i : Nat}
    (hi : i ∈ slotsOf s.params t) (hb : (slotAt s i).bound = true) (hp : (slotAt s i).pin = p) :
    (slotAt s i).undef = false := by
  have hall : ∀ j ∈ slotsOf s.params t, (slotAt s j).bound = true → (slotAt s j).undef = true →
      (slotAt s j).pin ≠ p := by
    simpa [undefinedOn] using h
  by_contra hu
  exact hall i hi hb (by simpa using hu) hp

/-- A slot whose behaviour is defined is written HIGH at the cycle start exactly where it is bound with a duty. -/
theorem slotCall_cycleStart {s : State} {i : Nat} (hu : (slotAt s i).bound = true → (slotAt s i).undef = false) :
    slotCall cycleStartRule s i =
      if (slotAt s i).bound ∧ (slotAt s i).duty ≠ 0#32 then some (.gpioWrite (slotAt s i).pin .high) else none := by
  by_cases hb : (slotAt s i).bound = true
  · rw [slotCall_defined hb (hu hb), cycleStartRule]
    by_cases hd : (slotAt s i).duty = 0#32 <;> simp [hb, hd]
  · rw [slotCall_unbound (by simpa using hb)]
    simp [hb]

theorem gpioWrite_mem_cycleStartCalls {s : State} {t : TimerId} {p : Word} {l : Level}
    (h : undefinedOn s t p = false) : Call.gpioWrite p l ∈ cycleStartCalls t s ↔
      l = .high ∧ ∃ i ∈ cycleStartSlots s t, (slotAt s i).pin = p := by
  simp only [cycleStartCalls, List.mem_filterMap]
  constructor
  · rintro ⟨i, hi, hc⟩
    obtain ⟨hb, m, hm⟩ := slotCall_some hc
    have hp : (slotAt s i).pin = p := by cases hm; rfl
    rw [slotCall_cycleStart (fun _ => undef_of_undefinedOn h hi hb hp)] at hc
    split at hc
    case isTrue hd =>
      cases hc
      exact ⟨rfl, i, mem_cycleStartSlots.mpr ⟨hi, hd⟩, hp⟩
    case isFalse => cases hc
  · rintro ⟨rfl, i, hi, rfl⟩
    obtain ⟨hi, hb, hd⟩ := mem_cycleStartSlots.mp hi
    exact ⟨i, hi, by rw [slotCall_cycleStart (fun hb => undef_of_undefinedOn h hi hb rfl), if_pos ⟨hb, hd⟩]⟩

theorem cycleStartCalls_eq {s : State} {t : TimerId} (h : ∀ p, undefinedOn s t p = false) :
    cycleStartCalls t s = (cycleStartSlots s t).map (fun i => Call.gpioWrite (slotAt s i).pin .high) := by
  rw [cycleStartSlots, ← List.filterMap_eq_map, List.filterMap_filter]
  refine List.filterMap_congr fun i hi => ?_
  rw [slotCall_cycleStart (fun hb => undef_of_undefinedOn (h _) hi hb rfl)]
  simp

theorem serviceCalls_zero {s : State} {t : TimerId} (h : eventFlag s t 0 = true) :
    serviceCalls t 0 s = .timerEventClear t 0 :: (cycleStartCalls t s).reverse := by
  simp [serviceCalls, h]

/-- Settles O37: the calls of the step are the HIGH writes of the slots with a duty, and they determine the levels. -/
theorem cycleStartStep : Obligations.CycleStartStep := by
  intro s t hturn hirq
  refine ⟨fun hflag => step_service_clear hturn hirq (Nat.zero_le _) hflag, fun hflag => ?_⟩
  obtain ⟨s', hstep, hirq', hdrives, hflags⟩ := step_service hturn hirq (Nat.zero_le _)
  have hflag' : eventFlag (beginStep s) t 0 = true := hflag
  rw [serviceCalls_zero hflag'] at hdrives
  have hmem {p : Word} {l : Level} (hp : undefinedOn s t p = false) :
      Call.gpioWrite p l ∈ .timerEventClear t 0 :: (cycleStartCalls t (beginStep s)).reverse ↔
        l = .high ∧ ∃ i ∈ cycleStartSlots s t, (slotAt s i).pin = p := by
    rw [List.mem_cons, List.mem_reverse]
    exact (or_iff_right (by simp)).trans (gpioWrite_mem_cycleStartCalls (s := beginStep s) hp)
  refine ⟨s', hstep, hirq', fun i hi hp => ?_, fun p hno hp => ?_, fun h => ?_, by simp [hflags], fun u k hne => ?_⟩
  · exact hdrives.level_written ((hmem hp).mpr ⟨rfl, i, hi, rfl⟩) (fun _ hm => ((hmem hp).mp hm).1)
  · refine hdrives.level_kept fun l hl => ?_
    obtain ⟨-, i, hi, hpin⟩ := (hmem hp).mp hl
    exact hno i hi hpin
  · rw [hdrives.trace, cycleStartCalls_eq (s := beginStep s) h]
    rfl
  · rw [hflags, if_neg (by simpa using hne)]

/-! ### Hk -/

theorem serviceCalls_compare {s : State} {t : TimerId} {k : Nat} (hk : k ≠ 0) (h : eventFlag s t k = true) :
    serviceCalls t k s = .timerEventClear t k :: (compareCall t k s).toList := by
  simp [serviceCalls, h, hk]

theorem compareCall_low {s : State} {t : TimerId} {k : Nat} (hb : (slotAt s (eventSlot s.params t k)).bound = true)
    (hu : (slotAt s (eventSlot s.params t k)).undef = false)
    (hd : (slotAt s (eventSlot s.params t k)).duty ≠ fullScaleMinusOne s.cfg) :
    compareCall t k s = some (.gpioWrite (slotAt s (eventSlot s.params t k)).pin .low) := by
  rw [compareCall, slotCall_defined hb hu, compareRule, if_neg hd]
  rfl

theorem compareCall_none {s : State} {t : TimerId} {k : Nat} (h : (slotAt s (eventSlot s.params t k)).bound = false ∨
      ((slotAt s (eventSlot s.params t k)).undef = false ∧
        (slotAt s (eventSlot s.params t k)).duty = fullScaleMinusOne s.cfg)) : compareCall t k s = none := by
  by_cases hb : (slotAt s (eventSlot s.params t k)).bound = true
  · obtain ⟨hu, hd⟩ := h.resolve_left (by simp [hb])
    rw [compareCall, slotCall_defined hb hu, compareRule, if_pos hd]
    rfl
  · exact slotCall_unbound (by simpa using hb)

/-- Full-scale-minus-one is 255 in 8-bit mode and 65535 in 16-bit mode (10_state R34). -/
theorem fullScaleMinusOne_eq {s : State} (h : ConfigLegal s) :
    fullScaleMinusOne s.cfg = match s.cfg.bitWidth with | .w8 => 255#32 | .w16 => 65535#32 := by
  obtain ⟨-, -, hhalf, -⟩ := stepKeepsConfig.2 s h
  have hhalf' : s.cfg.halfScale = BitVec.ofNat 32 (2 ^ (widthBits s.cfg.bitWidth - 1)) := by
    rw [← hhalf, BitVec.ofNat_toNat, BitVec.setWidth_eq]
  rw [fullScaleMinusOne, hhalf']
  cases s.cfg.bitWidth <;> rfl

/-- Settles O38: the step makes at most the one write of `compareCall`, which the slot's row decides. -/
theorem compareStep : Obligations.CompareStep := by
  intro s t k hturn hirq hk1 hk
  dsimp only
  refine ⟨fun hflag => step_service_clear hturn hirq hk hflag, fun hflag => ?_, fullScaleMinusOne_eq⟩
  obtain ⟨s', hstep, hirq', hdrives, hflags⟩ := step_service hturn hirq hk
  have hflag' : eventFlag (beginStep s) t k = true := hflag
  rw [serviceCalls_compare (Nat.ne_of_gt hk1) hflag'] at hdrives
  refine ⟨s', hstep, hirq', by simp [hflags], fun u j hne => ?_, fun q hq => ?_, fun hb hu hd => ?_, fun hno => ?_⟩
  · rw [hflags, if_neg (by simpa using hne)]
  · refine hdrives.level_kept fun l hl => ?_
    have hcall : compareCall t k (beginStep s) = some (.gpioWrite q l) := by simpa using hl
    obtain ⟨-, m, hm⟩ := slotCall_some hcall
    cases hm
    exact hq rfl
  · rw [compareCall_low (s := beginStep s) hb hu hd] at hdrives
    exact ⟨hdrives.level_written (by simp [eventSlot]) (fun m hm => by simpa [eventSlot] using hm), hdrives.trace⟩
  · rw [compareCall_none (s := beginStep s) hno] at hdrives
    exact ⟨hdrives.level_kept (by simp), hdrives.trace⟩

end Sys2Proof.Machine
end

section
/-! SUPPORT. The frame of a handler's step (60_exceptions R192, 10_state R25). -/

namespace Sys2Proof.Machine

/-- A turn of the dispatcher touches of the timers at most the flag of the event it serves. -/
theorem DispatcherStep.timers {t : TimerId} {s s' : State} (h : DispatcherStep t s s') :
    s'.timers = s.timers ∨
    s'.timers = update s.timers t (setComp s.irq.k (fun c => { c with ev := false }) (lookup s.timers t)) := by
  cases h with
  | none | enter | leave => exact .inl rfl
  | service => exact serviceEvent_timers t s.irq.k s

theorem DispatcherStep.otherTimer {t u : TimerId} {s s' : State} (h : DispatcherStep t s s') (hu : u ≠ t) :
    lookup s'.timers u = lookup s.timers u := by
  rcases h.timers with htimers | htimers
  · rw [htimers]
  · simp [htimers, hu.symm]

theorem DispatcherStep.cnt {t : TimerId} {s s' : State} (h : DispatcherStep t s s') (u : TimerId) :
    (lookup s'.timers u).cnt = (lookup s.timers u).cnt := by
  rcases h.timers with htimers | htimers
  · rw [htimers]
  · rw [htimers, lookup_update]
    split
    case isTrue htu => rw [← htu]; rfl
    case isFalse => rfl

/-- A turn of the dispatcher moves only the pins of the bound slots of its timer. -/
theorem dispatcherStep_otherPin {t : TimerId} {s s' : State} {p : Word} (h : DispatcherStep t s s')
    (hp : ∀ i ∈ slotsOf s.params t, (slotAt s i).bound = true → (slotAt s i).pin ≠ p) :
    levelOf s' p = levelOf s p := by
  cases h with
  | none | enter | leave => rfl
  | service _ hk =>
    refine (drives_serviceEvent t s.irq.k s).level_kept fun l hl => ?_
    obtain ⟨i, hi, hb, hpin⟩ := gpioWrite_mem_serviceCalls hk hl
    exact hp i hi hb hpin

/-- A step of another agent than the foreground sequencer changes at most the event flag of a comparator. -/
theorem envFrame_compAt {s s' : State} (h : EnvFrame s s') (u : TimerId) (k : Nat) :
    compAt (lookup s'.timers u) k = { compAt (lookup s.timers u) k with ev := eventFlag s' u k } := by
  obtain ⟨hcc, hinten⟩ := h.comps u k
  dsimp only
  rw [← hcc, ← hinten]
  rfl

/-- Where it leaves the counter too, it touches only the comparators. -/
theorem EnvFrame.timerRegs {s s' : State} (h : EnvFrame s s') {u : TimerId}
    (hcnt : (lookup s'.timers u).cnt = (lookup s.timers u).cnt) :
    lookup s'.timers u = { lookup s.timers u with comps := (lookup s'.timers u).comps } := by
  obtain ⟨hrun, hmode, hpresc, hwidth, -⟩ := h.regs u
  dsimp only
  rw [← hrun, ← hmode, ← hpresc, ← hwidth, ← hcnt]

/-- Settles O40: the frame of a turn of the dispatcher, from the step begun. -/
theorem handlerFrame : Obligations.HandlerFrame := by
  intro s s' t hturn hstep
  rw [step_dispatcher hturn] at hstep
  cases hstep
  have hd : DispatcherStep t (beginStep s) (dispatcherTurn t (beginStep s)) := dispatcherTurn_cases t (beginStep s)
  have hf := dispatcher_frame hd
  have hresp : (dispatcherTurn t (beginStep s)).resp.resp = s.resp.resp := by simp [hf.resp]
  have hadc : (dispatcherTurn t (beginStep s)).adc = s.adc := dispatcher_adc (s := beginStep s) hd
  refine ⟨hf.params, hf.slots, hf.arb, hf.cfg, hf.seq, hf.nvic, hadc, hresp, hf.host, hf.marks,
    hf.outputs, fun u => hf.timerRegs (hd.cnt u), fun u k => envFrame_compAt (s := beginStep s) hf u k,
    fun u k hu => ?_, fun p hp => dispatcherStep_otherPin (s := beginStep s) hd hp⟩
  have hother : lookup (dispatcherTurn t (beginStep s)).timers u = lookup s.timers u := hd.otherTimer hu
  rw [eventFlag, hother]
  rfl

end Sys2Proof.Machine
end

section
/-! SUPPORT. One invocation of a handler, from its entry to its return (60_exceptions R187 to R193). -/

namespace Sys2Proof.Machine

/-! ### Listed turns -/

/-- The listed turns lead from `s` to `s'`, whatever turns follow. -/
def TurnsRun (turns : List Turn) (s s' : State) : Prop :=
  ∀ ts, runTurns (turns ++ ts) s = runTurns ts s'

theorem TurnsRun.nil {s : State} : TurnsRun [] s s := fun _ => rfl

theorem TurnsRun.trans {a b : List Turn} {s s' s'' : State} (h : TurnsRun a s s') (h' : TurnsRun b s' s'') :
    TurnsRun (a ++ b) s s'' := by
  intro ts
  rw [List.append_assoc, h, h']

theorem TurnsRun.runTurns {turns : List Turn} {s s' : State} (h : TurnsRun turns s s') :
    runTurns turns s = .next (withSched [] s') := by
  have hrun := h []
  rwa [List.append_nil] at hrun

theorem driveSlot_withSched (ts : List Turn) (i : Nat) (rule : Slot → Option Level) (s : State) :
    driveSlot i rule (withSched ts s) = withSched ts (driveSlot i rule s) := by
  have hslot : slotAt (withSched ts s) i = slotAt s i := rfl
  simp only [driveSlot, hslot]
  split
  · split
    · rfl
    · cases rule (slotAt s i) <;> rfl
  · rfl

theorem foldl_driveSlot_withSched (ts : List Turn) (rule : Slot → Option Level) (is : List Nat) (s : State) :
    is.foldl (fun s i => driveSlot i rule s) (withSched ts s) =
      withSched ts (is.foldl (fun s i => driveSlot i rule s) s) := by
  induction is generalizing s with
  | nil => rfl
  | cons i is ih => rw [List.foldl_cons, List.foldl_cons, driveSlot_withSched, ih]

theorem serviceEvent_withSched (ts : List Turn) (t : TimerId) (k : Nat) (s : State) :
    serviceEvent t k (withSched ts s) = withSched ts (serviceEvent t k s) := by
  unfold serviceEvent
  rw [apply_ite (withSched ts), apply_ite (withSched ts)]
  refine if_congr Iff.rfl (if_congr Iff.rfl ?_ ?_) rfl
  · exact congrArg (timerEventClear t 0) (foldl_driveSlot_withSched ts cycleStartRule _ s)
  · exact congrArg (timerEventClear t k) (driveSlot_withSched ts _ _ s)

theorem handlerStep_withSched (ts : List Turn) (t : TimerId) (s : State) :
    handlerStep t (withSched ts s) = withSched ts (handlerStep t s) := by
  unfold handlerStep
  rw [apply_ite (withSched ts)]
  exact if_congr Iff.rfl (congrArg (setIrqK (s.irq.k + 1)) (serviceEvent_withSched ts t s.irq.k s)) rfl

theorem dispatcherTurn_withSched (ts : List Turn) (t : TimerId) (s : State) :
    dispatcherTurn t (withSched ts s) = withSched ts (dispatcherTurn t s) := by
  have hactive : (withSched ts s).irq.active = s.irq.active := rfl
  unfold dispatcherTurn
  rw [hactive]
  cases s.irq.active with
  | none =>
    dsimp only
    rw [apply_ite (withSched ts)]
    rfl
  | some t' =>
    dsimp only
    rw [apply_ite (withSched ts)]
    exact if_congr Iff.rfl (handlerStep_withSched ts t s) rfl

theorem TurnsRun.dispatcher (t : TimerId) (s : State) :
    TurnsRun [.dispatcher t] s (dispatcherTurn t (countStep s)) :=
  fun ts => runTurns_cons (congrArg Host.Outcome.next (dispatcherTurn_withSched ts t (countStep s)))

/-! ### What the service of an event writes to one pin -/

/-- Slot `i` is bound on timer `t`, its pin behaviour is defined, and no other slot is bound to its pin. -/
abbrev SoleOn (s : State) (t : TimerId) (i : Nat) : Prop :=
  UniqueBinding s ∧ i ∈ slotsOf s.params t ∧ (slotAt s i).bound = true ∧ (slotAt s i).undef = false

/-- The levels that servicing event `k` of timer `t` writes to the pin of slot `i`: HIGH for the cycle start, LOW for
the slot's own event (60_exceptions R188, R189). -/
def eventWrites (s : State) (t : TimerId) (i k : Nat) : List Level :=
  if eventFlag s t k then
    if k = 0 then (cycleStartRule (slotAt s i)).toList
    else if k = slotEvent s.params i then (compareRule (fullScaleMinusOne s.cfg) (slotAt s i)).toList
    else []
  else []

theorem pinWrites_slotCall {s : State} {t : TimerId} {i : Nat} (h : SoleOn s t i) (rule : Slot → Option Level)
    (j : Nat) : pinWrites (slotAt s i).pin (slotCall rule s j).toList = if j = i then (rule (slotAt s i)).toList else [] := by
  obtain ⟨hunique, -, hb, hu⟩ := h
  by_cases hji : j = i
  · rw [hji, slotCall_defined hb hu, if_pos rfl]
    cases rule (slotAt s i) <;> simp [pinWrites]
  · rw [if_neg hji]
    cases hc : slotCall rule s j with
    | none => rfl
    | some c =>
      obtain ⟨hbj, l, rfl⟩ := slotCall_some hc
      simp [pinWrites, uniqueBinding_ne hunique hji hbj hb]

theorem pinWrites_slotCalls {s : State} {t : TimerId} {i : Nat} (h : SoleOn s t i) (rule : Slot → Option Level)
    {is : List Nat} (hnodup : is.Nodup) : pinWrites (slotAt s i).pin (is.filterMap (slotCall rule s)) =
      if i ∈ is then (rule (slotAt s i)).toList else [] := by
  induction is with
  | nil => rfl
  | cons j is ih =>
    obtain ⟨hj, hnodup⟩ := List.nodup_cons.mp hnodup
    have hcons : (j :: is).filterMap (slotCall rule s) =
        (slotCall rule s j).toList ++ is.filterMap (slotCall rule s) := by
      rw [List.filterMap_cons]
      cases slotCall rule s j <;> rfl
    rw [hcons, pinWrites_append, pinWrites_slotCall h, ih hnodup]
    by_cases hji : j = i
    · subst hji
      simp [hj]
    · simp [hji, Ne.symm hji]

theorem slotEvent_of_mem_slotsOf {p : Params} (hp : 1 ≤ p.nCu) {t : TimerId} {i : Nat} (h : i ∈ slotsOf p t) :
    eventSlot p t (slotEvent p i) = i := by
  obtain ⟨hi, rfl⟩ := (mem_slotsOf hp).mp h
  exact eventSlot_slotTimer_slotEvent hp hi

theorem pinWrites_serviceCalls {s : State} {t : TimerId} {i k : Nat} (hp : 1 ≤ s.params.nCu) (h : SoleOn s t i)
    (hk : k ≤ s.params.nCu) : pinWrites (slotAt s i).pin (serviceCalls t k s) = eventWrites s t i k := by
  have ⟨_, hmem, _, _⟩ := h
  unfold serviceCalls eventWrites
  rw [apply_ite (pinWrites (slotAt s i).pin)]
  refine if_congr Iff.rfl ?_ rfl
  by_cases hk0 : k = 0
  · have hcalls : pinWrites (slotAt s i).pin (cycleStartCalls t s).reverse = (cycleStartRule (slotAt s i)).toList := by
      rw [pinWrites_reverse, cycleStartCalls, pinWrites_slotCalls h _ (slotsOf_nodup _ _), if_pos hmem]
      cases cycleStartRule (slotAt s i) <;> rfl
    rw [if_pos hk0, if_pos hk0]
    exact hcalls
  · have hslot : eventSlot s.params t k = i ↔ k = slotEvent s.params i :=
      ⟨fun e => e ▸ (slotEvent_eventSlot s.params t (Nat.pos_of_ne_zero hk0) hk).symm,
        fun e => e ▸ slotEvent_of_mem_slotsOf hp hmem⟩
    rw [if_neg hk0, if_neg hk0]
    exact (pinWrites_slotCall h _ _).trans (if_congr hslot rfl rfl)

/-! ### The handler after its first events -/

/-- The levels that events below `n` write to the pin of slot `i`, the latest first. -/
def writesBelow (s : State) (t : TimerId) (i : Nat) : Nat → List Level
  | 0 => []
  | n + 1 => eventWrites s t i n ++ writesBelow s t i n

/-- Only the cycle start and the slot's own event write to its pin. -/
theorem writesBelow_eq (s : State) (t : TimerId) (i n : Nat) : writesBelow s t i n =
    (if slotEvent s.params i < n then eventWrites s t i (slotEvent s.params i) else []) ++
    (if 0 < n then eventWrites s t i 0 else []) := by
  have hpos : slotEvent s.params i ≠ 0 := slotEvent_pos s.params i
  induction n with
  | zero => rfl
  | succ n ih =>
    rw [writesBelow, ih, if_pos (Nat.succ_pos n)]
    rcases Nat.lt_trichotomy n (slotEvent s.params i) with hlt | heq | hgt
    · have hnext : ¬ slotEvent s.params i < n + 1 := Nat.not_lt.mpr hlt
      rw [if_neg (Nat.lt_asymm hlt), if_neg hnext]
      by_cases hn : n = 0
      · simp [hn]
      · have hnone : eventWrites s t i n = [] := by simp [eventWrites, hn, Nat.ne_of_lt hlt]
        rw [if_pos (Nat.pos_of_ne_zero hn), hnone]
        rfl
    · rw [if_neg (Nat.not_lt.mpr (Nat.le_of_eq heq)), if_pos (heq ▸ Nat.pos_of_ne_zero hpos),
        if_pos (heq ▸ Nat.lt_succ_self n), heq]
      rfl
    · have hn : n ≠ 0 := Nat.ne_zero_of_lt hgt
      have hnone : eventWrites s t i n = [] := by simp [eventWrites, hn, Nat.ne_of_gt hgt]
      rw [if_pos hgt, if_pos (Nat.lt_succ_of_lt hgt), if_pos (Nat.pos_of_ne_zero hn), hnone]
      rfl

theorem EnvFrame.trans {s s' s'' : State} (h : EnvFrame s s') (h' : EnvFrame s' s'') : EnvFrame s s'' where
  params := h'.params.trans h.params
  slots := h'.slots.trans h.slots
  arb := h'.arb.trans h.arb
  cfg := h'.cfg.trans h.cfg
  seq := h'.seq.trans h.seq
  resp := h'.resp.trans h.resp
  nvic := h'.nvic.trans h.nvic
  outputs := h'.outputs.trans h.outputs
  host := h'.host.trans h.host
  marks := h'.marks.trans h.marks
  regs t := by
    obtain ⟨hrun, hmode, hpresc, hwidth, hlen⟩ := h.regs t
    rw [← hrun, ← hmode, ← hpresc, ← hwidth, ← hlen]
    exact h'.regs t
  comps t k := by
    obtain ⟨hcc, hinten⟩ := h.comps t k
    rw [← hcc, ← hinten]
    exact h'.comps t k

/-- Where the timers are untouched, the frame is one of equal fields. -/
theorem envFrame_of_timers {s s' : State} (hparams : s'.params = s.params) (hslots : s'.slots = s.slots)
    (harb : s'.arb = s.arb) (hcfg : s'.cfg = s.cfg) (hseq : s'.seq = s.seq) (hresp : s'.resp = s.resp)
    (htimers : s'.timers = s.timers) (hnvic : s'.nvic = s.nvic) (houtputs : s'.gpio.outputs = s.gpio.outputs)
    (hhost : s'.host = s.host) (hmarks : s'.marks = s.marks) : EnvFrame s s' :=
  ⟨hparams, hslots, harb, hcfg, hseq, hresp, hnvic, houtputs, hhost, hmarks, by simp [htimers], by simp [htimers]⟩

/-- After a step the strobes have ended, so that beginning another leaves the port as it is. -/
theorem envFrame_counted {s s' : State} (h : EnvFrame (countStep s) s') : EnvFrame (countStep s) (countStep s') := by
  refine h.trans (envFrame_of_timers rfl rfl rfl rfl rfl ?_ rfl rfl rfl rfl rfl)
  have hresp : s'.resp = ⟨s.resp.resp, false, false⟩ := h.resp
  rw [hresp, countStep, hresp]

/-- From `s`, the handler of timer `t` has been entered and has served the events below `n`. -/
structure Served (t : TimerId) (n : Nat) (s s' : State) : Prop where
  frame : EnvFrame (countStep s) s'
  adc   : s'.adc = s.adc
  flags : ∀ u k, eventFlag s' u k = if u = t ∧ k < n then false else eventFlag s u k
  cnt   : ∀ u, (lookup s'.timers u).cnt = (lookup s.timers u).cnt
  other : ∀ u, u ≠ t → lookup s'.timers u = lookup s.timers u
  calls : ∃ calls, Drives calls s s' ∧ ∀ i, SoleOn s t i → pinWrites (slotAt s i).pin calls = writesBelow s t i n

theorem served_enter (t : TimerId) (s : State) : Served t 0 s (enterHandler t (countStep s)) where
  frame := envFrame_of_timers rfl rfl rfl rfl rfl rfl rfl rfl rfl rfl rfl
  adc := rfl
  flags u k := by simp; rfl
  cnt _ := rfl
  other _ _ := rfl
  calls := ⟨[], .none rfl rfl, fun _ _ => rfl⟩

/-- The step of event `n`. -/
theorem Served.serve {t : TimerId} {n : Nat} {s s' : State} (h : Served t n s s') (hp : 1 ≤ s.params.nCu)
    (hirq : s'.irq = ⟨some t, n⟩) (hn : n ≤ s.params.nCu) :
    Served t (n + 1) s (dispatcherTurn t (countStep s')) := by
  have hframe : EnvFrame (countStep s) (countStep s') := envFrame_counted h.frame
  have hparams : (countStep s').params = s.params := hframe.params
  have hd : DispatcherStep t (countStep s') (dispatcherTurn t (countStep s')) := dispatcherTurn_cases t (countStep s')
  have hturn : dispatcherTurn t (countStep s') = setIrqK (n + 1) (serviceEvent t n (countStep s')) :=
    dispatcherTurn_service (s := countStep s') hirq (hparams ▸ hn)
  refine ⟨hframe.trans (dispatcher_frame hd), (dispatcher_adc hd).trans h.adc, fun u k => ?_,
    fun u => (hd.cnt u).trans (h.cnt u), fun u hu => (hd.otherTimer hu).trans (h.other u hu), ?_⟩
  · rw [hturn]
    refine (eventFlag_serviceEvent t u n k (countStep s')).trans ?_
    have hflag : eventFlag (countStep s') u k = if u = t ∧ k < n then false else eventFlag s u k := h.flags u k
    rw [hflag]
    by_cases hut : u = t
    · rcases Nat.lt_trichotomy k n with hk | hk | hk
      · simp [hut, hk, Nat.lt_succ_of_lt hk]
      · simp [hut, hk]
      · simp [Nat.ne_of_gt hk, show ¬ k < n by omega, show ¬ k < n + 1 by omega]
    · simp [hut]
  · obtain ⟨calls, hdrives, hwrites⟩ := h.calls
    have hservice : Drives (serviceCalls t n (countStep s')) s' (dispatcherTurn t (countStep s')) := by
      have ⟨htrace, hlevel⟩ := drives_serviceEvent t n (countStep s')
      rw [hturn]
      exact ⟨htrace, hlevel⟩
    refine ⟨_, hdrives.trans hservice, fun i hi => ?_⟩
    have hslot : slotAt (countStep s') i = slotAt s i := slotAt_eq hframe.slots i
    have hsole : SoleOn (countStep s') t i := by
      rw [SoleOn, UniqueBinding, hframe.slots, hparams, hslot]
      exact hi
    have hevent : eventWrites (countStep s') t i n = eventWrites s t i n := by
      have hflag : eventFlag (countStep s') t n = eventFlag s t n := (h.flags t n).trans (by simp)
      have hcfg : (countStep s').cfg = s.cfg := hframe.cfg
      simp only [eventWrites, hflag, hslot, hparams, hcfg]
    rw [pinWrites_append, hwrites i hi, writesBelow, ← hslot, ← hevent,
      pinWrites_serviceCalls (hparams ▸ hp) hsole (hparams ▸ hn)]

/-- The handler's return. -/
theorem Served.leave {t : TimerId} {n : Nat} {s s' : State} (h : Served t n s s') :
    Served t n s (leaveHandler (countStep s')) where
  frame := (envFrame_counted h.frame).trans (envFrame_of_timers rfl rfl rfl rfl rfl rfl rfl rfl rfl rfl rfl)
  adc := h.adc
  flags := h.flags
  cnt := h.cnt
  other := h.other
  calls := by
    obtain ⟨calls, ⟨htrace, hlevel⟩, hwrites⟩ := h.calls
    exact ⟨calls, ⟨htrace, hlevel⟩, hwrites⟩

/-- The entry and the steps of the events below `n`. -/
theorem run_served {t : TimerId} {s : State} (hp : 1 ≤ s.params.nCu) (henter : entryEnabled s t = true) {n : Nat}
    (hn : n ≤ s.params.nCu + 1) : ∃ s', TurnsRun (List.replicate (n + 1) (.dispatcher t)) s s' ∧
      s'.irq = ⟨some t, n⟩ ∧ Served t n s s' := by
  induction n with
  | zero =>
    have hturn : dispatcherTurn t (countStep s) = enterHandler t (countStep s) :=
      dispatcherTurn_enter (s := countStep s) henter
    exact ⟨_, hturn ▸ TurnsRun.dispatcher t s, rfl, served_enter t s⟩
  | succ n ih =>
    obtain ⟨s', hrun, hirq, hserved⟩ := ih (by omega)
    have hle : n ≤ s.params.nCu := by omega
    have hparams : s'.params = s.params := hserved.frame.params
    refine ⟨_, ?_, ?_, hserved.serve hp hirq hle⟩
    · rw [List.replicate_succ']
      exact hrun.trans (.dispatcher t s')
    · have hirq' : (countStep s').irq = ⟨some t, n⟩ := hirq
      rw [dispatcherTurn_service hirq' (hparams ▸ hle)]
      simp [hirq']

/-- A whole invocation, from the entry to the return. -/
theorem run_invocation {t : TimerId} {s : State} (hp : 1 ≤ s.params.nCu) (henter : entryEnabled s t = true) :
    ∃ s', TurnsRun (List.replicate (s.params.nCu + 3) (.dispatcher t)) s s' ∧
      s'.irq = ⟨none, s.params.nCu + 1⟩ ∧ Served t (s.params.nCu + 1) s s' := by
  obtain ⟨s', hrun, hirq, hserved⟩ := run_served hp henter (Nat.le_refl _)
  have hparams : s'.params = s.params := hserved.frame.params
  have hreturn : dispatcherTurn t (countStep s') = leaveHandler (countStep s') :=
    dispatcherTurn_return (s := countStep s') (congrArg Dispatcher.active hirq)
      (by simp [countStep, hirq, hparams])
  refine ⟨leaveHandler (countStep s'), ?_, ?_, hserved.leave⟩
  · rw [List.replicate_succ', ← hreturn]
    exact hrun.trans (.dispatcher t s')
  · simp [leaveHandler, countStep, hirq]

/-- After all its events every flag of the timer is clear: an index past `N_CU` names no comparator. -/
theorem Served.flags_clear {t : TimerId} {s s' : State} (h : Served t (s.params.nCu + 1) s s') (hs : ShapeLegal s)
    (k : Nat) : eventFlag s' t k = false := by
  rw [h.flags]
  by_cases hk : k < s.params.nCu + 1
  · simp [hk]
  · have hout : (lookup s.timers t).comps.length ≤ k := by rw [comps_length hs]; omega
    simp [hk, eventFlag, compAt, hout, Comparator.launch]

/-- Settles O41: the invocation is the entry, the steps of its events and the return, and `Served` says what they do. -/
theorem handlerCompletes : Obligations.HandlerCompletes := by
  intro s t hs henter
  have ⟨hwf, _⟩ := hs
  have hp := nCu_pos hwf
  constructor
  · intro n hpos hn
    obtain ⟨m, rfl⟩ := Nat.exists_eq_succ_of_ne_zero (Nat.ne_of_gt hpos)
    obtain ⟨s', hrun, hirq, -⟩ := run_served hp henter (n := m) (by omega)
    exact ⟨_, hrun.runTurns, congrArg Dispatcher.active hirq⟩
  · obtain ⟨s', hrun, hirq, hserved⟩ := run_invocation hp henter
    have hf := hserved.frame
    exact ⟨_, hrun.runTurns, hirq, hserved.flags_clear hs, hserved.other, hf.slots, hf.arb, hf.cfg, hf.seq, hf.nvic,
      hserved.adc, hf.outputs⟩

/-! ### A late handler -/

/-- Over a whole invocation a slot's pin is written for the cycle start and then for the slot's own event. -/
theorem writesBelow_invocation {s : State} (hp : 1 ≤ s.params.nCu) (t : TimerId) (i : Nat) :
    writesBelow s t i (s.params.nCu + 1) =
      eventWrites s t i (slotEvent s.params i) ++ eventWrites s t i 0 := by
  rw [writesBelow_eq, if_pos (Nat.lt_succ_of_le (slotEvent_le hp i)), if_pos (Nat.succ_pos _)]

theorem eventWrites_start {s : State} {t : TimerId} {i : Nat} (h : eventFlag s t 0 = true) :
    eventWrites s t i 0 = if (slotAt s i).duty = 0#32 then [] else [.high] := by
  rw [eventWrites, if_pos h, if_pos rfl, cycleStartRule]
  split <;> rfl

theorem eventWrites_match {s : State} {t : TimerId} {i : Nat} (h : eventFlag s t (slotEvent s.params i) = true) :
    eventWrites s t i (slotEvent s.params i) =
      if (slotAt s i).duty = fullScaleMinusOne s.cfg then [] else [.low] := by
  rw [eventWrites, if_pos h, if_neg (slotEvent_pos _ _), if_pos rfl, compareRule]
  split <;> rfl

theorem eventWrites_clear {s : State} {t : TimerId} {i k : Nat} (h : eventFlag s t k = false) :
    eventWrites s t i k = [] := by
  simp [eventWrites, h]

/-- Full-scale-minus-one is odd, so it is not 0. -/
theorem fullScaleMinusOne_ne_zero (c : ResConfig) : fullScaleMinusOne c ≠ 0#32 := by
  unfold fullScaleMinusOne
  bv_omega

/-- Settles O42: of the invocation's writes those to the slot's pin are the HIGH of the cycle start and the LOW of its
own event, and the last of them is the level. -/
theorem lateHandlerEndsLow : Obligations.LateHandlerEndsLow := by
  intro s t i hs hunique henter hi ht hb hu hstart hmatch
  dsimp only
  have ⟨hwf, _⟩ := hs
  have hp := nCu_pos hwf
  obtain ⟨s', hrun, -, hserved⟩ := run_invocation hp henter
  obtain ⟨calls, hdrives, hwrites⟩ := hserved.calls
  have hcalls := (hwrites i ⟨hunique, (mem_slotsOf hp).mpr ⟨hi, ht⟩, hb, hu⟩).trans (writesBelow_invocation hp t i)
  rw [eventWrites_start hstart, eventWrites_match hmatch] at hcalls
  have hlevel : levelOf (withSched [] s') (slotAt s i).pin =
      (pinWrites (slotAt s i).pin calls).head?.getD (levelOf s (slotAt s i).pin) := hdrives.level _
  rw [hcalls] at hlevel
  refine ⟨_, calls, hrun.runTurns, hdrives.trace, ?_, hlevel.trans ?_⟩
  · rw [hcalls, List.reverse_append]
    exact congrArg₂ (· ++ ·) (apply_ite List.reverse _ _ _) (apply_ite List.reverse _ _ _)
  · change _ = if (slotAt s i).duty = fullScaleMinusOne s.cfg then _ else _
    by_cases hd : (slotAt s i).duty = fullScaleMinusOne s.cfg
    · have hne : (slotAt s i).duty ≠ 0#32 := hd ▸ fullScaleMinusOne_ne_zero s.cfg
      simp [hd, hd ▸ hne]
    · simp [hd]

end Sys2Proof.Machine
end

section
/-! SUPPORT. What the consumed devices do by themselves: the timer's tick and the completion of a conversion
(60_exceptions R198, R201). -/

namespace Sys2Proof.Machine

/-! ### The timer's tick -/

theorem step_tick {s : State} {t : TimerId} (h : nextTurn s = .tick t) : step s = .next (tickTurn t (beginStep s)) := by
  rw [step, h]
  rfl

theorem tickTurn_stopped {s : State} {t : TimerId} (h : (lookup s.timers t).run = false) : tickTurn t s = s := by
  simp [tickTurn, h]

theorem tickTurn_running {s : State} {t : TimerId} (h : (lookup s.timers t).run = true) :
    tickTurn t s = setTimer t tickRegs s := by
  simp [tickTurn, h]

/-- The counter counts modulo `2^T_BITMODE`, which fits its 16 bits. -/
theorem toNat_nextCount (r : TimerRegs) : (nextCount r).toNat = (r.cnt.toNat + 1) % widthModulus r.bitMode := by
  have hlt := Nat.mod_lt (r.cnt.toNat + 1) (widthModulus_pos r.bitMode)
  have hle := widthModulus_le r.bitMode
  rw [nextCount, BitVec.toNat_ofNat, Nat.mod_eq_of_lt (by omega)]

theorem compAt_tickRegs_eq {r : TimerRegs} {k : Nat} (h : k < r.comps.length) : compAt (tickRegs r) k =
    { compAt r k with
      ev := (compAt r k).ev || decide ((nextCount r).toNat = (compAt r k).cc.toNat % widthModulus r.bitMode) } := by
  have hmap : compAt (tickRegs r) k = raiseMatches r.bitMode (nextCount r) (compAt r k) := by
    simp [compAt, tickRegs, h]
  rw [hmap, raiseMatches, compareMatches]
  by_cases hc : (nextCount r).toNat = (compAt r k).cc.toNat % widthModulus r.bitMode <;> simp [hc]

/-- Settles O45: a tick of a running timer is `tickRegs` on its registers. -/
theorem timerTick : Obligations.TimerTick := by
  intro s u hturn
  rw [step_tick hturn]
  refine ⟨fun hrun => ?_, fun hrun => ?_⟩
  · rw [tickTurn_stopped (s := beginStep s) hrun]
  · rw [tickTurn_running (s := beginStep s) hrun]
    have hregs : lookup (setTimer u tickRegs (beginStep s)).timers u = tickRegs (lookup s.timers u) := by simp
    refine ⟨_, rfl, rfl, fun v hv => by simp [hv.symm], ?_⟩
    dsimp only
    rw [hregs]
    exact ⟨toNat_nextCount _, rfl, List.length_map _, fun k hk => compAt_tickRegs_eq hk⟩

/-! ### The completion of a conversion -/

theorem step_adcComplete {s : State} {raw : Word} (h : nextTurn s = .adcComplete raw) :
    step s = .next (adcCompleteTurn raw (beginStep s)) := by
  rw [step, h]
  rfl

theorem toNat_drawBelow (n raw : Word) : (drawBelow n raw).toNat = raw.toNat % 2 ^ n.toNat := by
  have hle := Nat.mod_le raw.toNat (2 ^ n.toNat)
  rw [drawBelow, BitVec.toNat_ofNat, Nat.mod_eq_of_lt (by omega)]

/-- Settles O46: the word codes the resolution it was packed for, and the draw is below that. -/
theorem adcCompletes : Obligations.AdcCompletes := by
  intro s raw n a f hturn hp hn ha hf hcfg
  rw [step_adcComplete hturn]
  have hn' : s.params.adcRes.any (fun e => e.bits == n) = true := by simpa using hn
  have hresolution : configuredResolution s.params s.adc.cfg = some n :=
    hcfg ▸ configuredResolution_adcCfgPack hp ha hn' hf
  refine ⟨fun hbusy => by simp [adcCompleteTurn, hbusy], fun hbusy => ⟨drawBelow n raw, toNat_drawBelow n raw, ?_⟩⟩
  simp [adcCompleteTurn, hbusy, conversionResult, hresolution]

end Sys2Proof.Machine
end

section
/-! SUPPORT. Who sets and who clears an event flag (60_exceptions R184). -/

namespace Sys2Proof.Machine

theorem eventFlag_of_timers {s s' : State} (h : s'.timers = s.timers) (u : TimerId) (k : Nat) :
    eventFlag s' u k = eventFlag s u k := by
  simp [eventFlag, h]

theorem foregroundStep_eventFlag {s s' : State} (h : ForegroundStep s s') (u : TimerId) (k : Nat) :
    eventFlag s' u k = eventFlag s u k := by
  rcases foregroundStep_tables h with ⟨htimers, -⟩ | ⟨l, -, hwrite⟩
  · exact eventFlag_of_timers htimers u k
  · exact (writeStep_devices hwrite).timers.eventFlag u k

/-- A turn of the dispatcher of timer `t` leaves every flag but that of the event its handler serves. -/
theorem dispatcherStep_eventFlag {t : TimerId} {s s' : State} (h : DispatcherStep t s s') (u : TimerId) (k : Nat) :
    eventFlag s' u k = eventFlag s u k ∨ (eventFlag s' u k = false ∧ s.irq = ⟨some t, k⟩ ∧ u = t) := by
  cases h with
  | none | enter | leave => exact .inl rfl
  | service hactive hk =>
    have hflag : eventFlag (setIrqK (s.irq.k + 1) (serviceEvent t s.irq.k s)) u k =
        if u = t ∧ k = s.irq.k then false else eventFlag s u k := eventFlag_serviceEvent t u s.irq.k k s
    rw [hflag]
    split
    case isTrue hserved => exact .inr ⟨rfl, by rw [hserved.2, ← hactive], hserved.1⟩
    case isFalse => exact .inl rfl

/-- A tick of a running timer raises the flags of the comparators that its counter reaches. -/
theorem eventFlag_tick {t : TimerId} {k : Nat} {s : State} (hrun : (lookup s.timers t).run = true)
    (hk : k < (lookup s.timers t).comps.length) : eventFlag (tickTurn t s) t k = (eventFlag s t k ||
      decide ((lookup (tickTurn t s).timers t).cnt.toNat =
        (compAt (lookup s.timers t) k).cc.toNat % widthModulus (lookup s.timers t).bitMode)) := by
  have hregs : lookup (tickTurn t s).timers t = tickRegs (lookup s.timers t) := by simp [tickTurn_running hrun]
  rw [eventFlag, hregs, compAt_tickRegs_eq hk]
  rfl

/-- A tick leaves every other flag. -/
theorem tickTurn_eventFlag (t u : TimerId) (k : Nat) (s : State) : eventFlag (tickTurn t s) u k = eventFlag s u k ∨
    (eventFlag (tickTurn t s) u k = true ∧ u = t ∧ (lookup s.timers t).run = true ∧
      (lookup (tickTurn t s).timers t).cnt.toNat =
        (compAt (lookup s.timers t) k).cc.toNat % widthModulus (lookup s.timers t).bitMode) := by
  cases hrun : (lookup s.timers t).run with
  | false => exact .inl (by rw [tickTurn_stopped hrun])
  | true =>
    by_cases hut : u = t
    · subst hut
      by_cases hk : k < (lookup s.timers u).comps.length
      · rw [eventFlag_tick hrun hk]
        by_cases hc : (lookup (tickTurn u s).timers u).cnt.toNat =
            (compAt (lookup s.timers u) k).cc.toNat % widthModulus (lookup s.timers u).bitMode <;> simp [hc]
      · left
        simp [tickTurn_running hrun, eventFlag, compAt, tickRegs, hk]
    · left
      simp [tickTurn_running hrun, eventFlag, Ne.symm hut]

/-- The completion of a conversion and, under the reference timer, the environment's other moves leave the timers. -/
theorem timers_of_otherTurn {s : State} (href : s.params.eventModel = .reference) :
    (∀ raw, (adcCompleteTurn raw s).timers = s.timers) ∧ (∀ t k, (timerEventTurn t k s).timers = s.timers) ∧
    (∀ i l, (undefinedPinTurn i l s).timers = s.timers) := by
  refine ⟨fun raw => ?_, fun t k => ?_, fun i l => ?_⟩
  · unfold adcCompleteTurn
    split <;> rfl
  · simp [timerEventTurn, href]
  · unfold undefinedPinTurn
    dsimp only
    split <;> rfl

/-- What a step can do to an event flag under the reference timer: nothing; clear it, by the handler's step of the
event; raise it, by the timer's tick. -/
theorem step_eventFlag {s t : State} (h : step s = .next t) (href : s.params.eventModel = .reference) (u : TimerId)
    (k : Nat) : eventFlag t u k = eventFlag s u k ∨
      (eventFlag t u k = false ∧ nextTurn s = .dispatcher u ∧ s.irq = ⟨some u, k⟩) ∨
      (eventFlag t u k = true ∧ nextTurn s = .tick u ∧ (lookup s.timers u).run = true ∧
        (lookup t.timers u).cnt.toNat =
          (compAt (lookup s.timers u) k).cc.toNat % widthModulus (lookup s.timers u).bitMode) := by
  obtain ⟨hadc, htimer, hpin⟩ := timers_of_otherTurn (s := beginStep s) href
  unfold step takeTurn at h
  split at h
  case h_1 => exact .inl (foregroundStep_eventFlag (foregroundTurn_cases h) u k)
  case h_2 v hturn =>
    cases h
    rcases dispatcherStep_eventFlag (dispatcherTurn_cases v (beginStep s)) u k with hsame | ⟨hclear, hirq, rfl⟩
    · exact .inl hsame
    · exact .inr (.inl ⟨hclear, hturn, hirq⟩)
  case h_3 v hturn =>
    cases h
    rcases tickTurn_eventFlag v u k (beginStep s) with hsame | ⟨hset, rfl, hrun, hcnt⟩
    · exact .inl hsame
    · exact .inr (.inr ⟨hset, hturn, hrun, hcnt⟩)
  case h_4 raw _ => cases h; exact .inl (eventFlag_of_timers (hadc raw) u k)
  case h_5 v j _ => cases h; exact .inl (eventFlag_of_timers (htimer v j) u k)
  case h_6 i l _ => cases h; exact .inl (eventFlag_of_timers (hpin i l) u k)

/-- Settles O44: `step_eventFlag` leaves the tick where a flag is raised and the handler's step where one is cleared,
and both do so. -/
theorem eventFlags : Obligations.EventFlags := by
  intro s t u k hstep href
  refine ⟨fun hclear hset => ?_, fun hset hclear => ?_, fun hturn hrun hk hcnt => ?_, fun hturn hirq hk => ?_⟩
  · rcases step_eventFlag hstep href u k with hsame | ⟨hno, -⟩ | ⟨-, htick⟩
    · simp [hsame, hclear] at hset
    · simp [hno] at hset
    · exact htick
  · rcases step_eventFlag hstep href u k with hsame | ⟨-, hhandler⟩ | ⟨hno, -⟩
    · simp [hsame, hset] at hclear
    · exact hhandler
    · simp [hno] at hclear
  · rw [step_tick hturn] at hstep
    cases hstep
    rw [eventFlag_tick (s := beginStep s) hrun hk, Bool.or_eq_true]
    exact .inr (decide_eq_true hcnt)
  · obtain ⟨s', hstep', -, -, hflags⟩ := step_service hturn hirq hk
    cases hstep.symm.trans hstep'
    simp [hflags]

end Sys2Proof.Machine
end

section
/-! SUPPORT. The PWM waveform of a bound slot, tick by tick, each tick serviced (60_exceptions R196). -/

namespace Sys2Proof.Machine

/-! ### The interrupt serviced, or none pending -/

/-- Turns of the dispatcher that find no entry enabled leave everything but the strobes and the step number. -/
def waited (n : Nat) (s : State) : State :=
  { s with resp := ⟨s.resp.resp, false, false⟩, steps := s.steps + n }

theorem TurnsRun.wait {t : TimerId} {s : State} (hactive : s.irq.active = none) (hno : entryEnabled s t = false) :
    TurnsRun [.dispatcher t] s (waited 1 s) := by
  have hrun := TurnsRun.dispatcher t s
  rwa [dispatcherTurn_notEnabled (s := countStep s) hactive hno] at hrun

theorem run_waits {t : TimerId} {s : State} (hactive : s.irq.active = none) (hno : entryEnabled s t = false) (n : Nat) :
    TurnsRun (List.replicate (n + 1) (.dispatcher t)) s (waited (n + 1) s) := by
  induction n with
  | zero => exact .wait hactive hno
  | succ n ih =>
    rw [List.replicate_succ']
    exact ih.trans (.wait (s := waited (n + 1) s) hactive hno)

/-- From `s`, the interrupt of timer `t` has been serviced, if pending, and the pin of slot `i` written for its
events. -/
structure Attended (t : TimerId) (i : Nat) (s s' : State) : Prop where
  frame : EnvFrame (countStep s) s'
  irq   : s'.irq.active = none ∧ s'.irq.k ≤ s.params.nCu + 1
  cnt   : (lookup s'.timers t).cnt = (lookup s.timers t).cnt
  flags : eventFlag s' t 0 = false ∧ eventFlag s' t (slotEvent s.params i) = false
  level : levelOf s' (slotAt s i).pin =
    (eventWrites s t i (slotEvent s.params i) ++ eventWrites s t i 0).head?.getD (levelOf s (slotAt s i).pin)

/-- With its two interrupt enables set, a slot whose timer has an event of the slot outstanding has an interrupt
pending; so either the handler runs, or the slot has no event outstanding. -/
theorem run_attended {t : TimerId} {i : Nat} {s : State} (hs : ShapeLegal s) (hsole : SoleOn s t i)
    (hactive : s.irq.active = none) (hen : (lookup s.nvic t).en = true) (hstart : eventEnabled s t 0 = true)
    (hmatch : eventEnabled s t (slotEvent s.params i) = true) :
    ∃ s', TurnsRun (List.replicate (s.params.nCu + 3) (.dispatcher t)) s s' ∧ Attended t i s s' := by
  have ⟨hwf, _, _, hk⟩ := hs
  have hp := nCu_pos hwf
  cases henter : entryEnabled s t with
  | true =>
    obtain ⟨s', hrun, hirq, hserved⟩ := run_invocation hp henter
    obtain ⟨calls, hdrives, hwrites⟩ := hserved.calls
    refine ⟨s', hrun, hserved.frame, by simp [hirq], hserved.cnt t,
      ⟨hserved.flags_clear hs 0, hserved.flags_clear hs _⟩, ?_⟩
    rw [hdrives.level, hwrites i hsole, writesBelow_invocation hp]
  | false =>
    have hclear {k : Nat} (hle : k ≤ s.params.nCu) (henabled : eventEnabled s t k = true) :
        eventFlag s t k = false := by
      by_contra hflag
      have hpending := entryEnabled_iff.mpr ⟨hactive, hen, k, hle, by simpa using hflag, henabled⟩
      exact absurd (henter.symm.trans hpending) (by decide)
    have hflags := And.intro (hclear (Nat.zero_le _) hstart) (hclear (slotEvent_le hp i) hmatch)
    refine ⟨waited (s.params.nCu + 3) s, run_waits hactive henter _,
      envFrame_of_timers rfl rfl rfl rfl rfl rfl rfl rfl rfl rfl rfl,
      ⟨hactive, hk⟩, rfl, hflags, ?_⟩
    rw [eventWrites_clear hflags.1, eventWrites_clear hflags.2]
    rfl

/-! ### The level within a cycle -/

/-- The level at the counter value `c` of a cycle of `m` ticks for the duty `d` (60_exceptions R196). -/
def waveAt (c d m : Nat) : Level := if c < d ∨ d + 1 = m then .high else .low

theorem waveAt_eq_high {c d m : Nat} : waveAt c d m = .high ↔ c < d ∨ d + 1 = m := by
  unfold waveAt
  split
  case isTrue h => exact iff_of_true rfl h
  case isFalse h => exact iff_of_false (by decide) h

/-- One tick: the writes at the cycle start and at the match, if any, take the level along the waveform, and the write
at the cycle start takes it there from any level. -/
theorem waveAt_next {c d m : Nat} {l : Level} (hc : c < m) (hd0 : 0 < d)
    (hl : l = waveAt c d m ∨ (c + 1) % m = 0) :
    ((if (c + 1) % m = d ∧ d + 1 ≠ m then [Level.low] else []) ++
      (if (c + 1) % m = 0 then [Level.high] else [])).head?.getD l = waveAt ((c + 1) % m) d m := by
  by_cases hwrap : c + 1 = m
  · simp [waveAt, hwrap, Nat.ne_of_lt hd0, hd0]
  · have hnext : (c + 1) % m = c + 1 := Nat.mod_eq_of_lt (by omega)
    rw [hnext] at hl ⊢
    have hl : l = waveAt c d m := hl.resolve_right (Nat.succ_ne_zero c)
    by_cases hfull : d + 1 = m
    · simp [hl, waveAt, hfull]
    · by_cases hmatch : c + 1 = d
      · simp [waveAt, hfull, hmatch]
      · have hiff : c < d ↔ c + 1 < d := by omega
        simp [hl, waveAt, hfull, hmatch, hiff]

theorem toNat_fullScaleMinusOne {s : State} (h : ConfigLegal s) :
    (fullScaleMinusOne s.cfg).toNat + 1 = widthModulus s.cfg.bitWidth := by
  rw [fullScaleMinusOne_eq h]
  cases s.cfg.bitWidth <;> rfl

/-! ### One serviced tick -/

theorem tickTurn_withSched (ts : List Turn) (t : TimerId) (s : State) :
    tickTurn t (withSched ts s) = withSched ts (tickTurn t s) := by
  unfold tickTurn
  rw [apply_ite (withSched ts)]
  rfl

theorem TurnsRun.tick (t : TimerId) (s : State) : TurnsRun [.tick t] s (tickTurn t (countStep s)) :=
  fun ts => runTurns_cons (congrArg Host.Outcome.next (tickTurn_withSched ts t (countStep s)))

/-- What one serviced tick of timer `t` does to the slot `i` that it serves. -/
structure PwmStep (i : Nat) (t : TimerId) (s s' : State) : Prop where
  ready  : PwmReady s' i t
  slots  : s'.slots = s.slots
  params : s'.params = s.params
  width  : (lookup s'.timers t).bitMode = (lookup s.timers t).bitMode
  cnt    : (lookup s'.timers t).cnt.toNat =
    ((lookup s.timers t).cnt.toNat + 1) % widthModulus (lookup s.timers t).bitMode
  level  : levelOf s (slotAt s i).pin = waveLevel s i t ∨ (lookup s'.timers t).cnt.toNat = 0 →
    levelOf s' (slotAt s i).pin = waveLevel s' i t

/-- The state after a tick of timer `t`. -/
def ticked (t : TimerId) (s : State) : State := tickTurn t (countStep s)

theorem ticked_frame (t : TimerId) (s : State) : EnvFrame (countStep s) (ticked t s) := tick_frame t (countStep s)

theorem toNat_cnt_ticked {t : TimerId} {s : State} (hrun : (lookup s.timers t).run = true) :
    (lookup (ticked t s).timers t).cnt.toNat =
      ((lookup s.timers t).cnt.toNat + 1) % widthModulus (lookup s.timers t).bitMode := by
  have hregs : lookup (ticked t s).timers t = tickRegs (lookup s.timers t) := by
    rw [ticked, tickTurn_running (s := countStep s) hrun]
    simp [countStep]
  rw [hregs]
  exact toNat_nextCount _

/-- The tick raises the cycle-start flag at 0 and the slot's own flag at its duty. -/
theorem PwmReady.flags_ticked {s : State} {i : Nat} {t : TimerId} (h : PwmReady s i t) :
    eventFlag (ticked t s) t 0 = decide ((lookup (ticked t s).timers t).cnt.toNat = 0) ∧
    eventFlag (ticked t s) t (slotEvent s.params i) =
      decide ((lookup (ticked t s).timers t).cnt.toNat = dutyOf s i) := by
  obtain ⟨⟨hs, -⟩, ⟨-, rfl, -⟩, ⟨hrun, -⟩, ⟨harmed, hprogrammed⟩, ⟨-, hd⟩, hstart, hmatch⟩ := h
  have ⟨hwf, _⟩ := hs
  have hlen := comps_length hs (slotTimer s.params i)
  have hle := slotEvent_le (nCu_pos hwf) i
  obtain ⟨hcc0, -⟩ := cycleStartArmed_iff.mp harmed
  obtain ⟨hcc, -⟩ := compareProgrammed_iff.mp hprogrammed
  have hflag {k : Nat} (hk : k ≤ s.params.nCu) (hclear : eventFlag s (slotTimer s.params i) k = false) :
      eventFlag (ticked (slotTimer s.params i) s) (slotTimer s.params i) k =
        decide ((lookup (ticked (slotTimer s.params i) s).timers (slotTimer s.params i)).cnt.toNat =
          (compAt (lookup s.timers (slotTimer s.params i)) k).cc.toNat %
            widthModulus (lookup s.timers (slotTimer s.params i)).bitMode) := by
    have htick := eventFlag_tick (s := countStep s) (k := k) hrun (show _ < _ from hlen ▸ Nat.lt_succ_of_le hk)
    have hclear' : eventFlag (countStep s) (slotTimer s.params i) k = false := hclear
    rw [hclear', Bool.false_or] at htick
    exact htick
  constructor
  · rw [hflag (Nat.zero_le _) hstart, hcc0]
    simp
  · have hmod : (slotAt s i).duty.toNat % widthModulus (lookup s.timers (slotTimer s.params i)).bitMode = dutyOf s i :=
      Nat.mod_eq_of_lt hd
    rw [hflag hle hmatch, hcc, hmod]

/-- The writes that servicing the events of the tick makes to the slot's pin. -/
theorem PwmReady.writes_ticked {s : State} {i : Nat} {t : TimerId} (h : PwmReady s i t) :
    eventWrites (ticked t s) t i 0 = (if (lookup (ticked t s).timers t).cnt.toNat = 0 then [.high] else []) ∧
    eventWrites (ticked t s) t i (slotEvent s.params i) =
      if (lookup (ticked t s).timers t).cnt.toNat = dutyOf s i ∧
        dutyOf s i + 1 ≠ widthModulus (lookup s.timers t).bitMode then [.low] else [] := by
  obtain ⟨hstart, hmatch⟩ := h.flags_ticked
  obtain ⟨⟨-, hcfg, -⟩, -, ⟨-, hwidth, -⟩, -, ⟨hd0, -⟩, -⟩ := h
  have hframe := ticked_frame t s
  have hparams : (ticked t s).params = s.params := hframe.params
  have hslot : slotAt (ticked t s) i = slotAt s i := slotAt_eq hframe.slots i
  have hcfg' : (ticked t s).cfg = s.cfg := hframe.cfg
  have hduty : (slotAt s i).duty ≠ 0#32 := fun e => by simp [dutyOf, e] at hd0
  have hfull : (slotAt s i).duty = fullScaleMinusOne s.cfg ↔
      dutyOf s i + 1 = widthModulus (lookup s.timers t).bitMode := by
    rw [hwidth, ← toNat_fullScaleMinusOne hcfg, Nat.add_right_cancel_iff, dutyOf, BitVec.toNat_inj]
  constructor
  · simp [eventWrites, hstart, hslot, cycleStartRule, hduty]
  · simp only [eventWrites, hparams, hmatch, hslot, hcfg', compareRule, if_neg (slotEvent_pos s.params i), hfull]
    by_cases hc : (lookup (ticked t s).timers t).cnt.toNat = dutyOf s i <;>
      by_cases hf : dutyOf s i + 1 = widthModulus (lookup s.timers t).bitMode <;> simp [hc, hf]

/-- The premises of 60_exceptions R196 outlast any steps of other agents than the foreground sequencer that leave the
counter in range, no handler executing and neither of the two events outstanding. -/
theorem PwmReady.keep {s s' : State} {i : Nat} {t : TimerId} (h : PwmReady s i t) (hf : EnvFrame (countStep s) s')
    (hirq : s'.irq.active = none ∧ s'.irq.k ≤ s.params.nCu + 1)
    (hcnt : (lookup s'.timers t).cnt.toNat < widthModulus (lookup s.timers t).bitMode)
    (hflags : eventFlag s' t 0 = false ∧ eventFlag s' t (slotEvent s.params i) = false) : PwmReady s' i t := by
  obtain ⟨⟨hs, hcfg, hunique, -⟩, ⟨hi, ht, hb, hu⟩, ⟨hrun, hwidth, -, hen⟩, ⟨harmed, hprogrammed⟩, hd, -⟩ := h
  have hparams : s'.params = s.params := hf.params
  have hslot : slotAt s' i = slotAt s i := slotAt_eq hf.slots i
  have hcfg' : s'.cfg = s.cfg := hf.cfg
  have hnvic : s'.nvic = s.nvic := hf.nvic
  obtain ⟨hrun', -, -, hwidth', -⟩ := hf.regs t
  have hwidth' : (lookup s'.timers t).bitMode = (lookup s.timers t).bitMode := hwidth'
  refine ⟨⟨hf.shape hirq.2 hs, configLegal_of_eq hcfg' hcfg, hf.sameTables.uniqueBinding hunique, hirq.1⟩, ?_,
    ⟨hrun'.trans hrun, ?_, ?_, ?_⟩, ⟨(hf.sameTables.cycleStartArmed t).trans harmed,
    (hf.sameTables.compareProgrammed i).trans hprogrammed⟩, ?_, ?_⟩
  · rw [hparams, hslot]
    exact ⟨hi, ht, hb, hu⟩
  · rw [hwidth', hcfg', hwidth]
  · rw [hwidth']
    exact hcnt
  · rw [hnvic, hen]
  · rw [dutyOf, hslot, hwidth']
    exact hd
  · rw [hparams]
    exact hflags

/-- The turns of the dispatcher after the tick service it. -/
theorem PwmReady.run_ticked {s : State} {i : Nat} {t : TimerId} (h : PwmReady s i t) :
    ∃ s', TurnsRun (List.replicate (s.params.nCu + 3) (.dispatcher t)) (ticked t s) s' ∧
      Attended t i (ticked t s) s' := by
  obtain ⟨⟨hs, -, hunique, hactive⟩, ⟨hi, ht, hb, hu⟩, ⟨-, -, -, hen⟩, ⟨harmed, hprogrammed⟩, -⟩ := h
  have ⟨hwf, _, _, hk⟩ := hs
  obtain ⟨-, hstart⟩ := cycleStartArmed_iff.mp harmed
  obtain ⟨-, hmatch⟩ := compareProgrammed_iff.mp hprogrammed
  have hframe := ticked_frame t s
  have hparams : (ticked t s).params = s.params := hframe.params
  have hslot : slotAt (ticked t s) i = slotAt s i := slotAt_eq hframe.slots i
  have hirq : (ticked t s).irq = s.irq := tickTurn_irq t (countStep s)
  have hnvic : (ticked t s).nvic = s.nvic := hframe.nvic
  have henabled (k : Nat) : eventEnabled (ticked t s) t k = eventEnabled s t k := (hframe.comps t k).2
  have hsole : SoleOn (ticked t s) t i := by
    rw [SoleOn, hparams, hslot]
    exact ⟨hframe.sameTables.uniqueBinding hunique, (mem_slotsOf (nCu_pos hwf)).mpr ⟨hi, ht⟩, hb, hu⟩
  rw [← hparams]
  refine run_attended (hframe.shape (by rw [hirq]; exact hk) hs) hsole (by rw [hirq, hactive]) (by rw [hnvic, hen])
    ((henabled 0).trans hstart) ?_
  rw [henabled, hparams]
  exact ht ▸ hmatch

/-- A tick and the turns of the dispatcher that service it. -/
theorem run_pwmStep {s : State} {i : Nat} {t : TimerId} (h : PwmReady s i t) :
    ∃ s', TurnsRun (servicedTick s.params t) s s' ∧ PwmStep i t s s' := by
  obtain ⟨s', hrun, hattended⟩ := h.run_ticked
  obtain ⟨hstart, hmatch⟩ := h.writes_ticked
  have ⟨_, _, ⟨hrunning, _, hlt, _⟩, _, ⟨hd0, _⟩, _⟩ := h
  have hparams : (ticked t s).params = s.params := (ticked_frame t s).params
  have hslot : slotAt (ticked t s) i = slotAt s i := slotAt_eq (ticked_frame t s).slots i
  have hgpio : (ticked t s).gpio = s.gpio := tickTurn_gpio t (countStep s)
  have hframe : EnvFrame (countStep s) s' := (envFrame_counted (ticked_frame t s)).trans hattended.frame
  have hcnt : (lookup s'.timers t).cnt.toNat =
      ((lookup s.timers t).cnt.toNat + 1) % widthModulus (lookup s.timers t).bitMode := by
    rw [hattended.cnt, toNat_cnt_ticked hrunning]
  have hwidth : (lookup s'.timers t).bitMode = (lookup s.timers t).bitMode := by
    obtain ⟨-, -, -, hwidth, -⟩ := hframe.regs t
    exact hwidth
  have hready : PwmReady s' i t :=
    h.keep hframe (hparams ▸ hattended.irq) (hcnt ▸ Nat.mod_lt _ (widthModulus_pos _)) (hparams ▸ hattended.flags)
  refine ⟨s', (TurnsRun.tick t s).trans hrun, hready, hframe.slots, hframe.params, hwidth, hcnt, fun hl => ?_⟩
  have hduty : dutyOf s' i = dutyOf s i := congrArg (fun x : Slot => x.duty.toNat) (slotAt_eq hframe.slots i)
  have hlevel := hattended.level
  rw [hparams, hslot, hstart, hmatch, levelOf_eq hgpio, toNat_cnt_ticked hrunning] at hlevel
  rw [hcnt] at hl
  have hwave : waveLevel s' i t = waveAt (lookup s'.timers t).cnt.toNat (dutyOf s' i)
      (widthModulus (lookup s'.timers t).bitMode) := rfl
  rw [hlevel, hwave, hcnt, hduty, hwidth]
  exact waveAt_next hlt hd0 hl

/-- Settles O47: `run_pwmStep`, with no turn to follow. -/
theorem pwmTick : Obligations.PwmTick := by
  intro s i t h
  obtain ⟨s', hrun, hready, hslots, hparams, -, hcnt, hlevel⟩ := run_pwmStep h
  exact ⟨_, hrun.runTurns, hready, hslots, hparams, hcnt, hlevel⟩

/-! ### Cycles -/

/-- Over `n` serviced ticks the counter counts `n` and the level stays on the waveform. -/
theorem run_pwm {s : State} {i : Nat} {t : TimerId} (h : PwmReady s i t)
    (hl : levelOf s (slotAt s i).pin = waveLevel s i t) (n : Nat) :
    ∃ s', TurnsRun (List.replicate n (servicedTick s.params t)).flatten s s' ∧ PwmReady s' i t ∧ s'.slots = s.slots ∧
      s'.params = s.params ∧ (lookup s'.timers t).bitMode = (lookup s.timers t).bitMode ∧
      (lookup s'.timers t).cnt.toNat =
        ((lookup s.timers t).cnt.toNat + n) % widthModulus (lookup s.timers t).bitMode ∧
      levelOf s' (slotAt s i).pin = waveLevel s' i t := by
  induction n with
  | zero =>
    have ⟨_, _, ⟨_, _, hlt, _⟩, _⟩ := h
    exact ⟨s, .nil, h, rfl, rfl, rfl, (Nat.mod_eq_of_lt hlt).symm, hl⟩
  | succ n ih =>
    obtain ⟨s₁, hrun₁, hready₁, hslots₁, hparams₁, hwidth₁, hcnt₁, hlevel₁⟩ := ih
    obtain ⟨s₂, hrun₂, hready₂, hslots₂, hparams₂, hwidth₂, hcnt₂, hlevel₂⟩ := run_pwmStep hready₁
    rw [slotAt_eq hslots₁] at hlevel₂
    refine ⟨s₂, ?_, hready₂, hslots₂.trans hslots₁, hparams₂.trans hparams₁, hwidth₂.trans hwidth₁, ?_,
      hlevel₂ (.inl hlevel₁)⟩
    · rw [List.replicate_succ', List.flatten_concat]
      rw [hparams₁] at hrun₂
      exact hrun₁.trans hrun₂
    · rw [hcnt₂, hcnt₁, hwidth₁, Nat.mod_add_mod, Nat.add_assoc]

/-- Settles O48: from a cycle start the level is on the waveform, and after `n` serviced ticks the counter is `n` modulo
the cycle. -/
theorem pwmWaveform : Obligations.PwmWaveform := by
  intro s i n t h hzero hhigh
  have ⟨_, _, _, _, ⟨hd0, _⟩, _⟩ := h
  have hstart : levelOf s (slotAt s i).pin = waveLevel s i t :=
    hhigh.trans (waveAt_eq_high.mpr (.inl (hzero ▸ hd0))).symm
  obtain ⟨s', hrun, -, hslots, -, hwidth, hcnt, hlevel⟩ := run_pwm h hstart n
  refine ⟨_, hrun.runTurns, ?_⟩
  have hlevel' : levelOf (withSched [] s') (slotAt s i).pin = waveLevel s' i t := hlevel
  have hduty : dutyOf s' i = dutyOf s i := congrArg (fun x : Slot => x.duty.toNat) (slotAt_eq hslots i)
  have hfull : dutyOf s i + 1 = widthModulus (lookup s.timers t).bitMode ↔
      dutyOf s i = widthModulus (lookup s.timers t).bitMode - 1 := by
    have hpos := widthModulus_pos (lookup s.timers t).bitMode
    omega
  dsimp only
  rw [hlevel', waveLevel, hcnt, hzero, Nat.zero_add, hduty, hwidth, ← hfull]
  exact waveAt_eq_high

end Sys2Proof.Machine
end

section
/-! SUPPORT. From a sequencer in step with its command every step of every agent gives a next state, again in step
(60_exceptions R180, 10_state R37). -/

namespace Sys2Proof.Machine

/-! ### Every micro-step has a meaning -/

theorem sel_of_indicesInRange {s : State} {l : WriteStep} (h : indicesInRange s = true) (hs : s.seq.step = .write l)
    (hl : onAllocPath l = true) : ∃ i, s.seq.sel = some i := by
  cases hsel : s.seq.sel with
  | none => simp [indicesInRange, hs, hl, hsel] at h
  | some i => exact ⟨i, rfl⟩

theorem allocStep_total {l : WriteStep} (hl : onAllocPath l = true) (i : Nat) (s : State) :
    ∃ s', allocStep i l s = .next s' := by
  cases l with
  | a0 | a1 | a2 | a3 | a4 | a5 | a6 | a7 | ts0 | ts1 | ts2 | ts3 | ts4 | ts5 | ts6 | ts7 => exact ⟨_, rfl⟩
  | _ => cases hl

theorem writeStep_total {s : State} {l : WriteStep} (h : indicesInRange s = true) (hs : s.seq.step = .write l) :
    ∃ s', writeStep l s = .next s' := by
  cases hl : onAllocPath l with
  | true =>
    obtain ⟨i, hi⟩ := sel_of_indicesInRange h hs hl
    rw [writeStep_onAllocPath hl hi]
    exact allocStep_total hl i s
  | false =>
    cases l with
    | a0 | a1 | a2 | a3 | a4 | a5 | a6 | a7 | ts0 | ts1 | ts2 | ts3 | ts4 | ts5 | ts6 | ts7 => cases hl
    | _ => exact ⟨_, rfl⟩

theorem decode_latchedWord {i : Instr} {s : State} (h : Latched i s) : decode (latchedWord s) = .ok i := by
  obtain ⟨hop, ha, hb⟩ := h
  rw [latchedWord, decode_packCommand, hop, ha, hb, decodeFields_command]

/-- In step with its command, the sequencer's label is one of the command that the latched word decodes to. -/
theorem microTurn_total {s : State} (h : SequencerInv s) (hi : s.seq.step ≠ .idle) : ∃ s', microTurn s = .next s' := by
  obtain ⟨hop, hindices⟩ := h
  unfold stepMatchesOp at hop
  split at hop
  case h_1 hs => exact absurd hs hi
  case h_2 hs =>
    have hd := decode_latchedWord (i := .setrres s.seq.fgA s.seq.fgB) ⟨beq_iff_eq.mp hop, rfl, rfl⟩
    exact ⟨_, (microTurn_command hd).trans (exec_rr0 hs)⟩
  case h_3 hs =>
    have hd := decode_latchedWord (i := .setref s.seq.fgA s.seq.fgB) ⟨beq_iff_eq.mp hop, rfl, rfl⟩
    exact ⟨_, (microTurn_command hd).trans (exec_rf0 hs)⟩
  case h_4 l hs =>
    have hd := decode_latchedWord (i := .read s.seq.fgA s.seq.fgB) ⟨beq_iff_eq.mp hop, rfl, rfl⟩
    exact ⟨_, (microTurn_command hd).trans (exec_read hs)⟩
  case h_5 hs =>
    have hd := decode_latchedWord (i := .setwres s.seq.fgA s.seq.fgB) ⟨beq_iff_eq.mp hop, rfl, rfl⟩
    exact ⟨_, (microTurn_command hd).trans (exec_sw0 hs)⟩
  case h_6 l hs =>
    have hd := decode_latchedWord (i := .write s.seq.fgA s.seq.fgB) ⟨beq_iff_eq.mp hop, rfl, rfl⟩
    obtain ⟨s', hwrite⟩ := writeStep_total hindices hs
    exact ⟨s', ((microTurn_command hd).trans (exec_write hs)).trans hwrite⟩
  case h_7 hs =>
    have hreserved : opField (latchedWord s) = 0x00#8 ∨ 6 ≤ (opField (latchedWord s)).toNat := by simpa using hop
    exact ⟨_, microTurn_reserved ((decode_reserved_iff _).mpr hreserved) hs⟩

theorem acceptTurn_total {s : State} (hi : s.seq.step = .idle) : ∃ s', acceptTurn s = .next s' := by
  cases hh : s.host with
  | nil => exact ⟨s, acceptTurn_empty hh⟩
  | cons w rest =>
    cases hd : decode w with
    | ok i => exact ⟨_, (acceptTurn_command hh hd).trans (exec_idle (s := { s with host := rest }) hi)⟩
    | error e =>
      obtain ⟨rfl, -⟩ := decode_eq_error hd
      exact ⟨_, acceptTurn_reserved hh hd⟩

theorem foregroundTurn_total {s : State} (h : SequencerInv s) : ∃ s', foregroundTurn s = .next s' := by
  by_cases hn : s.irq.active = none
  · by_cases hi : s.seq.step = .idle
    · rw [foregroundTurn_ready ⟨hi, hn⟩]
      exact acceptTurn_total hi
    · rw [foregroundTurn_busy hn hi]
      exact microTurn_total h hi
  · exact ⟨s, foregroundTurn_handler hn⟩

/-! ### And stays in step -/

theorem sequencerInv_of_idle {s : State} (h : s.seq.step = .idle) : SequencerInv s := by
  simp [SequencerInv, stepMatchesOp, indicesInRange, h]

theorem microStep_sequencer {s s' : State} (hm : MicroStep s s') (hl : s.slots.length = s.params.nSlots)
    (h : SequencerInv s) : SequencerInv s' := by
  cases hm with
  | rr0 | rf0 | reserved => exact sequencerInv_of_idle rfl
  | sw0 =>
    obtain ⟨slots, heq, -⟩ := stepSW0_eq s
    rw [heq]
    exact sequencerInv_of_idle rfl
  | read l hs => exact readStep_sequencer hs h
  | write l s' hs e => exact sequencer_write hl hs h e

/-- An accepted command is at its own first label. -/
theorem acceptedState_sequencer (i : Instr) (s : State) : SequencerInv (acceptedState i s) := by
  obtain ⟨-, -, -, -, -, -, -, -, -, -, -, -, -, -, hseq⟩ := acceptedState_keeps i s
  cases i <;>
    simp [SequencerInv, stepMatchesOp, indicesInRange, hseq, firstLabel, Instr.opcode, onAllocPath, onFreedSlot]

theorem acceptReserved_sequencer {w : CommandWord} {e : DecodeError} (hd : decode w = .error e) (s : State) :
    SequencerInv (acceptReserved w s) := by
  obtain ⟨-, hop⟩ := decode_eq_error hd
  refine ⟨?_, rfl⟩
  have hreserved : (opField w == 0x00#8 || decide (6 ≤ (opField w).toNat)) = true := by simpa using hop
  exact hreserved

theorem foregroundStep_sequencer {s s' : State} (hf : ForegroundStep s s') (hl : s.slots.length = s.params.nSlots)
    (h : SequencerInv s) : SequencerInv s' := by
  cases hf with
  | none => exact h
  | accept w rest i => exact acceptedState_sequencer i _
  | acceptReserved w rest _ _ hd => exact acceptReserved_sequencer hd _
  | micro s' _ _ hm => exact microStep_sequencer hm hl h

/-- A step of the foreground sequencer has a meaning, and of the other agents each has one whatever the state. -/
theorem step_total {s : State} (h : SequencerInv s) : ∃ t, step s = .next t := by
  unfold step takeTurn
  split
  · exact foregroundTurn_total (s := beginStep s) h
  all_goals exact ⟨_, rfl⟩

/-- Settles O58: a step has a meaning, and only the foreground sequencer moves its own registers. -/
theorem stepNeverStops : Obligations.StepNeverStops := by
  intro s hs h
  obtain ⟨t, hstep⟩ := step_total h
  have ⟨_, hl, _⟩ := hs
  have hbegun : SequencerInv (beginStep s) := h
  refine ⟨t, hstep, ?_⟩
  rcases step_agent hstep with ⟨-, hf⟩ | ⟨-, hf⟩
  · exact foregroundStep_sequencer hf hl hbegun
  · exact hf.sequencer hbegun

end Sys2Proof.Machine
end

section
/-! SUPPORT. Who sets and who clears the interrupt enables and lines (60_exceptions R183). -/

namespace Sys2Proof.Machine

/-- The interrupt enables of the events and the line of timer `u` are the same in both states. -/
structure SameEnables (s s' : State) (u : TimerId) : Prop where
  events : ∀ k, eventEnabled s' u k = eventEnabled s u k
  line   : (lookup s'.nvic u).en = (lookup s.nvic u).en

/-- What a micro-step of `WRITE` at label `l` does to timer `u` where it touches what `SameEnables` compares. -/
inductive EnableChange (s s' : State) (u : TimerId) (l : WriteStep) : Prop where
  | event (k : Nat) (hu : selectedOn s u = true)
      (hl : (l = .ts4 ∧ k = 0) ∨ (l = .a6 ∧ ∃ i, s.seq.sel = some i ∧ k = slotEvent s.params i))
      (hset : ∀ j, eventEnabled s' u j = eventEnabled s u j ∨ (j = k ∧ eventEnabled s' u j = true))
      (hline : (lookup s'.nvic u).en = (lookup s.nvic u).en)
  | enable (hu : selectedOn s u = true) (hl : l = .ts7) (hevents : ∀ k, eventEnabled s' u k = eventEnabled s u k)
      (hline : (lookup s'.nvic u).en = true)
  | disable (hu : scanTimer s = u) (hl : l = .tp0) (hevents : ∀ k, eventEnabled s' u k = eventEnabled s u k)
      (hline : (lookup s'.nvic u).en = false)

theorem SameEnables.ofTables {s s' : State} {u : TimerId} (ht : s'.timers = s.timers) (hn : s'.nvic = s.nvic) :
    SameEnables s s' u :=
  ⟨fun k => by simp [eventEnabled, ht], by rw [hn]⟩

/-- A store to one timer that leaves its interrupt enables, and to its line that leaves whether it is enabled. -/
theorem SameEnables.ofStore {s s' : State} {u : TimerId} (t : TimerId) {r : TimerRegs} {n : NvicLine}
    (ht : s'.timers = update s.timers t r) (hn : s'.nvic = update s.nvic t n)
    (hevents : ∀ k, (compAt r k).inten = (compAt (lookup s.timers t) k).inten)
    (hline : n.en = (lookup s.nvic t).en) : SameEnables s s' u := by
  rcases eq_or_ne t u with rfl | htu
  · exact ⟨fun k => by simp [eventEnabled, ht, hevents], by simp [hn, hline]⟩
  · exact ⟨fun k => by simp [eventEnabled, ht, htu], by simp [hn, htu]⟩

/-- A store to one comparator that leaves its interrupt enable. -/
theorem SameEnables.ofComp {s s' : State} {u : TimerId} (t : TimerId) (k : Nat) {f : Comparator → Comparator}
    (ht : s'.timers = update s.timers t (setComp k f (lookup s.timers t))) (hn : s'.nvic = s.nvic)
    (hf : ∀ c, (f c).inten = c.inten) : SameEnables s s' u := by
  refine .ofStore t ht (hn.trans (update_lookup _ _).symm) (fun j => ?_) rfl
  rw [compAt_setComp]
  split
  · exact hf _
  · rfl

theorem eventEnabled_timerIntenSet (t u : TimerId) (k j : Nat) (s : State) : eventEnabled (timerIntenSet t k s) u j =
    (eventEnabled s u j || decide (t = u ∧ k = j ∧ j < (lookup s.timers t).comps.length)) := by
  by_cases htu : t = u
  · subst htu
    by_cases hkj : k = j ∧ j < (lookup s.timers t).comps.length <;>
      simp [eventEnabled, compAt_setComp, hkj]
  · simp [eventEnabled, htu]

/-- A store to the interrupt enable of event `k` of timer `t`, with what the label and the selected slot say of them. -/
theorem enableChange_intenSet {s s' : State} {l : WriteStep} {t : TimerId} {k : Nat}
    (ht : s'.timers = (timerIntenSet t k s).timers) (hn : s'.nvic = s.nvic) (hsel : selectedOn s t = true)
    (hl : (l = .ts4 ∧ k = 0) ∨ (l = .a6 ∧ ∃ i, s.seq.sel = some i ∧ k = slotEvent s.params i)) (u : TimerId) :
    SameEnables s s' u ∨ EnableChange s s' u l := by
  have hevent (j : Nat) : eventEnabled s' u j =
      (eventEnabled s u j || decide (t = u ∧ k = j ∧ j < (lookup s.timers t).comps.length)) := by
    rw [← eventEnabled_timerIntenSet, eventEnabled, ht]
    rfl
  by_cases htu : t = u
  · refine .inr (.event k (htu ▸ hsel) hl (fun j => ?_) (by rw [hn]))
    rw [hevent]
    by_cases hj : k = j
    · by_cases hlen : j < (lookup s.timers t).comps.length
      · exact .inr ⟨hj.symm, by simp [htu, hj, htu ▸ hlen]⟩
      · exact .inl (by simp [hlen])
    · exact .inl (by simp [hj])
  · exact .inl ⟨fun j => by simp [hevent, htu], by rw [hn]⟩

/-- Of the micro-steps of `WRITE` only TS4, A6, TS7 and TP0 touch what `SameEnables` compares, each on its own timer. -/
theorem writeStep_enableChange {l : WriteStep} {s s' : State} (e : writeStep l s = .next s') (u : TimerId) :
    SameEnables s s' u ∨ EnableChange s s' u l := by
  cases writeStep_move e
  case ts4 i hi => refine enableChange_intenSet ?_ ?_ (selectedOn_slotTimer hi) (.inl ⟨rfl, rfl⟩) u <;> rfl
  case a6 i hi => refine enableChange_intenSet ?_ ?_ (selectedOn_slotTimer hi) (.inr ⟨rfl, i, hi, rfl⟩) u <;> rfl
  case ts7 i hi =>
    rcases eq_or_ne (slotTimer s.params i) u with rfl | hu
    · exact .inr (.enable (selectedOn_slotTimer hi) rfl (fun _ => rfl) (by simp))
    · exact .inl ⟨fun _ => rfl, by simp [hu]⟩
  case tp0 =>
    rcases eq_or_ne (scanTimer s) u with hu | hu
    · exact .inr (.disable hu rfl (fun _ => rfl) (by simp [hu]))
    · exact .inl ⟨fun _ => rfl, by simp [hu]⟩
  all_goals left
  case w0 => unfold stepW0; split <;> exact .ofTables rfl rfl
  case w1 => unfold stepW1; split <;> exact .ofTables rfl rfl
  case f1 => unfold stepF1; (repeat' split) <;> exact .ofTables rfl rfl
  case f4 => unfold stepF4; split <;> exact .ofTables rfl rfl
  case s0 => unfold stepS0; split <;> exact .ofTables rfl rfl
  case a4 => unfold stepA4; split <;> exact .ofTables rfl rfl
  case a7 => unfold stepA7; split <;> exact .ofTables rfl rfl
  case a5 | ts3 => exact .ofComp _ _ rfl rfl (fun _ => rfl)
  case ts0 | ts1 | ts2 | ts5 | tp2 | tp3 => exact .ofStore _ rfl (update_lookup _ _).symm (fun _ => rfl) rfl
  case ts6 => exact .ofStore _ (update_lookup _ _).symm rfl (fun _ => rfl) rfl
  all_goals exact .ofTables rfl rfl

/-- Of the steps of all agents only a micro-step of `WRITE` touches what `SameEnables` compares. -/
theorem step_enableChange {s t : State} (h : step s = .next t) (u : TimerId) :
    SameEnables (beginStep s) t u ∨
    (nextTurn s = .foreground ∧ ∃ l, s.seq.step = .write l ∧ EnableChange (beginStep s) t u l) := by
  rcases step_agent h with ⟨hturn, hstep⟩ | ⟨-, hframe⟩
  · rcases foregroundStep_tables hstep with ⟨htimers, -, hnvic, -⟩ | ⟨l, hl, hwrite⟩
    · exact .inl (.ofTables htimers hnvic)
    · exact (writeStep_enableChange hwrite u).imp_right fun hchange => ⟨hturn, l, hl, hchange⟩
  · exact .inl ⟨fun k => (hframe.comps u k).2, by rw [hframe.nvic]⟩

/-- No step clears an interrupt enable. -/
theorem eventEnabled_kept {s t : State} (h : step s = .next t) {u : TimerId} {k : Nat}
    (hk : eventEnabled s u k = true) : eventEnabled t u k = true := by
  rcases step_enableChange h u with ⟨hevents, -⟩ | ⟨-, l, -, hchange⟩
  · exact (hevents k).trans hk
  · cases hchange with
    | event j _ _ hset =>
      rcases hset k with hsame | ⟨-, hset⟩
      · exact hsame.trans hk
      · exact hset
    | enable _ _ hevents => exact (hevents k).trans hk
    | disable _ _ hevents => exact (hevents k).trans hk

theorem eventEnabled_set {s t : State} (h : step s = .next t) {u : TimerId} {k : Nat}
    (hclear : eventEnabled s u k = false) (hset : eventEnabled t u k = true) :
    nextTurn s = .foreground ∧ selectedOn s u = true ∧ ((s.seq.step = .write .ts4 ∧ k = 0) ∨
      (s.seq.step = .write .a6 ∧ ∃ i, s.seq.sel = some i ∧ k = slotEvent s.params i)) := by
  have hno : eventEnabled t u k ≠ eventEnabled (beginStep s) u k := fun e =>
    absurd (hset.symm.trans (e.trans hclear)) (by decide)
  rcases step_enableChange h u with ⟨hevents, -⟩ | ⟨hturn, l, hl, hchange⟩
  · exact absurd (hevents k) hno
  · cases hchange with
    | event j hu hlabel hset =>
      obtain ⟨rfl, -⟩ := (hset k).resolve_left hno
      refine ⟨hturn, hu, ?_⟩
      rcases hlabel with ⟨rfl, h0⟩ | ⟨rfl, hevent⟩
      · exact .inl ⟨hl, h0⟩
      · exact .inr ⟨hl, hevent⟩
    | enable _ _ hevents => exact absurd (hevents k) hno
    | disable _ _ hevents => exact absurd (hevents k) hno

/-- A line changes at TS7 and at TP0 alone. -/
theorem line_changed {s t : State} (h : step s = .next t) {u : TimerId}
    (hne : (lookup t.nvic u).en ≠ (lookup s.nvic u).en) : nextTurn s = .foreground ∧
      ((s.seq.step = .write .ts7 ∧ selectedOn s u = true ∧ (lookup t.nvic u).en = true) ∨
       (s.seq.step = .write .tp0 ∧ scanTimer s = u ∧ (lookup t.nvic u).en = false)) := by
  rcases step_enableChange h u with ⟨-, hline⟩ | ⟨hturn, l, hl, hchange⟩
  · exact absurd hline hne
  · refine ⟨hturn, ?_⟩
    cases hchange with
    | event _ _ _ _ hline => exact absurd hline hne
    | enable hu hlabel _ hline => exact .inl ⟨hlabel ▸ hl, hu, hline⟩
    | disable hu hlabel _ hline => exact .inr ⟨hlabel ▸ hl, hu, hline⟩

/-- A turn of the foreground sequencer on a `WRITE`, no handler executing, is the micro-step of its label. -/
theorem step_writeStep {s : State} {l : WriteStep} (hturn : nextTurn s = .foreground) (hn : s.irq.active = none)
    (hop : s.seq.fgOp = 0x05#8) (hl : s.seq.step = .write l) : step s = writeStep l (beginStep s) := by
  rw [step_foreground hturn, foregroundTurn_busy (s := beginStep s) hn (by simp [hl]),
    microTurn_command (decode_latchedWord_write (s := beginStep s) hop), exec_write (s := beginStep s) hl]

/-- On the allocation path it is the micro-step on the selected slot. -/
theorem step_allocStep {s : State} {l : WriteStep} {i : Nat} (hturn : nextTurn s = .foreground)
    (hn : s.irq.active = none) (hop : s.seq.fgOp = 0x05#8) (hl : s.seq.step = .write l)
    (hpath : onAllocPath l = true) (hi : s.seq.sel = some i) : step s = allocStep i l (beginStep s) :=
  (step_writeStep hturn hn hop hl).trans (writeStep_onAllocPath (s := beginStep s) hpath hi)

/-- Settles O43: `step_enableChange` leaves the named steps where something is set or cleared, and each of them does
what it is named for; the entry asks for nothing of the foreground sequencer. -/
theorem interruptEnables : Obligations.InterruptEnables := by
  intro s t u h
  refine ⟨fun k => eventEnabled_kept h, fun k => eventEnabled_set h, fun hoff hon => ?_, fun hon hoff => ?_,
    fun hturn hn hop => ⟨fun i hi hlt ht hs => ?_, fun hl hu => ?_⟩, fun hturn hn hpending => ?_⟩
  · obtain ⟨hturn, ⟨hl, hu, -⟩ | ⟨-, -, hclear⟩⟩ := line_changed h (u := u) (by simp [hoff, hon])
    · exact ⟨hturn, hl, hu⟩
    · simp [hclear] at hon
  · obtain ⟨hturn, ⟨-, -, hset⟩ | ⟨hl, hu, -⟩⟩ := line_changed h (u := u) (by simp [hoff, hon])
    · simp [hset] at hoff
    · exact ⟨hturn, hl, hu⟩
  · have ⟨hwf, _⟩ := hs
    have hset {k : Nat} (hk : k ≤ s.params.nCu) : eventEnabled (timerIntenSet u k (beginStep s)) u k = true := by
      have hlen : k < (lookup s.timers u).comps.length := comps_length hs u ▸ Nat.lt_succ_of_le hk
      rw [eventEnabled_timerIntenSet]
      simp [hlen]
    subst ht
    refine ⟨fun hl => ?_, fun hl => ?_, fun hl => ?_⟩
    · cases h.symm.trans (step_allocStep hturn hn hop hl rfl hi)
      exact hset (Nat.zero_le _)
    · cases h.symm.trans (step_allocStep hturn hn hop hl rfl hi)
      exact hset (slotEvent_le (nCu_pos hwf) i)
    · cases h.symm.trans (step_allocStep hturn hn hop hl rfl hi)
      simp
  · cases h.symm.trans (step_writeStep hturn hn hop hl)
    subst hu
    simp [scanTimer]
  · have henter : entryEnabled (beginStep s) u = true := by
      have hpending' : pending (beginStep s) u = true := hpending
      simp [entryEnabled, hn, hpending']
    cases h.symm.trans (step_dispatcher hturn)
    rw [dispatcherTurn_enter henter]
    rfl

end Sys2Proof.Machine
end

section
/-! SUPPORT. A `SETWRES` changes the slot table exactly where it changes `WRITE_RES` (70_reset_and_hazards R235, log
entry 5). -/

namespace Sys2Proof.Machine

theorem stepSW0_writeRes (s : State) : (stepSW0 s).cfg.writeRes = (writeResolution s.seq.fgA).1 := by
  simp [stepSW0_cfg]

theorem stepSW0_slots_unchanged {s : State} (h : (stepSW0 s).cfg.writeRes = s.cfg.writeRes) :
    (stepSW0 s).slots = s.slots := by
  rw [stepSW0_writeRes] at h
  simp [stepSW0, h]

theorem stepSW0_slots_changed {s : State} (h : (stepSW0 s).cfg.writeRes ≠ s.cfg.writeRes) :
    (stepSW0 s).slots = (markBoundUndefined s).slots := by
  rw [stepSW0_writeRes] at h
  simp [stepSW0, h]

/-- The mark of one slot as a disjunction: `markBoundUndefined` sets it for a bound slot and clears it for none. -/
theorem slotAt_markBoundUndefined_or (s : State) (i : Nat) :
    slotAt (markBoundUndefined s) i =
      { slotAt s i with undef := (slotAt s i).bound || (slotAt s i).undef } := by
  rw [slotAt_markBoundUndefined]
  split
  case isTrue hb => simp [hb]
  case isFalse hb => simp [hb]

/-- Settles O14: SW0 leaves the slot table where `WRITE_RES` stays, and is `markBoundUndefined` on it where it changes. -/
theorem setwresUndefinesBound : Obligations.SetwresUndefinesBound := by
  intro s t bits x hs _ e
  cases e.symm.trans (exec_sw0 hs)
  refine ⟨stepSW0_slots_unchanged, fun hne i _ => ?_⟩
  calc slotAt (stepSW0 s) i
      _ = slotAt (markBoundUndefined s) i := slotAt_eq (stepSW0_slots_changed hne) i
      _ = { slotAt s i with undef := (slotAt s i).bound || (slotAt s i).undef } := slotAt_markBoundUndefined_or s i

end Sys2Proof.Machine
end
